-- ==== Sys2Proof/Word.lean ====
section
/-! DEFINITION. The word types of the block: a wire byte, a 32-bit register word and the 24-bit LEN field (R16, R60). -/

namespace Sys2Proof

/-- A byte: "an 8-bit unsigned value" (R16). -/
abbrev Byte := BitVec 8

/-- A command or result word, 32 bits (R29, R35). -/
abbrev Word := BitVec 32

/-- The LEN field of a command word, bits 31:8 (R60, R62). -/
abbrev Len := BitVec 24

end Sys2Proof
end

