-- ==== Sys2Proof/Config.lean ====
section
/-! DEFINITION. What is fixed for one block: the parameters of 00_scope.md R7 to R13 and the platform parameters of 20_memory.md R47 and R50, and the model's one free value. Their ranges are checked in Machine/Operands.lean. -/

namespace Sys2Proof

/-- BUS_BINDING (R47): how the four bytes of a register map onto the lanes of the bus. A bus narrower than a register carries it
in several transfers. The form of the parameter is DESIGN CHOICE (log 20); its value is left open. -/
structure BusBinding where
  /-- The bytes one transfer carries. -/
  width : Nat
  /-- The register byte (0 is bits 7:0) that each lane carries, transfer by transfer, lane 0 first. -/
  lanes : List Nat
deriving DecidableEq, Repr

/-- The configuration of a block. R21 and R38 list it with the state: no command and no reset changes it.
State carries it, so that a claim can fix it or hold for every one (00_scope.md section 4). -/
structure Config where
  /-- CAPACITY, the bytes of OUT_MEM (R7). -/
  capacity : Nat
  /-- CHUNK_SIZE, the bytes of SCRATCH (R8). -/
  chunkSize : Nat
  /-- INACTIVITY_TIMEOUT, in tick units (R9). -/
  inactivityTimeout : Nat
  /-- W_TICK, the width of a tick value (R10). -/
  wTick : Nat
  /-- IN_MEM_SIZE, the bytes of IN_MEM (R11). -/
  inMemSize : Nat
  /-- PAY_MEM_SIZE, the bytes of PAY_MEM (R12). -/
  payMemSize : Nat
  /-- ERR_OVERFLOW_CODE (R13). -/
  errOverflow : Word
  /-- ERR_INVALID_ESCAPE_CODE (R13). -/
  errInvalidEscape : Word
  /-- W_ERR, the width of the sink's error value (R13). -/
  wErr : Nat
  /-- DEC_BASE (R50). -/
  decBase : Nat
  /-- ENC_BASE (R50). -/
  encBase : Nat
  /-- IN_MEM_BASE (R50). -/
  inMemBase : Nat
  /-- OUT_MEM_BASE (R50). -/
  outMemBase : Nat
  /-- PAY_MEM_BASE (R50). -/
  payMemBase : Nat
  /-- DESIGN CHOICE (log 13): bus addresses from one register number to the next, which R36 and R50 leave open. -/
  regStride : Nat
  /-- BUS_BINDING (R47). -/
  busBinding : BusBinding
deriving DecidableEq, Repr

/-- The configuration State.reset carries. The spec's defaults where it has them (R9, R10, R13);
CAPACITY as in 95_test_vectors.md section 0 and the rest DESIGN CHOICE (log 1, log 13, log 20). -/
def Config.standard : Config where
  capacity := 8
  chunkSize := 11
  inactivityTimeout := 500
  wTick := 32
  inMemSize := 256
  payMemSize := 256
  errOverflow := 0xFFFFFFFF#32
  errInvalidEscape := 0xFFFFFFFE#32
  wErr := 32
  decBase := 0x0000
  encBase := 0x0100
  inMemBase := 0x1000
  outMemBase := 0x2000
  payMemBase := 0x3000
  regStride := 4
  busBinding := { width := 4, lanes := [0, 1, 2, 3] }

/-- FREE VALUE, DESIGN CHOICE (log 9): what a 32-bit host read of SEND_ERR returns when W_ERR is above 32.
R36 gives the value only for W_ERR up to 32. Applied to State's count of the writes of SEND_ERR: "idempotent" reads agree until the register is written again (R49). -/
opaque Config.freeWord : Nat → Word

end Sys2Proof
end

