-- ==== Sys2Proof/Syntax.lean ====
section
/-! DEFINITION. The instructions of the block, one constructor per row of spec/opcode_table.json: the five commands (R61) and the eight wire byte classes (R57); and the words they are read from. -/

namespace Sys2Proof

/-- DSTATE, the decoder's frame state (R22). Value 3 "is never written by any rule and is unreachable"; the type has no such value (I18). -/
inductive DState where
  | idle
  | inFrame
  | inFrameEscaped
deriving DecidableEq, Repr

/-- The two blocks, which the command registers and the register numbers belong to (R35, R36). -/
inductive Block where
  | decoder
  | encoder
deriving DecidableEq, Repr

/-- One constructor per row of the opcode table. -/
inductive Instr where
  /-- INIT (R72). -/
  | init
  /-- RESET (R73). -/
  | reset
  /-- PROCESS with L = LEN (R74). -/
  | process (len : Len)
  /-- DRAIN (R75). -/
  | drain
  /-- ENCODE with N = LEN (R93). -/
  | encode (len : Len)
  /-- START: 0xC0 in IDLE (R80). -/
  | start
  /-- SKIP: any other byte in IDLE (R80). -/
  | skip (b : Byte)
  /-- END: 0xC0 in IN_FRAME or IN_FRAME_ESCAPED (R81). -/
  | endFrame
  /-- ESC_END: 0xDC in IN_FRAME_ESCAPED (R83). -/
  | escEnd
  /-- ESC_ESC: 0xDD in IN_FRAME_ESCAPED (R83). -/
  | escEsc
  /-- BAD_ESC: any other byte in IN_FRAME_ESCAPED (R84). -/
  | badEsc (b : Byte)
  /-- ESC: 0xDB in IN_FRAME (R82). -/
  | esc
  /-- DATA: any other byte in IN_FRAME (R85). -/
  | data (b : Byte)
deriving DecidableEq, Repr

/-- The class column of R57's table: which of the eight wire rows a byte falls under. -/
inductive WireClass where
  | start
  | skip
  | endFrame
  | escEnd
  | escEsc
  | badEsc
  | esc
  | data
deriving DecidableEq, Repr

/-- What an instruction is read from: a word written to a command register (R60) or a wire byte (R57). -/
inductive CodeWord where
  | decCmd (w : Word)
  | encCmd (w : Word)
  | wire (b : Byte)
deriving DecidableEq, Repr

/-- Why a command word is reserved (R63). -/
inductive Reject where
  /-- The OP field names no command of that register. -/
  | reservedOp
  /-- INIT, RESET or DRAIN with a LEN that is not 0. -/
  | nonzeroLen
deriving DecidableEq, Repr

end Sys2Proof
end

