-- ==== Sys2Proof/Machine/State.lean ====
section
/-! DEFINITION. The state of the block (10_state.md, 20_memory.md), its faults (R113), its value after hardware reset (R38), and the inputs that reach it from outside (R15). -/

namespace Sys2Proof.Machine

/-- A byte memory: the written bytes, by strictly rising address. An address that is not listed is unwritten and "holds no value" (R40). -/
abbrev Mem := List Host.Cell

/-- The window of IN_MEM that an open PROCESS or DRAIN transaction works on, with its input cursor (R30, R79). -/
structure Window where
  /-- `base` of PROCESS_WINDOW. -/
  base : Nat
  /-- `L` of PROCESS_WINDOW. -/
  len : Nat
  /-- The input cursor `i`: the index, within the window, of the byte to interpret next. -/
  pos : Nat
deriving DecidableEq, Repr

/-- The decoder's registers (R22 to R30) and memories (R39). -/
structure Decoder where
  /-- DSTATE (R22). -/
  dstate : DState
  /-- WP (R24). -/
  wp : Nat
  /-- LEFT_OFF (R26). -/
  leftOff : Nat
  /-- LEFT_LEN (R26). -/
  leftLen : Nat
  /-- LAST_T (R28), a number below 2^W_TICK. -/
  lastT : Nat
  /-- RES (R29). -/
  res : Word
  /-- IN_MEM (R41). -/
  inMem : Mem
  /-- OUT_MEM (R44). -/
  outMem : Mem
  /-- The open transaction's window and cursor; none between commands (R30). -/
  window : Option Window
deriving DecidableEq, Repr

/-- The three places where ENCODE waits in a flush (R99). -/
inductive FlushPoint where
  /-- Before a payload byte, with fewer than two scratch bytes left (R96). -/
  | body
  /-- Before the closing delimiter, with no scratch byte left (R97). -/
  | closing
  /-- After the closing delimiter (R98). -/
  | final
deriving DecidableEq, Repr

/-- The encoder's registers (R31 to R34) and memories (R39). -/
structure Encoder where
  /-- ENC_BUSY (R34). -/
  busy : Bool
  /-- ENC_RES (R33): false is 0, Ok; true is 1, SendError. -/
  res : Bool
  /-- SEND_ERR (R33), a number below 2^W_ERR. -/
  sendErr : Nat
  /-- EPOS (R32). -/
  epos : Nat
  /-- EJ (R32). -/
  ej : Nat
  /-- `N` of the running ENCODE_BODY (R95; log 10). -/
  len : Nat
  /-- The flush whose answer the encoder waits for; none when it does not wait (R95, R99; log 10). -/
  wait : Option FlushPoint
  /-- PAY_MEM (R45). -/
  payMem : Mem
  /-- SCRATCH (R46). -/
  scratch : Mem
deriving DecidableEq, Repr

/-- The four memories (R39). -/
inductive MemName where
  | inMem
  | outMem
  | payMem
  | scratch
deriving DecidableEq, Repr

/-- What the host may try (R36, R39, R48). A register access names the bytes of the register it covers. -/
inductive HostAccess where
  | regWrite (blk : Block) (num offset size : Nat) (data : Word)
  | regRead (blk : Block) (num offset size : Nat)
  | memWrite (m : MemName) (a : Nat) (b : Byte)
  | memRead (m : MemName) (a : Nat)
deriving DecidableEq, Repr

/-- The sink's answer to a flush (R66, R117). -/
inductive SinkAnswer where
  | ok
  | fail (e : Nat)
deriving DecidableEq, Repr

/-- What a bus address reaches: a byte `offset` of a register, or a byte of a memory (R50). -/
inductive BusTarget where
  | register (blk : Block) (num offset : Nat)
  | byte (m : MemName) (a : Nat)
deriving DecidableEq, Repr

/-- What reaches the block from outside (R15). -/
inductive Input where
  /-- A host access by register number or memory address (R69). -/
  | access (a : HostAccess)
  /-- A host write by bus address (R50): transfers of `width` bytes each, from `addr` on, lane 0 of each in bits 7:0 (R47; log 20). -/
  | busWrite (addr width : Nat) (transfers : List Word)
  /-- A host read by bus address (R50), in `count` transfers of `width` bytes each (R47; log 20). -/
  | busRead (addr width count : Nat)
  /-- The tick source presents a new value (R67, R116). -/
  | tick (t : Nat)
  /-- The sink answers flush number `flush`, counting presented chunks from 1 (R117; log 7). -/
  | sinkAnswer (flush : Nat) (a : SinkAnswer)
  /-- The reset input is asserted (R121). -/
  | hwReset
deriving DecidableEq, Repr

/-- Everything the spec gives the machine, and the model's own fields for what passes between it and the outside. -/
structure State where
  /-- The configuration (R7 to R13, R50). -/
  cfg : Config
  dec : Decoder
  enc : Encoder
  /-- The value the tick port presents (R67; log 6). -/
  tick : Nat
  /-- What the outside still does, oldest first (log 2). -/
  inputs : List Input
  /-- The words host reads have returned, oldest first (log 8). -/
  hostOut : List Word
  /-- The chunks presented to the sink, oldest first (R66; log 8). -/
  sinkOut : List (List Byte)
  /-- How many free values have been drawn: one for each write of SEND_ERR (log 9). -/
  draws : Nat
deriving DecidableEq, Repr

/-- The host faults (R113). Each is safe: the run stops where the block "might do something". -/
inductive Fault where
  /-- F_LEFTOVER_NOT_DRAINED: PROCESS with LEFT_LEN > 0 (R74). Safe. -/
  | leftoverNotDrained
  /-- F_LEFTOVER_CLOBBERED: a host write to IN_MEM with LEFT_LEN > 0 (R42). Safe. -/
  | leftoverClobbered
  /-- F_PAYLOAD_CLOBBERED: a host write to PAY_MEM with ENC_BUSY = 1 (R45). Safe. -/
  | payloadClobbered
  /-- F_BUSY: a write to ENC_CMD with ENC_BUSY = 1 (R101). Safe. -/
  | busy
  /-- F_MEM_RANGE: PROCESS, ENCODE or a host memory access beyond a memory, or one the host does not have (R41, R44, R45, R62; log 12, 15). Safe. -/
  | memRange
  /-- F_UNWRITTEN_READ: PROCESS, ENCODE or a host read meets a byte never written (R40). Safe. -/
  | unwrittenRead
  /-- F_RESERVED_CMD: a reserved word written to DEC_CMD or ENC_CMD (R63). Safe. -/
  | reservedCmd
  /-- F_REG_ACCESS: a host register access that is not in R36's table, or a partial or misaligned one (R36, R48). Safe. -/
  | regAccess
deriving DecidableEq, Repr

/-- Why the model has no meaning for a step. -/
inductive Refusal where
  /-- An instruction that has no meaning yet, raised by exec's arm alone. Safe. -/
  | notModelled (mnemonic : String)
  /-- The configuration breaks a range of R7 to R13: step has no machine for it (R114). Safe. -/
  | badConfiguration
deriving DecidableEq, Repr

/-- The outcome of a step or of a meaning. -/
abbrev StepResult := Host.Outcome State Fault Refusal

/-- What a step does next: run an instruction, or something else already worked out. -/
inductive Next where
  | run (i : Instr) (s : State)
  | done (o : StepResult)

/-- FrameResult (R64). -/
inductive FrameResult where
  | needMoreData
  | frameReady (n : Nat)
  | overflow
  | invalidEscape
deriving DecidableEq, Repr

/-- The decoder after hardware reset (R38). -/
def Decoder.reset : Decoder where
  dstate := .idle
  wp := 0
  leftOff := 0
  leftLen := 0
  lastT := 0
  res := 0#32
  inMem := []
  outMem := []
  window := none

/-- The encoder after hardware reset (R38; the last two registers log 10). -/
def Encoder.reset : Encoder where
  busy := false
  res := false
  sendErr := 0
  epos := 0
  ej := 0
  len := 0
  wait := none
  payMem := []
  scratch := []

/-- The machine right after hardware reset, with nothing yet done to it from outside (R38, R121). -/
def State.reset : State where
  cfg := Config.standard
  dec := Decoder.reset
  enc := Encoder.reset
  tick := 0
  inputs := []
  hostOut := []
  sinkOut := []
  draws := 0

/-- The state with another decoder. -/
def State.setDec (s : State) (d : Decoder) : State := { s with dec := d }
/-- The state with another encoder. -/
def State.setEnc (s : State) (e : Encoder) : State := { s with enc := e }
/-- The state with another value on the tick port. -/
def State.setTick (s : State) (t : Nat) : State := { s with tick := t }
/-- The state with other inputs still to come. -/
def State.setInputs (s : State) (is : List Input) : State := { s with inputs := is }
/-- The state after a host read returned words. -/
def State.pushHostAll (s : State) (ws : List Word) : State := { s with hostOut := s.hostOut ++ ws }
/-- The state after a host read returned a word. -/
def State.pushHost (s : State) (w : Word) : State := s.pushHostAll [w]
/-- The state after a chunk was presented to the sink. -/
def State.pushChunk (s : State) (c : List Byte) : State := { s with sinkOut := s.sinkOut ++ [c] }
/-- The state after a free value was drawn. -/
def State.countDraw (s : State) : State := { s with draws := s.draws + 1 }

end Sys2Proof.Machine
end

