-- ==== Sys2Proof/Machine/Flags.lean ====
section
/-! DEFINITION. Status views and result words: the two booleans of R23, the encoding of DSTATE (R68), of the decoder's results in RES (R64) and of the encoder's in ENC_RES, SEND_ERR and ENC_BUSY (R65, R36). The block has no condition codes (R21). -/

namespace Sys2Proof.Machine

/-- `sawStart = (DSTATE != IDLE)` (R23). -/
def sawStart (d : Decoder) : Bool := d.dstate != .idle

/-- `pendingEscape = (DSTATE == IN_FRAME_ESCAPED)` (R23). -/
def pendingEscape (d : Decoder) : Bool := d.dstate == .inFrameEscaped

/-- "DSTATE is encoded IDLE = 0, IN_FRAME = 1, IN_FRAME_ESCAPED = 2" (R68). -/
def dstateCode : DState → BitVec 2
  | .idle => 0#2
  | .inFrame => 1#2
  | .inFrameEscaped => 2#2

/-- RES of a FrameResult (R64). -/
def resultWord (c : Config) : FrameResult → Word
  | .needMoreData => 0#32
  | .frameReady n => BitVec.ofNat 32 n
  | .overflow => c.errOverflow
  | .invalidEscape => c.errInvalidEscape

/-- A 1-bit register as a host reads it: "bits 31:1 read as 0" (R36). -/
def bitWord (b : Bool) : Word := if b then 1#32 else 0#32

/-- SEND_ERR "zero-extended to 32 if W_ERR < 32" (R36); a free value where W_ERR is above 32, the same until SEND_ERR is written again (log 9, R49). -/
def sendErrWord (s : State) : Word :=
  if s.cfg.wErr ≤ 32 then BitVec.ofNat 32 s.enc.sendErr else Config.freeWord s.draws

end Sys2Proof.Machine
end

