-- ==== Sys2Proof/WellFormed.lean ====
section
/-! DEFINITION. Which terms of Instr are instructions of the table: the operand byte of the three wire rows that match "any byte not matched above", and the DSTATE column of the table. -/

namespace Sys2Proof

/-- SKIP, BAD_ESC and DATA hold a byte that no earlier row of their state takes (R57, R59). -/
def Instr.wellFormed : Instr → Bool
  | .init | .reset | .process _ | .drain | .encode _ => true
  | .start | .endFrame | .escEnd | .escEsc | .esc => true
  | .skip b => b != 0xC0#8
  | .badEsc b => b != 0xC0#8 && b != 0xDC#8 && b != 0xDD#8
  | .data b => b != 0xC0#8 && b != 0xDB#8

/-- The DSTATE column of R57: the states in which the row is tried. A command does not depend on DSTATE. -/
def Instr.readIn : Instr → DState → Bool
  | .init, _ | .reset, _ | .process _, _ | .drain, _ | .encode _, _ => true
  | .start, d | .skip _, d => d == .idle
  | .endFrame, d => d != .idle
  | .escEnd, d | .escEsc, d | .badEsc _, d => d == .inFrameEscaped
  | .esc, d | .data _, d => d == .inFrame

end Sys2Proof
end

