-- ==== Sys2Proof/Decode.lean ====
section
/-! DEFINITION. From words to instructions and back: the command word (R60 to R63), the wire byte classes (R57), the encoder of both, the escaping of a payload byte and the framing of a payload (R54 to R56). -/

namespace Sys2Proof

/-- START_END, the frame delimiter (R54). -/
abbrev startEnd : Byte := 0xC0#8
/-- ESCAPE (R54). -/
abbrev escapeByte : Byte := 0xDB#8
/-- ESCAPED_START_END (R54). -/
abbrev escapedStartEnd : Byte := 0xDC#8
/-- ESCAPED_ESCAPE (R54). -/
abbrev escapedEscape : Byte := 0xDD#8

/-- OP, bits 7:0 of a command word (R60). -/
def opField (w : Word) : Byte := w.extractLsb' 0 8

/-- LEN, bits 31:8 of a command word (R60). -/
def lenField (w : Word) : Len := w.extractLsb' 8 24

/-- A command whose LEN "must be 0"; any other LEN is reserved (R61, R63). -/
def wantZeroLen (w : Word) (i : Instr) : Except Reject Instr :=
  if lenField w = 0#24 then .ok i else .error .nonzeroLen

/-- A word written to DEC_CMD (R61, R63). -/
def decodeDecCmd (w : Word) : Except Reject Instr :=
  if opField w = 0x01#8 then wantZeroLen w .init
  else if opField w = 0x02#8 then wantZeroLen w .reset
  else if opField w = 0x03#8 then .ok (.process (lenField w))
  else if opField w = 0x04#8 then wantZeroLen w .drain
  else .error .reservedOp

/-- A word written to ENC_CMD (R61, R63). -/
def decodeEncCmd (w : Word) : Except Reject Instr :=
  if opField w = 0x10#8 then .ok (.encode (lenField w)) else .error .reservedOp

/-- The class of a wire byte: the rows of R57 for one DSTATE, "from top to bottom", the first that matches. -/
def wireClass (d : DState) (b : Byte) : WireClass :=
  match d with
  | .idle => if b = startEnd then .start else .skip
  | .inFrame => if b = startEnd then .endFrame else if b = escapeByte then .esc else .data
  | .inFrameEscaped =>
    if b = startEnd then .endFrame
    else if b = escapedStartEnd then .escEnd
    else if b = escapedEscape then .escEsc
    else .badEsc

/-- The instruction of a class, with the byte as its operand where the row has one. -/
def wireInstr (c : WireClass) (b : Byte) : Instr :=
  match c with
  | .start => .start
  | .skip => .skip b
  | .endFrame => .endFrame
  | .escEnd => .escEnd
  | .escEsc => .escEsc
  | .badEsc => .badEsc b
  | .esc => .esc
  | .data => .data b

/-- A wire byte read in a frame state (R57). Every byte has a class, so this never rejects (R59). -/
def decodeWire (d : DState) (b : Byte) : Instr := wireInstr (wireClass d b) b

/-- Every word of the block. DSTATE matters for wire bytes alone (R58). -/
def decode (d : DState) : CodeWord → Except Reject Instr
  | .decCmd w => decodeDecCmd w
  | .encCmd w => decodeEncCmd w
  | .wire b => .ok (decodeWire d b)

/-- The command word {LEN, OP} (R60). -/
def commandWord (op : Byte) (len : Len) : Word := len ++ op

/-- The word of a well-formed instruction, from the tables of R61 and R57. -/
def encode : Instr → CodeWord
  | .init => .decCmd (commandWord 0x01#8 0#24)
  | .reset => .decCmd (commandWord 0x02#8 0#24)
  | .process len => .decCmd (commandWord 0x03#8 len)
  | .drain => .decCmd (commandWord 0x04#8 0#24)
  | .encode len => .encCmd (commandWord 0x10#8 len)
  | .start => .wire startEnd
  | .skip b => .wire b
  | .endFrame => .wire startEnd
  | .escEnd => .wire escapedStartEnd
  | .escEsc => .wire escapedEscape
  | .badEsc b => .wire b
  | .esc => .wire escapeByte
  | .data b => .wire b

/-- `esc`, "a total function from one payload byte to one or two wire bytes" (R55). -/
def escape (b : Byte) : List Byte :=
  if b = startEnd then [escapeByte, escapedStartEnd]
  else if b = escapeByte then [escapeByte, escapedEscape]
  else [b]

/-- The wire form of a payload (R56). -/
def frame (payload : List Byte) : List Byte := [startEnd] ++ payload.flatMap escape ++ [startEnd]

/-- DESIGN CHOICE (log 5): the DSTATE in which a wire byte is read when the table gives the byte alone. The first state,
in the order of R22, in which a row of the table names that byte by value; IDLE, the state at reset, for every other byte. -/
def tableDState (b : Byte) : DState :=
  if b = escapeByte then .inFrame
  else if b = escapedStartEnd then .inFrameEscaped
  else if b = escapedEscape then .inFrameEscaped
  else .idle

/-- The word of the table as this hardware takes it: up to 8 bits are a wire byte; more are a command word, to ENC_CMD
if it is a command of that register and to DEC_CMD otherwise (the table's "register" column; no OP is in both). -/
def tableCodeWord (nbits w : Nat) : CodeWord :=
  if nbits ≤ 8 then .wire (BitVec.ofNat 8 w)
  else match decodeEncCmd (BitVec.ofNat 32 w) with
    | .ok _ => .encCmd (BitVec.ofNat 32 w)
    | .error _ => .decCmd (BitVec.ofNat 32 w)

/-- The instruction the decoder reads from a table word. -/
def decodeTableWord (nbits w : Nat) : Option Instr :=
  match decode (tableDState (BitVec.ofNat 8 w)) (tableCodeWord nbits w) with
  | .ok i => some i
  | .error _ => none

end Sys2Proof
end

