-- ==== Sys2Proof/Machine/Operands.lean ====
section
/-! DEFINITION. Operands and how they are read: the configuration's ranges (R114), byte accesses to the memories (R39 to R46), the LEN operand (R62), the window's byte (R79), tick values (R17, R76), register accesses (R36, R48), bus addresses (R50) and BUS_BINDING (R47). -/

namespace Sys2Proof.Machine

/-! ## Configuration -/

/-- The ranges of R7 to R13. A configuration outside them "is refused: the model has no machine for it" (R114). -/
def configValid (c : Config) : Bool :=
  decide (1 ≤ c.capacity ∧ c.capacity ≤ 2 ^ 31 - 1)
  && decide (3 ≤ c.chunkSize ∧ c.chunkSize ≤ 2 ^ 24 - 1)
  && decide (1 ≤ c.wTick ∧ c.inactivityTimeout ≤ 2 ^ c.wTick - 1)
  && decide (1 ≤ c.inMemSize ∧ c.inMemSize ≤ 2 ^ 24 - 1)
  && decide (c.payMemSize ≤ 2 ^ 24 - 1)
  && (c.errOverflow.msb && c.errInvalidEscape.msb && c.errOverflow != c.errInvalidEscape)

/-! ## Byte memories -/

/-- The byte at an address, none where it is unwritten (R40). -/
def memRead : Mem → Nat → Option Byte
  | [], _ => none
  | (k, v) :: rest, a => if k = a then some v else memRead rest a

/-- Write one byte, keeping the addresses strictly rising. -/
def memWrite : Mem → Nat → Byte → Mem
  | [], a, b => [(a, b)]
  | (k, v) :: rest, a, b =>
    if a < k then (a, b) :: (k, v) :: rest
    else if a = k then (a, b) :: rest
    else (k, v) :: memWrite rest a b

/-- Every listed address is above `a`. -/
def Memory.above (a : Nat) : Mem → Bool
  | [] => true
  | (k, _) :: rest => decide (a < k) && Memory.above a rest

/-- The canonical form: addresses strictly rising. An unlisted address has no value, so no entry can equal what it reads as. -/
def Memory.wf : Mem → Bool
  | [] => true
  | (k, _) :: rest => Memory.above k rest && Memory.wf rest

/-- Every listed address lies below `size`: the memory has no byte beyond its size (R39). -/
def Memory.within (size : Nat) : Mem → Bool
  | [] => true
  | (k, _) :: rest => decide (k < size) && Memory.within size rest

/-- `MemRead` (R18): F_MEM_RANGE beyond the memory, F_UNWRITTEN_READ at an unwritten byte (R40, R113). -/
def loadByte (size : Nat) (m : Mem) (a : Nat) : Except Fault Byte :=
  if a < size then
    match memRead m a with
    | some b => .ok b
    | none => .error .unwrittenRead
  else .error .memRange

/-- `MemWrite` (R18): F_MEM_RANGE beyond the memory (R113). -/
def storeByte (size : Nat) (m : Mem) (a : Nat) (b : Byte) : Except Fault Mem :=
  if a < size then .ok (memWrite m a b) else .error .memRange

/-- `n` bytes from address `a` on, in increasing order (R47). -/
def loadBytes (size : Nat) (m : Mem) (a : Nat) : Nat → Except Fault (List Byte)
  | 0 => .ok []
  | n + 1 =>
    match loadByte size m a with
    | .error f => .error f
    | .ok b =>
      match loadBytes size m (a + 1) n with
      | .error f => .error f
      | .ok bs => .ok (b :: bs)

/-- No byte of the `n` from address `a` on is unwritten: the test of PROCESS and ENCODE (R74, R93). -/
def allWritten (m : Mem) (a : Nat) : Nat → Bool
  | 0 => true
  | n + 1 => (memRead m a).isSome && allWritten m (a + 1) n

/-! ## The LEN operand and the tick -/

/-- "`LEN = zext_32(CMD[31:8])`, an unsigned byte count with no scaling and no sign" (R62). -/
def byteCount (len : Len) : Nat := len.toNat

/-- `now()`: the W_TICK-bit value the tick port presents (R67, R76). -/
def tickNow (s : State) : Nat := s.tick % 2 ^ s.cfg.wTick

/-- `elapsed(now, last) = (now - last) mod 2^W_TICK` (R17). -/
def elapsed (wTick now last : Nat) : Nat :=
  (((now : Int) - (last : Int)) % ((2 ^ wTick : Nat) : Int)).toNat

/-- The test of R77, strict: "an elapsed time equal to INACTIVITY_TIMEOUT does not reset". -/
def timedOut (c : Config) (now last : Nat) : Bool :=
  decide (c.inactivityTimeout < elapsed c.wTick now last)

/-- The sink's error value, `W_ERR` bits wide (R66). -/
def errorValue (c : Config) (e : Nat) : Nat := e % 2 ^ c.wErr

/-! ## Register and bus accesses -/

/-- "A register access must be a whole 32-bit access to the register" (R48). -/
def wholeRegister (offset size : Nat) : Bool := offset == 0 && size == 4

/-- Whether a bus address lies in the `len` addresses from `base` on. -/
def inRange (base len addr : Nat) : Bool := decide (base ≤ addr ∧ addr < base + len)

/-- The place of address `addr` in a block of registers, numbered from `base` on in steps of regStride (log 13). -/
def busRegister (c : Config) (blk : Block) (base addr : Nat) : BusTarget :=
  .register blk ((addr - base) / c.regStride) ((addr - base) % c.regStride)

/-- What a bus address reaches, by the base addresses of R50: two decoder registers and four encoder registers (R36), or a
byte of IN_MEM, OUT_MEM or PAY_MEM (R39). None where it reaches nothing of the block (log 13). -/
def busTarget (c : Config) (addr : Nat) : Option BusTarget :=
  if inRange c.decBase (2 * c.regStride) addr then some (busRegister c .decoder c.decBase addr)
  else if inRange c.encBase (4 * c.regStride) addr then some (busRegister c .encoder c.encBase addr)
  else if inRange c.inMemBase c.inMemSize addr then some (.byte .inMem (addr - c.inMemBase))
  else if inRange c.outMemBase c.capacity addr then some (.byte .outMem (addr - c.outMemBase))
  else if inRange c.payMemBase c.payMemSize addr then some (.byte .payMem (addr - c.payMemBase))
  else none

/-! ## BUS_BINDING -/

/-- Byte `k` of a word, byte 0 in bits 7:0. -/
def byteOf (w : Word) (k : Nat) : Byte := w.extractLsb' (8 * k) 8

/-- A word with byte `k` of it `b` and every other byte 0. -/
def byteAt (k : Nat) (b : Byte) : Word := b.setWidth 32 <<< (8 * k)

/-- The binding carries a whole register: each of its four bytes once, in transfers of one width. -/
def carriesWhole (b : BusBinding) : Bool :=
  (b.width == 1 || b.width == 2 || b.width == 4) && b.lanes.length == 4 && [0, 1, 2, 3].all b.lanes.contains

/-- How many transfers carry the register. -/
def transferCount (b : BusBinding) : Nat := 4 / b.width

/-- A transfer with these bytes on its lanes, lane 0 in bits 7:0. -/
def laneWord : List Byte → Word
  | [] => 0#32
  | b :: bs => b.setWidth 32 ||| laneWord bs <<< 8

/-- Bytes on the lanes of `n` transfers, `width` bytes to each. -/
def laneWords (width : Nat) : Nat → List Byte → List Word
  | 0, _ => []
  | n + 1, bytes => laneWord (bytes.take width) :: laneWords width n (bytes.drop width)

/-- The transfers that carry a register's value (R47). -/
def transfersOf (b : BusBinding) (w : Word) : List Word :=
  laneWords b.width (transferCount b) (b.lanes.map (byteOf w))

/-- The bytes of transfers in the order of the lanes. -/
def transferBytes (width : Nat) (ts : List Word) : List Byte := ts.flatMap fun t => (List.range width).map (byteOf t)

/-- The register value that transfers carry (R47). -/
def wordOf (b : BusBinding) (ts : List Word) : Word :=
  ((b.lanes.zip (transferBytes b.width ts)).map fun p => byteAt p.1 p.2).foldr (· ||| ·) 0#32

/-- The size of the register access that transfers make: 4, the whole register, where they are those of the binding; any others
are a partial access, which has no size that R48 allows (log 20). -/
def accessSize (b : BusBinding) (width count : Nat) : Nat :=
  if carriesWhole b && width == b.width && count == transferCount b then 4 else 0

end Sys2Proof.Machine
end

