-- ==== Sys2Proof/Machine/Ops.lean ====
section
/-! DEFINITION. The operations the meanings share: sequencing, the reset effect (R71), the window and its cursor (R30), the end of a transaction, the decoder's error as one operation (R109), the timeout test (R77), the append (R86), and the encoder's scratch writes and flush (R95, R99). There is no return from an error (R110): the next command finds an ordinary state. -/

namespace Sys2Proof.Machine

/-! ## Sequencing -/

/-- Do `f` after a step that went on. -/
def andThen (r : StepResult) (f : State → StepResult) : StepResult :=
  match r with
  | .next s => f s
  | .fault e => .fault e
  | .refused e => .refused e

/-- Go on with a value, or stop with its fault. -/
def orFault {α : Type} (r : Except Fault α) (f : α → StepResult) : StepResult :=
  match r with
  | .ok a => f a
  | .error e => .fault e

/-! ## Decoder -/

/-- RESET_EFFECT (R71). -/
def Decoder.resetEffect (d : Decoder) : Decoder :=
  { d with wp := 0, dstate := .idle, leftOff := 0, leftLen := 0 }

/-- Move to a frame state. -/
def Decoder.enter (d : Decoder) (st : DState) : Decoder := { d with dstate := st }

/-- The cursor "advances by exactly 1 after each byte whose handling does not end the transaction" (R30). -/
def Decoder.advance (d : Decoder) : Decoder :=
  { d with window := d.window.map (fun w => { w with pos := w.pos + 1 }) }

/-- How many bytes of the window follow the one at the cursor: `L - (i + 1)` (R79). -/
def Decoder.bytesAfter (d : Decoder) : Nat :=
  match d.window with
  | some w => w.len - (w.pos + 1)
  | none => 0

/-- The IN_MEM address after the byte at the cursor: `base + i + 1` (R79). -/
def Decoder.addressAfter (d : Decoder) : Nat :=
  match d.window with
  | some w => w.base + w.pos + 1
  | none => 0

/-- SET_LEFT (R79, R87): the leftover is what follows the byte being interpreted; an empty leftover is 0, 0. -/
def Decoder.setLeft (d : Decoder) : Decoder :=
  if 0 < d.bytesAfter then { d with leftOff := d.addressAfter, leftLen := d.bytesAfter }
  else { d with leftOff := 0, leftLen := 0 }

/-- The end of a transaction: `RES <- r` (R74, R75), and the cursor "does not survive the transaction" (R30). -/
def Decoder.finish (d : Decoder) (r : Word) : Decoder := { d with res := r, window := none }

/-- The start of PROCESS_WINDOW after its timeout test (R79): `LAST_T <- t`, cursor at 0. -/
def Decoder.openAt (d : Decoder) (base len t : Nat) : Decoder :=
  { d with lastT := t, window := some { base := base, len := len, pos := 0 } }

/-- OUT_MEM and WP after a byte was appended (R86). -/
def Decoder.appended (d : Decoder) (m : Mem) : Decoder := { d with outMem := m, wp := d.wp + 1 }

/-- RESET_EFFECT on the machine (R71). -/
def resetEffect (s : State) : State := s.setDec s.dec.resetEffect

/-- A byte was consumed and the loop goes on. -/
def consume (s : State) : State := s.setDec s.dec.advance

/-- A byte was consumed, DSTATE moves, and the loop goes on. -/
def consumeTo (st : DState) (s : State) : State := s.setDec (s.dec.enter st).advance

/-- The transaction ends with a result. -/
def endTransaction (r : FrameResult) (s : State) : State := s.setDec (s.dec.finish (resultWord s.cfg r))

/-- A frame is complete (R81): `DSTATE <- IDLE; SET_LEFT; return FrameReady(WP)`. WP keeps its value (R25). -/
def completeFrame (s : State) : State :=
  endTransaction (.frameReady s.dec.wp) (s.setDec (s.dec.enter .idle).setLeft)

/-- What a decoder error does, the nearest thing to trap entry (R109): the reset effect, then the leftover is set to the
bytes after the one at the cursor, then the transaction ends with the error result. "Nothing else is saved and no mode changes." -/
def raiseError (r : FrameResult) (s : State) : State :=
  endTransaction r (s.setDec s.dec.resetEffect.setLeft)

/-- The timeout test (R77): silent, no error code (R108). -/
def timeoutTest (t : Nat) (s : State) : State :=
  if timedOut s.cfg t s.dec.lastT then resetEffect s else s

/-- PROCESS_WINDOW up to its byte loop (R79): the timeout test, `LAST_T <- t` (R78), the cursor at 0. -/
def openWindow (base len t : Nat) (s : State) : State :=
  (timeoutTest t s).setDec ((timeoutTest t s).dec.openAt base len t)

/-- APPEND (R86): Overflow when `WP == CAPACITY`; otherwise the byte goes to OUT_MEM at WP and the loop goes on. -/
def append (b : Byte) (s : State) : StepResult :=
  if s.dec.wp = s.cfg.capacity then .next (raiseError .overflow s)
  else orFault (storeByte s.cfg.capacity s.dec.outMem s.dec.wp b) fun m =>
    .next (consume (s.setDec (s.dec.appended m)))

/-! ## Encoder -/

/-- The start of an ENCODE that passed its tests (R94): `ENC_BUSY <- 1, EJ <- 0, EPOS <- 0`, with N kept. -/
def Encoder.begin (e : Encoder) (n : Nat) : Encoder :=
  { e with busy := true, ej := 0, epos := 0, len := n, wait := none }

/-- SCRATCH and EPOS after one scratch byte was written (R95). -/
def Encoder.wrote (e : Encoder) (m : Mem) : Encoder := { e with scratch := m, epos := e.epos + 1 }

/-- `EJ <- EJ + 1` (R95). -/
def Encoder.nextByte (e : Encoder) : Encoder := { e with ej := e.ej + 1 }

/-- The encoder waits for the sink (R95, R99). -/
def Encoder.waitAt (e : Encoder) (p : FlushPoint) : Encoder := { e with wait := some p }

/-- "After a successful flush other than the last, `EPOS <- 0`" (R99). -/
def Encoder.resume (e : Encoder) : Encoder := { e with epos := 0, wait := none }

/-- ENCODE ends Ok (R95): `ENC_RES <- 0; ENC_BUSY <- 0`. -/
def Encoder.finishOk (e : Encoder) : Encoder := { e with res := false, busy := false, wait := none }

/-- ENCODE ends in failure (R100): `ENC_RES <- 1; SEND_ERR <- e; ENC_BUSY <- 0`. -/
def Encoder.finishErr (e : Encoder) (v : Nat) : Encoder :=
  { e with res := true, sendErr := v, busy := false, wait := none }

/-- The free bytes of SCRATCH: `CHUNK_SIZE - EPOS` (R95). -/
def scratchRoom (s : State) : Nat := s.cfg.chunkSize - s.enc.epos

/-- Write bytes to SCRATCH at EPOS, EPOS+1, …, with EPOS moving past them (R95). -/
def writeScratch : List Byte → State → StepResult
  | [], s => .next s
  | b :: bs, s =>
    orFault (storeByte s.cfg.chunkSize s.enc.scratch s.enc.epos b) fun m =>
      writeScratch bs (s.setEnc (s.enc.wrote m))

/-- FLUSH up to the wait (R99): the sink is presented `SCRATCH[0..EPOS)`, and the encoder waits. -/
def flush (p : FlushPoint) (s : State) : StepResult :=
  orFault (loadBytes s.cfg.chunkSize s.enc.scratch 0 s.enc.epos) fun chunk =>
    .next ((s.pushChunk chunk).setEnc (s.enc.waitAt p))

/-- ENCODE ends in failure (R100). SEND_ERR is written, so the free value of log 9 is drawn anew. -/
def failEncode (v : Nat) (s : State) : State := (s.setEnc (s.enc.finishErr v)).countDraw

/-! ## Host memory access -/

/-- A host byte write to IN_MEM (R41, R42). The address is tested first: one beyond the memory is no byte of IN_MEM (log 11). -/
def hostWriteIn (a : Nat) (b : Byte) (s : State) : StepResult :=
  if s.cfg.inMemSize ≤ a then .fault .memRange
  else if 0 < s.dec.leftLen then .fault .leftoverClobbered
  else .next (s.setDec { s.dec with inMem := memWrite s.dec.inMem a b })

/-- A host byte write to PAY_MEM (R45), its tests in the same order (log 11). -/
def hostWritePay (a : Nat) (b : Byte) (s : State) : StepResult :=
  if s.cfg.payMemSize ≤ a then .fault .memRange
  else if s.enc.busy then .fault .payloadClobbered
  else .next (s.setEnc { s.enc with payMem := memWrite s.enc.payMem a b })

/-- A host byte read of OUT_MEM, without side effects on the block (R44, R49). -/
def hostReadOut (a : Nat) (s : State) : StepResult :=
  orFault (loadByte s.cfg.capacity s.dec.outMem a) fun b => .next (s.pushHost (b.setWidth 32))

/-! ## Hardware reset -/

/-- Hardware reset (R121, R38): every register and memory of the block, and no configuration. A running ENCODE is abandoned.
SEND_ERR is written, so the free value of log 9 is drawn anew. -/
def hardwareReset (s : State) : State := ((s.setDec Decoder.reset).setEnc Encoder.reset).countDraw

end Sys2Proof.Machine
end

