-- ==== Sys2Proof/Machine/Control.lean ====
section
/-! DEFINITION. The decoder's control commands INIT and RESET (R72, R73). -/

namespace Sys2Proof.Machine

/-- INIT (R72): RESET_EFFECT. The output buffer and capacity are bound by configuration, so there is nothing to bind. -/
def execInit (s : State) : StepResult := .next (resetEffect s)

/-- RESET (R73): RESET_EFFECT. -/
def execReset (s : State) : StepResult := .next (resetEffect s)

end Sys2Proof.Machine
end

