-- ==== Sys2Proof/Machine/Wire.lean ====
section
/-! DEFINITION. The eight wire byte classes (R57, R80 to R85), each as applied to the byte at the cursor of the open window, and the byte loop of PROCESS_WINDOW over them (R79). -/

namespace Sys2Proof.Machine

/-- START (R80): `DSTATE <- IN_FRAME; WP <- 0`. -/
def execStart (s : State) : StepResult :=
  .next (consumeTo .inFrame (s.setDec { s.dec with wp := 0 }))

/-- SKIP (R80): the byte "changes nothing, writes nothing and is consumed". -/
def execSkip (_b : Byte) (s : State) : StepResult := .next (consume s)

/-- END (R81): an empty frame restarts the frame search; any other is complete. -/
def execEndFrame (s : State) : StepResult :=
  if s.dec.wp = 0 then .next (consumeTo .inFrame s) else .next (completeFrame s)

/-- ESC (R82): `DSTATE <- IN_FRAME_ESCAPED`; nothing is appended, so no overflow test is made. -/
def execEsc (s : State) : StepResult := .next (consumeTo .inFrameEscaped s)

/-- ESC_END (R83): `DSTATE <- IN_FRAME; APPEND(0xC0)`. -/
def execEscEnd (s : State) : StepResult := append startEnd (s.setDec (s.dec.enter .inFrame))

/-- ESC_ESC (R83): `DSTATE <- IN_FRAME; APPEND(0xDB)`. -/
def execEscEsc (s : State) : StepResult := append escapeByte (s.setDec (s.dec.enter .inFrame))

/-- BAD_ESC (R84): the error InvalidEscapeSequence; nothing is appended. -/
def execBadEsc (_b : Byte) (s : State) : StepResult := .next (raiseError .invalidEscape s)

/-- DATA (R85): `APPEND(b)`. -/
def execData (b : Byte) (s : State) : StepResult := append b s

/-- One byte of the loop of R79: its class in the present DSTATE, and that class's meaning. -/
def interpretByte (b : Byte) (s : State) : StepResult :=
  match wireClass s.dec.dstate b with
  | .start => execStart s
  | .skip => execSkip b s
  | .endFrame => execEndFrame s
  | .escEnd => execEscEnd s
  | .escEsc => execEscEsc s
  | .badEsc => execBadEsc b s
  | .esc => execEsc s
  | .data => execData b s

/-- The byte at the cursor of a window: `MemRead(IN_MEM, base + i)` (R79). -/
def windowByte (w : Window) (s : State) : Except Fault Byte :=
  loadByte s.cfg.inMemSize s.dec.inMem (w.base + w.pos)

/-- One turn of the loop of R79: the next byte, or NeedMoreData when "the loop exhausts the input". -/
def windowStep (w : Window) (s : State) : StepResult :=
  if w.pos < w.len then orFault (windowByte w s) fun b => interpretByte b s
  else .next (endTransaction .needMoreData s)

/-- Turns of the loop until the transaction ends, at most as many as the first argument. -/
def runWindow : Nat → State → StepResult
  | 0, s => .next s
  | n + 1, s =>
    match s.dec.window with
    | none => .next s
    | some w => andThen (windowStep w s) (runWindow n)

/-- PROCESS_WINDOW(base, L, t) with its result in RES (R79). L bytes and the turn that finds the input exhausted. -/
def processWindow (base len t : Nat) (s : State) : StepResult :=
  runWindow (len + 1) (openWindow base len t s)

end Sys2Proof.Machine
end

