-- ==== Sys2Proof/Machine/Decoder.lean ====
section
/-! DEFINITION. The decoder's processing commands PROCESS and DRAIN (R74, R75), each one atomic transaction (R14). -/

namespace Sys2Proof.Machine

/-- PROCESS (R74). The three tests stand in the order of R111, before the tick is sampled and before any state changes. -/
def execProcess (len : Len) (s : State) : StepResult :=
  if s.cfg.inMemSize < byteCount len then .fault .memRange
  else if 0 < s.dec.leftLen then .fault .leftoverNotDrained
  else if allWritten s.dec.inMem 0 (byteCount len) then processWindow 0 (byteCount len) (tickNow s) s
  else .fault .unwrittenRead

/-- The leftover cleared before it is processed: "clear it" (R75). -/
def clearLeft (s : State) : State := s.setDec { s.dec with leftOff := 0, leftLen := 0 }

/-- DRAIN (R75). With an empty leftover only RES is written: no tick is sampled, no timeout test is made, LAST_T stays. -/
def execDrain (s : State) : StepResult :=
  if s.dec.leftLen = 0 then .next (s.setDec { s.dec with res := resultWord s.cfg .needMoreData })
  else processWindow s.dec.leftOff s.dec.leftLen (tickNow s) (clearLeft s)

end Sys2Proof.Machine
end

