-- ==== Sys2Proof/Machine/Encoder.lean ====
section
/-! DEFINITION. The encoder's command ENCODE (R93 to R102) and its answer from the sink, each an atomic stretch up to the next flush or the end (R95). -/

namespace Sys2Proof.Machine

/-- The closing delimiter and the last flush (R98). -/
def finalChunk (s : State) : StepResult := andThen (writeScratch [startEnd] s) (flush .final)

/-- After all payload bytes (R97): flush first when no scratch byte is left. -/
def closeFrame (s : State) : StepResult :=
  if scratchRoom s < 1 then flush .closing s else finalChunk s

/-- Write payload byte EJ, escaped (R96), and go to the next. The byte is read when it is written (log 16). -/
def encodeByte (s : State) : StepResult :=
  orFault (loadByte s.cfg.payMemSize s.enc.payMem s.enc.ej) fun b =>
    andThen (writeScratch (escape b) s) fun t => .next (t.setEnc t.enc.nextByte)

/-- The payload loop (R95, R96) for the given number of bytes still to encode: before each, a flush when fewer than two scratch bytes remain. -/
def encodeBody : Nat → State → StepResult
  | 0, s => closeFrame s
  | n + 1, s =>
    if scratchRoom s < 2 then flush .body s
    else andThen (encodeByte s) (encodeBody n)

/-- The payload loop from where EJ stands: `while EJ < N` (R95). -/
def encodeRest (s : State) : StepResult := encodeBody (s.enc.len - s.enc.ej) s

/-- ENCODE (R93), up to its first flush. The three tests stand in the order of R111, before any state changes; then R94 and the body. -/
def execEncode (len : Len) (s : State) : StepResult :=
  if s.enc.busy then .fault .busy
  else if s.cfg.payMemSize < byteCount len then .fault .memRange
  else if allWritten s.enc.payMem 0 (byteCount len) then
    andThen (writeScratch [startEnd] (s.setEnc (s.enc.begin (byteCount len)))) encodeRest
  else .fault .unwrittenRead

/-- What follows a successful flush (R95): the byte that waited for room, then the rest; the closing delimiter; or the end. -/
def afterFlush (p : FlushPoint) (s : State) : StepResult :=
  match p with
  | .body => andThen (encodeByte (s.setEnc s.enc.resume)) encodeRest
  | .closing => finalChunk (s.setEnc s.enc.resume)
  | .final => .next (s.setEnc s.enc.finishOk)

/-- The sink answers flush number `k`, counting presented chunks from 1. Only the answer to the flush the encoder waits in
is taken; "a sink answer that arrives after the reset is ignored" (R121; log 7). -/
def sinkAnswer (k : Nat) (a : SinkAnswer) (s : State) : StepResult :=
  match s.enc.wait with
  | none => .next s
  | some p =>
    if k = s.sinkOut.length then
      match a with
      | .ok => afterFlush p s
      | .fail e => .next (failEncode (errorValue s.cfg e) s)
    else .next s

end Sys2Proof.Machine
end

