-- ==== Sys2Proof/Machine/Dispatch.lean ====
section
/-! DEFINITION. The meaning of every instruction, one arm each. -/

namespace Sys2Proof.Machine

def exec (i : Instr) (s : State) : Host.Outcome State Fault Refusal :=
  match i with
  | .init => Sys2Proof.Machine.execInit s
  | .reset => Sys2Proof.Machine.execReset s
  | .process len => Sys2Proof.Machine.execProcess len s
  | .drain => Sys2Proof.Machine.execDrain s
  | .encode len => Sys2Proof.Machine.execEncode len s
  | .start => Sys2Proof.Machine.execStart s
  | .skip b => Sys2Proof.Machine.execSkip b s
  | .endFrame => Sys2Proof.Machine.execEndFrame s
  | .escEnd => Sys2Proof.Machine.execEscEnd s
  | .escEsc => Sys2Proof.Machine.execEscEsc s
  | .badEsc b => Sys2Proof.Machine.execBadEsc b s
  | .esc => Sys2Proof.Machine.execEsc s
  | .data b => Sys2Proof.Machine.execData b s

end Sys2Proof.Machine
end

