-- ==== Sys2Proof/Machine/HostPort.lean ====
section
/-! DEFINITION. What the host does to the block (R36, R118): register and memory accesses, also by bus address (R50), and the words its command writes issue (R35). -/

namespace Sys2Proof.Machine

/-- A word written to DEC_CMD (R35): the command it decodes to, or F_RESERVED_CMD (R63). -/
def writeDecCmd (w : Word) (s : State) : Next :=
  match decode s.dec.dstate (.decCmd w) with
  | .ok i => .run i s
  | .error _ => .done (.fault .reservedCmd)

/-- A word written to ENC_CMD (R35). Any write while ENC_BUSY = 1 is F_BUSY (R101), a reserved word too (log 11). -/
def writeEncCmd (w : Word) (s : State) : Next :=
  match decode s.dec.dstate (.encCmd w) with
  | .ok i => .run i s
  | .error _ => .done (.fault (if s.enc.busy then .busy else .reservedCmd))

/-- A host write of a register (R36): the two command registers, whole (R48). Every other is F_REG_ACCESS. A partial or
misaligned write to ENC_CMD is F_REG_ACCESS while ENC_BUSY = 1 too, where R101 gives F_BUSY and R111 orders neither:
DESIGN CHOICE (log 11). -/
def regWrite (blk : Block) (num offset size : Nat) (w : Word) (s : State) : Next :=
  if wholeRegister offset size then
    match blk, num with
    | .decoder, 0 => writeDecCmd w s
    | .encoder, 0 => writeEncCmd w s
    | _, _ => .done (.fault .regAccess)
  else .done (.fault .regAccess)

/-- What a whole read of a register gives (R36): RES, ENC_RES, SEND_ERR and ENC_BUSY. Every other is F_REG_ACCESS, a command
register too (R35). -/
def regValue (blk : Block) (num : Nat) (s : State) : Except Fault Word :=
  match blk, num with
  | .decoder, 1 => .ok s.dec.res
  | .encoder, 1 => .ok (bitWord s.enc.res)
  | .encoder, 2 => .ok (sendErrWord s)
  | .encoder, 3 => .ok (bitWord s.enc.busy)
  | _, _ => .error .regAccess

/-- A host read of a register, whole (R48). Reads "have no side effects and are idempotent" (R49). -/
def regRead (blk : Block) (num offset size : Nat) (s : State) : StepResult :=
  if wholeRegister offset size then orFault (regValue blk num s) fun w => .next (s.pushHost w)
  else .fault .regAccess

/-- A host byte write (R39): IN_MEM and PAY_MEM. OUT_MEM is F_MEM_RANGE (R44); so is SCRATCH (log 12). -/
def memWriteAccess (m : MemName) (a : Nat) (b : Byte) (s : State) : StepResult :=
  match m with
  | .inMem => hostWriteIn a b s
  | .payMem => hostWritePay a b s
  | .outMem => .fault .memRange
  | .scratch => .fault .memRange

/-- A host byte read (R39): OUT_MEM. The other three are not read by the host: F_MEM_RANGE (log 12). -/
def memReadAccess (m : MemName) (a : Nat) (s : State) : StepResult :=
  match m with
  | .outMem => hostReadOut a s
  | .inMem => .fault .memRange
  | .payMem => .fault .memRange
  | .scratch => .fault .memRange

/-- One host access. A command write gives the instruction to run; every other access is done here. -/
def hostAccess (a : HostAccess) (s : State) : Next :=
  match a with
  | .regWrite blk num offset size w => regWrite blk num offset size w s
  | .regRead blk num offset size => .done (regRead blk num offset size s)
  | .memWrite m a b => .done (memWriteAccess m a b s)
  | .memRead m a => .done (memReadAccess m a s)

/-- A host write by bus address (R50, R47). A register takes the value its transfers carry; a memory byte takes one transfer of
one byte; F_MEM_RANGE where the address reaches nothing of the block (log 13). -/
def busWrite (addr width : Nat) (transfers : List Word) (s : State) : Next :=
  match busTarget s.cfg addr with
  | some (.register blk num offset) =>
    regWrite blk num offset (accessSize s.cfg.busBinding width transfers.length) (wordOf s.cfg.busBinding transfers) s
  | some (.byte m a) =>
    match transfers with
    | [w] => .done (if width = 1 then memWriteAccess m a (byteOf w 0) s else .fault .memRange)
    | _ => .done (.fault .memRange)
  | none => .done (.fault .memRange)

/-- A host read by bus address (R50, R47), the same way: a register's value is returned in the transfers that carry it. -/
def busRead (addr width count : Nat) (s : State) : StepResult :=
  match busTarget s.cfg addr with
  | some (.register blk num offset) =>
    if wholeRegister offset (accessSize s.cfg.busBinding width count) then
      orFault (regValue blk num s) fun w => .next (s.pushHostAll (transfersOf s.cfg.busBinding w))
    else .fault .regAccess
  | some (.byte m a) => if width = 1 ∧ count = 1 then memReadAccess m a s else .fault .memRange
  | none => .fault .memRange

end Sys2Proof.Machine
end

