-- ==== Sys2Proof/Machine/Fetch.lean ====
section
/-! DEFINITION. What the next step does: the next wire byte of an open window, or the next input from outside (R15), or nothing; and how a word is put where the next step takes it. -/

namespace Sys2Proof.Machine

/-- One input taken from outside. -/
def takeInput (i : Input) (s : State) : Next :=
  match i with
  | .access a => hostAccess a s
  | .busWrite addr width transfers => busWrite addr width transfers s
  | .busRead addr width count => .done (busRead addr width count s)
  | .tick t => .done (.next (s.setTick t))
  | .sinkAnswer k a => .done (sinkAnswer k a s)
  | .hwReset => .done (.next (hardwareReset s))

/-- The next wire byte of an open window (R79), read in the present DSTATE (R57). -/
def nextByte (w : Window) (s : State) : Next :=
  if w.pos < w.len then
    match windowByte w s with
    | .ok b => .run (decodeWire s.dec.dstate b) s
    | .error f => .done (.fault f)
  else .done (.next (endTransaction .needMoreData s))

/-- The next input; with none, the block "waits for a host command" (R121). -/
def nextInput (s : State) : Next :=
  match s.inputs with
  | [] => .done (.next s)
  | i :: rest => takeInput i (s.setInputs rest)

/-- What the next step does. While a transaction is open no input is taken: a decoder command is atomic (R49). -/
def fetch (s : State) : Next :=
  match s.dec.window with
  | some w => nextByte w s
  | none => nextInput s

/-- The host access that writes a command word. -/
def commandAccess : CodeWord → List Input
  | .decCmd w => [.access (.regWrite .decoder 0 0 4 w)]
  | .encCmd w => [.access (.regWrite .encoder 0 0 4 w)]
  | .wire _ => []

/-- A state whose next step fetches the given word: a command as the next host access; a wire byte as the one byte of an
open window, read in the DSTATE in which the table reads it (log 5). -/
def placeWord (c : CodeWord) (s : State) : State :=
  match c with
  | .wire b =>
    s.setDec { s.dec with
      dstate := tableDState b, inMem := memWrite s.dec.inMem 0 b, window := some { base := 0, len := 1, pos := 0 } }
  | .decCmd _ => (s.setDec { s.dec with window := none }).setInputs (commandAccess c ++ s.inputs)
  | .encCmd _ => (s.setDec { s.dec with window := none }).setInputs (commandAccess c ++ s.inputs)

end Sys2Proof.Machine
end

