-- ==== Sys2Proof/Machine/Step.lean ====
section
/-! DEFINITION. One step of the machine (R14, R19), and the word that the host places where the next step fetches. -/

namespace Sys2Proof.Machine

/-- One step: what is fetched, run. A configuration out of range has no machine (R114). -/
def step (s : State) : Host.Outcome State Fault Refusal :=
  if configValid s.cfg then
    match fetch s with
    | .run i t => exec i t
    | .done o => o
  else .refused .badConfiguration

/-- `s` with a table word where the next step fetches (log 5). -/
def State.withFetchWord (s : State) (nbits w : Nat) : State := placeWord (tableCodeWord nbits w) s

end Sys2Proof.Machine
end

