-- ==== Sys2Proof/Machine/Platform.lean ====
section
/-! DEFINITION. Several blocks of one platform (R6, R119): each instance has its own registers and memories, and their commands interleave in any order. How a platform numbers them is outside the block; here by place in a list (log 18). -/

namespace Sys2Proof.Machine

/-- The instances of a platform. -/
abbrev Platform := List State

/-- Instance `n` takes one step. Where there is no such instance nothing happens. -/
def platformStep (n : Nat) (p : Platform) : Host.Outcome Platform Fault Refusal :=
  match p[n]? with
  | none => .next p
  | some s =>
    match step s with
    | .next t => .next (p.set n t)
    | .fault f => .fault f
    | .refused r => .refused r

end Sys2Proof.Machine
end

