-- ==== Sys2Proof/Safety.lean ====
section
/-! DEFINITION. The terms in which claims are made: the invariant of the machine, the plain reading of the decoder as a parser of byte lists (R23, R79), of the encoder as a cutter of frames into chunks (R95), and the host's loop (R89). Nothing here is used by the machine. -/

namespace Sys2Proof.Machine

/-! ## The invariant -/

/-- The values RES may hold (R64): 0, a frame length with the frame readable in OUT_MEM (R44), or one of the two error codes. -/
def resultLegal (c : Config) (d : Decoder) : Prop :=
  d.res = 0#32
  ∨ (1 ≤ d.res.toNat ∧ d.res.toNat ≤ c.capacity ∧ allWritten d.outMem 0 d.res.toNat = true)
  ∨ d.res = c.errOverflow ∨ d.res = c.errInvalidEscape

/-- An open window lies in IN_MEM, its bytes are written, its cursor is inside it, and no leftover stands beside it. -/
def windowLegal (c : Config) (d : Decoder) (w : Window) : Prop :=
  w.pos ≤ w.len ∧ w.base + w.len ≤ c.inMemSize ∧ allWritten d.inMem w.base w.len = true ∧ d.leftLen = 0

/-- What holds of the decoder in every state a run reaches. -/
structure Decoder.Inv (c : Config) (d : Decoder) : Prop where
  /-- "`0 <= writePos <= capacity`" (R24). -/
  wp_le : d.wp ≤ c.capacity
  /-- The bytes appended so far are in OUT_MEM (R44, R86). -/
  out_written : allWritten d.outMem 0 d.wp = true
  /-- The leftover is a window of IN_MEM (R26). -/
  left_le : d.leftOff + d.leftLen ≤ c.inMemSize
  /-- An empty leftover is written 0, 0 (R26). -/
  left_empty : d.leftLen = 0 → d.leftOff = 0
  /-- The bytes of the leftover are written (R42, R75). -/
  left_written : allWritten d.inMem d.leftOff d.leftLen = true
  /-- LAST_T has W_TICK bits (R28). -/
  lastT_lt : d.lastT < 2 ^ c.wTick
  /-- A result of 0 always leaves `LEFT_LEN = 0` (R27). -/
  zero_left : d.res = 0#32 → d.leftLen = 0
  /-- RES holds a FrameResult (R64). -/
  res_legal : resultLegal c d
  /-- IN_MEM is in canonical form. -/
  in_wf : Memory.wf d.inMem = true
  /-- IN_MEM has IN_MEM_SIZE bytes (R39). -/
  in_within : Memory.within c.inMemSize d.inMem = true
  /-- OUT_MEM is in canonical form. -/
  out_wf : Memory.wf d.outMem = true
  /-- OUT_MEM has CAPACITY bytes (R39). -/
  out_within : Memory.within c.capacity d.outMem = true
  /-- What an open window satisfies. -/
  window_legal : ∀ w, d.window = some w → windowLegal c d w

/-- What holds of the encoder in every state a run reaches. -/
structure Encoder.Inv (c : Config) (e : Encoder) : Prop where
  /-- Between steps a running ENCODE waits in a flush, and only a running one does (R95). -/
  busy_iff : e.busy = true ↔ e.wait ≠ none
  /-- EPOS is in `0..CHUNK_SIZE` (R32). -/
  epos_le : e.epos ≤ c.chunkSize
  /-- EJ is in `0..N` (R32). -/
  ej_le : e.ej ≤ e.len
  /-- N is at most PAY_MEM_SIZE (R62). -/
  len_le : e.len ≤ c.payMemSize
  /-- The payload of a running ENCODE is written (R93). -/
  pay_written : e.busy = true → allWritten e.payMem 0 e.len = true
  /-- The bytes held for the next flush are in SCRATCH (R32). -/
  scratch_written : allWritten e.scratch 0 e.epos = true
  /-- A flush holds at least one byte (R66). -/
  wait_some : e.wait ≠ none → 1 ≤ e.epos
  /-- Where a body flush stands (R96, R105). -/
  wait_body : e.wait = some .body → e.ej < e.len ∧ c.chunkSize ≤ e.epos + 1
  /-- Where a closing flush stands (R97, R105). -/
  wait_closing : e.wait = some .closing → e.ej = e.len ∧ e.epos = c.chunkSize
  /-- Where the final flush stands (R98). -/
  wait_final : e.wait = some .final → e.ej = e.len
  /-- SEND_ERR has W_ERR bits (R33). -/
  sendErr_lt : e.sendErr < 2 ^ c.wErr
  /-- PAY_MEM is in canonical form. -/
  pay_wf : Memory.wf e.payMem = true
  /-- PAY_MEM has PAY_MEM_SIZE bytes (R39). -/
  pay_within : Memory.within c.payMemSize e.payMem = true
  /-- SCRATCH is in canonical form. -/
  scratch_wf : Memory.wf e.scratch = true
  /-- SCRATCH has CHUNK_SIZE bytes (R39). -/
  scratch_within : Memory.within c.chunkSize e.scratch = true

/-- The invariant of the machine. -/
structure State.Inv (s : State) : Prop where
  /-- The configuration is in range (R114). -/
  valid : configValid s.cfg = true
  dec : s.dec.Inv s.cfg
  enc : s.enc.Inv s.cfg

/-- `n` steps of the machine, stopping at the first fault or refusal. It is the host's Core.run of Sys2Proof.core (Laws/Run.lean). -/
def runSteps : Nat → State → StepResult
  | 0, s => .next s
  | n + 1, s => andThen (step s) (runSteps n)

/-- Between two commands: no decoder transaction is open (R14, R30). -/
def betweenCommands (s : State) : Prop := s.dec.window = none

/-- All that belongs to neither block is unchanged: configuration, tick port, inputs still to come, words returned to the host, free values drawn. -/
def sameOutside (s t : State) : Prop :=
  t.cfg = s.cfg ∧ t.tick = s.tick ∧ t.inputs = s.inputs ∧ t.hostOut = s.hostOut ∧ t.draws = s.draws

/-! ## The decoder as a parser of byte lists -/

/-- "a tagged-variant state (`Idle | InFrame` written `| Escaped` written)" (R23), holding the bytes written. -/
inductive Parser where
  | idle
  | inFrame (p : List Byte)
  | escaped (p : List Byte)
deriving DecidableEq, Repr

/-- How parsing a byte list ends: it runs out, or one of the three terminal events, with the bytes after it (R79, R87). -/
inductive ParseEnd where
  | more (st : Parser)
  | frameReady (p rest : List Byte)
  | overflow (rest : List Byte)
  | invalidEscape (rest : List Byte)
deriving DecidableEq, Repr

/-- The parser: the quoted sentences of R80 to R86, on a list. -/
def parse (capacity : Nat) : Parser → List Byte → ParseEnd
  | st, [] => .more st
  | .idle, b :: bs => if b = startEnd then parse capacity (.inFrame []) bs else parse capacity .idle bs
  | .inFrame p, b :: bs =>
    if b = startEnd then (if p = [] then parse capacity (.inFrame []) bs else .frameReady p bs)
    else if b = escapeByte then parse capacity (.escaped p) bs
    else if p.length = capacity then .overflow bs
    else parse capacity (.inFrame (p ++ [b])) bs
  | .escaped p, b :: bs =>
    if b = startEnd then (if p = [] then parse capacity (.inFrame []) bs else .frameReady p bs)
    else if b = escapedStartEnd then
      (if p.length = capacity then .overflow bs else parse capacity (.inFrame (p ++ [startEnd])) bs)
    else if b = escapedEscape then
      (if p.length = capacity then .overflow bs else parse capacity (.inFrame (p ++ [escapeByte])) bs)
    else .invalidEscape bs

/-- The appends the parser makes, in order: where in the output and which byte (R86). -/
def parseStores (capacity : Nat) : Parser → List Byte → List (Nat × Byte)
  | _, [] => []
  | .idle, b :: bs => if b = startEnd then parseStores capacity (.inFrame []) bs else parseStores capacity .idle bs
  | .inFrame p, b :: bs =>
    if b = startEnd then (if p = [] then parseStores capacity (.inFrame []) bs else [])
    else if b = escapeByte then parseStores capacity (.escaped p) bs
    else if p.length = capacity then []
    else (p.length, b) :: parseStores capacity (.inFrame (p ++ [b])) bs
  | .escaped p, b :: bs =>
    if b = startEnd then (if p = [] then parseStores capacity (.inFrame []) bs else [])
    else if b = escapedStartEnd then
      (if p.length = capacity then [] else (p.length, startEnd) :: parseStores capacity (.inFrame (p ++ [startEnd])) bs)
    else if b = escapedEscape then
      (if p.length = capacity then [] else (p.length, escapeByte) :: parseStores capacity (.inFrame (p ++ [escapeByte])) bs)
    else []

/-- The bytes from address `a` on, `n` of them; none where one is unwritten. -/
def bytesAt (m : Mem) (a : Nat) : Nat → Option (List Byte)
  | 0 => some []
  | n + 1 =>
    match memRead m a, bytesAt m (a + 1) n with
    | some b, some bs => some (b :: bs)
    | _, _ => none

/-- The decoder holds what the parser holds: the frame state, and in a frame the bytes written (R24). -/
def parserMatches (d : Decoder) : Parser → Prop
  | .idle => d.dstate = .idle
  | .inFrame p => d.dstate = .inFrame ∧ d.wp = p.length ∧ bytesAt d.outMem 0 d.wp = some p
  | .escaped p => d.dstate = .inFrameEscaped ∧ d.wp = p.length ∧ bytesAt d.outMem 0 d.wp = some p

/-- The leftover is these bytes (R26). -/
def leftoverIs (d : Decoder) (rest : List Byte) : Prop :=
  d.leftLen = rest.length ∧ bytesAt d.inMem d.leftOff d.leftLen = some rest

/-- The decoder's registers after a transaction whose bytes parsed to this end: DSTATE, WP, the leftover and RES (R79). -/
def parseResult (c : Config) (d : Decoder) : ParseEnd → Prop
  | .more st => parserMatches d st ∧ leftoverIs d [] ∧ d.res = 0#32
  | .frameReady p rest =>
    d.dstate = .idle ∧ d.wp = p.length ∧ bytesAt d.outMem 0 p.length = some p ∧ leftoverIs d rest
    ∧ d.res = BitVec.ofNat 32 p.length
  | .overflow rest => d.dstate = .idle ∧ d.wp = 0 ∧ leftoverIs d rest ∧ d.res = c.errOverflow
  | .invalidEscape rest => d.dstate = .idle ∧ d.wp = 0 ∧ leftoverIs d rest ∧ d.res = c.errInvalidEscape

/-- Several byte writes, in order. -/
def storeAll (m : Mem) (ws : List (Nat × Byte)) : Mem := ws.foldl (fun m w => memWrite m w.1 w.2) m

/-! ## The encoder as a cutter of frames -/

/-- The chunks still to come when `cur` stands in SCRATCH and `payload` is left (R95 to R98). -/
def cutBody (chunkSize : Nat) : List Byte → List Byte → List (List Byte)
  | cur, [] => if chunkSize - cur.length < 1 then [cur, [startEnd]] else [cur ++ [startEnd]]
  | cur, b :: bs =>
    if chunkSize - cur.length < 2 then cur :: cutBody chunkSize (escape b) bs
    else cutBody chunkSize (cur ++ escape b) bs

/-- The chunks of a payload, in flush order. -/
def chunksOf (chunkSize : Nat) (payload : List Byte) : List (List Byte) := cutBody chunkSize [startEnd] payload

/-- The chunks a running ENCODE still presents once the flush it waits in succeeds, and the later ones with it (R95 to R99). -/
def chunksToCome (c : Config) (e : Encoder) : List (List Byte) :=
  match e.wait with
  | none => []
  | some .body =>
    match bytesAt e.payMem e.ej (e.len - e.ej) with
    | some (b :: bs) => cutBody c.chunkSize (escape b) bs
    | _ => []
  | some .closing => [[startEnd]]
  | some .final => []

/-- An answer of the sink, to whichever flush. -/
def isSinkAnswer : Input → Bool
  | .sinkAnswer _ _ => true
  | _ => false

/-- Successful answers of the sink to the `k` flushes after flush number `n`. -/
def okAnswers (n : Nat) : Nat → List Input
  | 0 => []
  | k + 1 => .sinkAnswer (n + 1) .ok :: okAnswers (n + 1) k

/-! ## The host's loop -/

/-- What the host sees of one non-zero result: RES, and for a frame the bytes of `OUT_MEM[0..n)` (R89). -/
structure HostEvent where
  res : Word
  payload : Option (List Byte)
deriving DecidableEq, Repr

/-- The event of a result, none for NeedMoreData. -/
def eventOf (s : State) : List HostEvent :=
  if s.dec.res = 0#32 then []
  else if s.dec.res.msb then [{ res := s.dec.res, payload := none }]
  else [{ res := s.dec.res, payload := bytesAt s.dec.outMem 0 s.dec.res.toNat }]

/-- The next state of a meaning, if there is one. -/
def nextOf : StepResult → Option State
  | .next s => some s
  | .fault _ => none
  | .refused _ => none

/-- The host writes a chunk to IN_MEM from address `a` on (R41), byte by byte. -/
def stageChunk : List Byte → Nat → State → Option State
  | [], _, s => some s
  | b :: bs, a, s =>
    match nextOf (memWriteAccess .inMem a b s) with
    | some t => stageChunk bs (a + 1) t
    | none => none

/-- DRAIN while the last result was non-zero (R89), the tick source giving one value of the list to each. None where the list
runs out, a command stops, or a timeout test fires. -/
def drainLoop : List Nat → State → Option (List HostEvent × List Nat × State)
  | [], s => if s.dec.res = 0#32 then some ([], [], s) else none
  | t :: ts, s =>
    if s.dec.res = 0#32 then some ([], t :: ts, s)
    else if s.dec.leftLen ≠ 0 ∧ timedOut s.cfg (tickNow (s.setTick t)) s.dec.lastT then none
    else
      match nextOf (exec .drain (s.setTick t)) with
      | none => none
      | some u =>
        match drainLoop ts u with
        | none => none
        | some (es, ts', v) => some (eventOf u ++ es, ts', v)

/-- "call until `0`, draining leftovers between calls" (R89): each chunk staged, PROCESSed and drained, with the events seen.
None where the ticks run out, a command stops, or a timeout test fires. -/
def hostLoop : List (List Byte) → List Nat → State → Option (List HostEvent × State)
  | [], _, s => some ([], s)
  | _ :: _, [], _ => none
  | c :: cs, t :: ts, s =>
    match stageChunk c 0 s with
    | none => none
    | some u =>
      if timedOut u.cfg (tickNow (u.setTick t)) u.dec.lastT then none
      else
        match nextOf (exec (.process (BitVec.ofNat 24 c.length)) (u.setTick t)) with
        | none => none
        | some v =>
          match drainLoop ts v with
          | none => none
          | some (es, ts', x) =>
            match hostLoop cs ts' x with
            | none => none
            | some (es', y) => some (eventOf v ++ es ++ es', y)

end Sys2Proof.Machine
end

