-- ==== Sys2Proof/Certificates/Slice0/Obligations.lean ====
section
/-! DEFINITION. The statements for the provers, in the order of OBLIGATIONS.json. -/

open Sys2Proof Sys2Proof.Machine

/-! ## Encoding -/

/-- Derived from R57, R60, R61: decoding the word of a well-formed instruction gives it back, in every DSTATE in which its row
is read and for every operand. -/
def Obligations.DecodeEncodeAgree : Prop :=
  ∀ (i : Instr) (d : DState), i.wellFormed = true → i.readIn d = true → decode d (encode i) = .ok i

/-- Derived from R57, R60, R61, R63: every word has one meaning. What a word decodes to is well-formed, is read in that DSTATE,
and encodes to that word; two words with the same instruction in any DSTATE are the same word. -/
def Obligations.EveryWordHasOneMeaning : Prop :=
  ∀ (d : DState) (c : CodeWord) (i : Instr), decode d c = .ok i →
    encode i = c ∧ i.wellFormed = true ∧ i.readIn d = true

/-- R57: the rows of the byte-class table, each state's from top to bottom. -/
def Obligations.ByteClassTable : Prop :=
  decodeWire .idle 0xC0#8 = .start
  ∧ (∀ b, b ≠ 0xC0#8 → decodeWire .idle b = .skip b)
  ∧ decodeWire .inFrame 0xC0#8 = .endFrame
  ∧ decodeWire .inFrameEscaped 0xC0#8 = .endFrame
  ∧ decodeWire .inFrameEscaped 0xDC#8 = .escEnd
  ∧ decodeWire .inFrameEscaped 0xDD#8 = .escEsc
  ∧ (∀ b, b ≠ 0xC0#8 → b ≠ 0xDC#8 → b ≠ 0xDD#8 → decodeWire .inFrameEscaped b = .badEsc b)
  ∧ decodeWire .inFrame 0xDB#8 = .esc
  ∧ (∀ b, b ≠ 0xC0#8 → b ≠ 0xDB#8 → decodeWire .inFrame b = .data b)

/-- Command words written out bit by bit from R60 and R61 (95_test_vectors.md section 2) decode to their commands, and two wire bytes,
written out from R57 (95_test_vectors.md section 5), to their byte classes. -/
def Obligations.WrittenOutWordsDecode : Prop :=
  decode .idle (.decCmd 0b00000000000000000000000000000001#32) = .ok .init
  ∧ decode .idle (.decCmd 0b00000000000000000000000000000010#32) = .ok .reset
  ∧ decode .idle (.decCmd 0b00000000000000000000010100000011#32) = .ok (.process 5#24)
  ∧ decode .idle (.decCmd 0b00000000000000000000000000000100#32) = .ok .drain
  ∧ decode .idle (.encCmd 0b00000000000000000000011000010000#32) = .ok (.encode 6#24)
  ∧ decode .inFrame (.wire 0b11011011#8) = .ok .esc
  ∧ decode .inFrame (.wire 0b11011100#8) = .ok (.data 0b11011100#8)

/-- R63: the reserved command words are refused with F_RESERVED_CMD. The words are told apart by OP, `w % 256`, and LEN, `w / 256`
(R60). A write to ENC_CMD while ENC_BUSY = 1 is F_BUSY whatever the word (R101), so the ENC_CMD half is stated for ENC_BUSY = 0. -/
def Obligations.ReservedCommandsRefused : Prop :=
  ∀ (s : State) (w : Word) (rest : List Input), configValid s.cfg = true → betweenCommands s →
    (s.inputs = .access (.regWrite .decoder 0 0 4 w) :: rest →
      (w.toNat % 256 ∉ [1, 2, 3, 4] ∨ (w.toNat % 256 ∈ [1, 2, 4] ∧ w.toNat / 256 ≠ 0)) →
      step s = .fault .reservedCmd)
    ∧ (s.inputs = .access (.regWrite .encoder 0 0 4 w) :: rest → s.enc.busy = false → w.toNat % 256 ≠ 16 →
      step s = .fault .reservedCmd)

/-! ## The step -/

/-- A step runs the decoded instruction. A word written to a command register that decodes to an instruction (R35, R61) is run with
that input taken and nothing else around it. The third clause is the model's reading (log 3, DEDUCED), not a rule: a step on an open
window runs the wire byte at its cursor, read in the present DSTATE (R57); R14 and R49 give the atomic transaction alone. -/
def Obligations.StepRunsDecodedInstruction : Prop :=
  ∀ (s : State) (i : Instr), configValid s.cfg = true →
    (∀ w rest, betweenCommands s → s.inputs = .access (.regWrite .decoder 0 0 4 w) :: rest →
      decode s.dec.dstate (.decCmd w) = .ok i → step s = exec i { s with inputs := rest })
    ∧ (∀ w rest, betweenCommands s → s.inputs = .access (.regWrite .encoder 0 0 4 w) :: rest →
      decode s.dec.dstate (.encCmd w) = .ok i → step s = exec i { s with inputs := rest })
    ∧ (∀ (w : Window) (b : Byte), s.dec.window = some w → w.pos < w.len → w.base + w.pos < s.cfg.inMemSize →
      memRead s.dec.inMem (w.base + w.pos) = some b → decode s.dec.dstate (.wire b) = .ok i → step s = exec i s)

/-- R114: "A configuration that breaks a range of 00_scope.md rules R7 to R13 is refused", range by range. -/
def Obligations.ConfigurationOutOfRangeRefused : Prop :=
  ∀ s : State,
    (s.cfg.capacity = 0 ∨ 2 ^ 31 - 1 < s.cfg.capacity ∨ s.cfg.chunkSize < 3 ∨ 2 ^ 24 - 1 < s.cfg.chunkSize
      ∨ s.cfg.wTick = 0 ∨ 2 ^ s.cfg.wTick - 1 < s.cfg.inactivityTimeout
      ∨ s.cfg.inMemSize = 0 ∨ 2 ^ 24 - 1 < s.cfg.inMemSize ∨ 2 ^ 24 - 1 < s.cfg.payMemSize
      ∨ 0 ≤ s.cfg.errOverflow.toInt ∨ 0 ≤ s.cfg.errInvalidEscape.toInt ∨ s.cfg.errOverflow = s.cfg.errInvalidEscape) →
    step s = .refused .badConfiguration

/-- Derived from R21 and R38 ("as configured; not changed by any reset"): no step changes the configuration. The other two clauses are
the model's choice (log 8, DESIGN CHOICE): the record of words returned to the host and of chunks presented only grows, hardware
reset too leaves it. -/
def Obligations.ConfigurationAndOutputsAreKept : Prop :=
  ∀ s t : State, step s = .next t →
    t.cfg = s.cfg ∧ s.hostOut <+: t.hostOut ∧ s.sinkOut <+: t.sinkOut

/-- The model's reading of R14 and R49 (log 3): from a state between two commands every step ends between two commands, so no input
ever meets an open transaction. -/
def Obligations.CommandsAreAtomic : Prop :=
  ∀ s t : State, betweenCommands s → step s = .next t → betweenCommands t

/-- R14, R79 (log 3): taking the bytes of an open window one step at a time gives the state that the atomic transaction gives,
or stops as it stops. Stated with no input waiting, since the steps after the window closes take inputs. -/
def Obligations.BytewiseStepsGiveTheTransaction : Prop :=
  ∀ (s : State) (base len t : Nat), configValid s.cfg = true → s.inputs = [] →
    runSteps (len + 1) (openWindow base len t s) = processWindow base len t s

/-! ## Reset and invariant -/

/-- R38: what hardware reset leaves, register by register and memory by memory, from any state; and the reset input does it. -/
def Obligations.HardwareResetValues : Prop :=
  ∀ (s : State) (rest : List Input), configValid s.cfg = true → betweenCommands s → s.inputs = .hwReset :: rest →
    ∃ t, step s = .next t
      ∧ t.dec.dstate = .idle ∧ t.dec.wp = 0 ∧ t.dec.leftOff = 0 ∧ t.dec.leftLen = 0 ∧ t.dec.lastT = 0 ∧ t.dec.res = 0#32
      ∧ (∀ a, memRead t.dec.inMem a = none) ∧ (∀ a, memRead t.dec.outMem a = none)
      ∧ t.enc.busy = false ∧ t.enc.epos = 0 ∧ t.enc.ej = 0 ∧ t.enc.res = false ∧ t.enc.sendErr = 0
      ∧ (∀ a, memRead t.enc.payMem a = none) ∧ (∀ a, memRead t.enc.scratch a = none)
      ∧ t.cfg = s.cfg

/-- Derived from R38: the invariant holds right after reset. -/
def Obligations.ResetMeetsInvariant : Prop := State.reset.Inv

/-- Derived from R24, R26, R27, R32, R39, R64: every step keeps the invariant, from every state that meets it. -/
def Obligations.StepKeepsInvariant : Prop := ∀ s t : State, s.Inv → step s = .next t → t.Inv

/-! ## Control commands -/

/-- R71, R72, R73: INIT and RESET clear DSTATE, WP and the leftover and change nothing else: no memory byte, LAST_T, RES, encoder
register or configuration. -/
def Obligations.InitAndResetClearFrameState : Prop :=
  ∀ s : State,
    exec .init s = .next { s with dec := { s.dec with wp := 0, dstate := .idle, leftOff := 0, leftLen := 0 } }
    ∧ exec .reset s = .next { s with dec := { s.dec with wp := 0, dstate := .idle, leftOff := 0, leftLen := 0 } }

/-! ## Wire bytes -/

/-- R80: START and SKIP, with all they leave unchanged. -/
def Obligations.IdleBytesStartOrAreIgnored : Prop :=
  ∀ (s : State) (w : Window), s.dec.window = some w →
    exec .start s
        = .next { s with dec := { s.dec with dstate := .inFrame, wp := 0, window := some { w with pos := w.pos + 1 } } }
    ∧ ∀ b, exec (.skip b) s = .next { s with dec := { s.dec with window := some { w with pos := w.pos + 1 } } }

/-- R81: END. With WP = 0 the frame search restarts; with WP > 0 the frame is complete, the leftover is what follows, RES is WP. -/
def Obligations.EndRestartsOrCompletesTheFrame : Prop :=
  ∀ (s : State) (w : Window), s.dec.window = some w →
    (s.dec.wp = 0 → exec .endFrame s
      = .next { s with dec := { s.dec with dstate := .inFrame, window := some { w with pos := w.pos + 1 } } })
    ∧ (0 < s.dec.wp → exec .endFrame s
      = .next { s with dec := { s.dec with
          dstate := .idle
          leftOff := if w.pos + 1 < w.len then w.base + w.pos + 1 else 0
          leftLen := w.len - (w.pos + 1)
          res := BitVec.ofNat 32 s.dec.wp
          window := none } })

/-- R82: ESC moves to IN_FRAME_ESCAPED; "WP and OUT_MEM are unchanged, and no overflow test is made". -/
def Obligations.EscapeByteArmsTheEscape : Prop :=
  ∀ (s : State) (w : Window), s.dec.window = some w →
    exec .esc s
      = .next { s with dec := { s.dec with dstate := .inFrameEscaped, window := some { w with pos := w.pos + 1 } } }

/-- R83 with the append of R86: below CAPACITY the escaped successor writes its decoded byte to OUT_MEM at WP and nothing else of
OUT_MEM; with `WP == CAPACITY` it is the error Overflow. -/
def Obligations.EscapedSuccessorAppendsDecodedByte : Prop :=
  ∀ (s : State) (w : Window) (i : Instr) (d : Byte), s.dec.window = some w →
    (i = .escEnd ∧ d = 0xC0#8 ∨ i = .escEsc ∧ d = 0xDB#8) →
    (s.dec.wp < s.cfg.capacity →
      ∃ m, exec i s
          = .next { s with dec := { s.dec with
              dstate := .inFrame, outMem := m, wp := s.dec.wp + 1, window := some { w with pos := w.pos + 1 } } }
        ∧ memRead m s.dec.wp = some d ∧ ∀ a, a ≠ s.dec.wp → memRead m a = memRead s.dec.outMem a)
    ∧ (s.dec.wp = s.cfg.capacity →
      exec i s = .next { s with dec := { s.dec with
        dstate := .idle
        wp := 0
        leftOff := if w.pos + 1 < w.len then w.base + w.pos + 1 else 0
        leftLen := w.len - (w.pos + 1)
        res := s.cfg.errOverflow
        window := none } })

/-- R85 with the append of R86: below CAPACITY, DATA writes its byte to OUT_MEM at WP and nothing else of OUT_MEM; with
`WP == CAPACITY` it is the error Overflow. -/
def Obligations.DataByteIsAppended : Prop :=
  ∀ (s : State) (w : Window) (b : Byte), s.dec.window = some w →
    (s.dec.wp < s.cfg.capacity →
      ∃ m, exec (.data b) s
          = .next { s with dec := { s.dec with
              outMem := m, wp := s.dec.wp + 1, window := some { w with pos := w.pos + 1 } } }
        ∧ memRead m s.dec.wp = some b ∧ ∀ a, a ≠ s.dec.wp → memRead m a = memRead s.dec.outMem a)
    ∧ (s.dec.wp = s.cfg.capacity →
      exec (.data b) s = .next { s with dec := { s.dec with
        dstate := .idle
        wp := 0
        leftOff := if w.pos + 1 < w.len then w.base + w.pos + 1 else 0
        leftLen := w.len - (w.pos + 1)
        res := s.cfg.errOverflow
        window := none } })

/-- R84: a bad escape is the error InvalidEscapeSequence, whatever WP is; "OUT_MEM keeps the bytes appended so far". -/
def Obligations.BadEscapeIsAnError : Prop :=
  ∀ (s : State) (w : Window) (b : Byte), s.dec.window = some w →
    exec (.badEsc b) s = .next { s with dec := { s.dec with
        dstate := .idle
        wp := 0
        leftOff := if w.pos + 1 < w.len then w.base + w.pos + 1 else 0
        leftLen := w.len - (w.pos + 1)
        res := s.cfg.errInvalidEscape
        window := none } }

/-- The model's choice (log 15): an append with WP beyond CAPACITY, which no run reaches, stops with F_MEM_RANGE. -/
def Obligations.AppendBeyondCapacityStops : Prop :=
  ∀ (s : State) (i : Instr), s.cfg.capacity < s.dec.wp → (i = .escEnd ∨ i = .escEsc ∨ ∃ b, i = .data b) →
    exec i s = .fault .memRange

/-! ## PROCESS and DRAIN -/

/-- R74, R111: the three tests of PROCESS, in their order. -/
def Obligations.ProcessStopsOnBrokenHostDuty : Prop :=
  ∀ (s : State) (len : Len),
    (s.cfg.inMemSize < len.toNat → exec (.process len) s = .fault .memRange)
    ∧ (len.toNat ≤ s.cfg.inMemSize → 0 < s.dec.leftLen → exec (.process len) s = .fault .leftoverNotDrained)
    ∧ (len.toNat ≤ s.cfg.inMemSize → s.dec.leftLen = 0 → (∃ a, a < len.toNat ∧ memRead s.dec.inMem a = none) →
      exec (.process len) s = .fault .unwrittenRead)

/-- R17: elapsed time is the unsigned W_TICK-bit difference: the number below 2^W_TICK that brings `last` to `now`, modulo 2^W_TICK.
So a gap behaves as the gap modulo 2^W_TICK (R128). -/
def Obligations.ElapsedIsModularDifference : Prop :=
  ∀ (wTick now last : Nat),
    elapsed wTick now last < 2 ^ wTick
    ∧ (last + elapsed wTick now last) % 2 ^ wTick = now % 2 ^ wTick
    ∧ ∀ k, elapsed wTick (now + k * 2 ^ wTick) last = elapsed wTick now last

/-- R77, R78 on a PROCESS of no bytes (R74's corner case): the timeout test resets exactly when the elapsed time is above
INACTIVITY_TIMEOUT, LAST_T takes the tick either way, and the result is NeedMoreData. -/
def Obligations.EmptyProcessRunsOnlyTheTimeoutTest : Prop :=
  ∀ s : State, s.dec.leftLen = 0 →
    (elapsed s.cfg.wTick (tickNow s) s.dec.lastT ≤ s.cfg.inactivityTimeout →
      exec (.process 0#24) s = .next { s with dec := { s.dec with
        lastT := s.tick % 2 ^ s.cfg.wTick, res := 0#32, window := none } })
    ∧ (s.cfg.inactivityTimeout < elapsed s.cfg.wTick (tickNow s) s.dec.lastT →
      exec (.process 0#24) s = .next { s with dec := { s.dec with
        dstate := .idle, wp := 0, leftOff := 0, leftLen := 0
        lastT := s.tick % 2 ^ s.cfg.wTick, res := 0#32, window := none } })

/-- R75: a DRAIN with an empty leftover writes RES = 0; "nothing else changes". -/
def Obligations.EmptyDrainReturnsZero : Prop :=
  ∀ s : State, s.dec.leftLen = 0 → exec .drain s = .next { s with dec := { s.dec with res := 0#32 } }

/-- R74, R79, with the byte rules R80 to R87: PROCESS completes; its result, DSTATE, WP and leftover are those of parsing the chunk
from the frame state the decoder holds, or from IDLE if the timeout fired; OUT_MEM takes exactly the appends; LAST_T takes the tick;
a leftover ends where the chunk ends; where no delimiter came in IDLE, WP stays, but for a timeout's 0; IN_MEM and all outside the
decoder stay. -/
def Obligations.ProcessParsesTheChunk : Prop :=
  ∀ (s : State) (len : Len) (bs : List Byte) (st : Parser),
    s.Inv → s.dec.leftLen = 0 → len.toNat ≤ s.cfg.inMemSize → bytesAt s.dec.inMem 0 len.toNat = some bs →
    parserMatches s.dec st →
    ∃ d, exec (.process len) s = .next { s with dec := d }
      ∧ parseResult s.cfg d
          (parse s.cfg.capacity (if timedOut s.cfg (tickNow s) s.dec.lastT then .idle else st) bs)
      ∧ d.outMem = storeAll s.dec.outMem
          (parseStores s.cfg.capacity (if timedOut s.cfg (tickNow s) s.dec.lastT then .idle else st) bs)
      ∧ d.leftOff = (if d.leftLen = 0 then 0 else len.toNat - d.leftLen)
      ∧ (d.res = 0#32 → d.dstate = .idle → d.wp = if timedOut s.cfg (tickNow s) s.dec.lastT then 0 else s.dec.wp)
      ∧ d.lastT = tickNow s ∧ d.inMem = s.dec.inMem ∧ d.window = none

/-- R75, R79: DRAIN of a non-empty leftover completes, and parses the leftover's bytes as PROCESS parses a chunk; a leftover it leaves
ends where the old one ended. -/
def Obligations.DrainParsesTheLeftover : Prop :=
  ∀ (s : State) (bs : List Byte) (st : Parser),
    s.Inv → 0 < s.dec.leftLen → leftoverIs s.dec bs → parserMatches s.dec st →
    ∃ d, exec .drain s = .next { s with dec := d }
      ∧ parseResult s.cfg d
          (parse s.cfg.capacity (if timedOut s.cfg (tickNow s) s.dec.lastT then .idle else st) bs)
      ∧ d.outMem = storeAll s.dec.outMem
          (parseStores s.cfg.capacity (if timedOut s.cfg (tickNow s) s.dec.lastT then .idle else st) bs)
      ∧ d.leftOff = (if d.leftLen = 0 then 0 else s.dec.leftOff + s.dec.leftLen - d.leftLen)
      ∧ (d.res = 0#32 → d.dstate = .idle → d.wp = if timedOut s.cfg (tickNow s) s.dec.lastT then 0 else s.dec.wp)
      ∧ d.lastT = tickNow s ∧ d.inMem = s.dec.inMem ∧ d.window = none

/-- R26: "Whenever `LEFT_LEN > 0`, `LEFT_OFF + LEFT_LEN` equals the length of the last PROCESS input": PROCESS makes it so, and a DRAIN
that leaves a leftover keeps the end of the window. -/
def Obligations.LeftoverIsASuffixOfTheInput : Prop :=
  ∀ s t : State,
    (∀ len : Len, exec (.process len) s = .next t → 0 < t.dec.leftLen → t.dec.leftOff + t.dec.leftLen = len.toNat)
    ∧ (exec .drain s = .next t → 0 < t.dec.leftLen →
      t.dec.leftOff + t.dec.leftLen = s.dec.leftOff + s.dec.leftLen)

/-- R27: "A result of 0 (NeedMoreData) always leaves `LEFT_LEN = 0`", for PROCESS and DRAIN from every state of the invariant. -/
def Obligations.NeedMoreDataLeavesNoLeftover : Prop :=
  ∀ (s t : State) (len : Len), s.Inv →
    (exec (.process len) s = .next t ∨ exec .drain s = .next t) → t.dec.res = 0#32 → t.dec.leftLen = 0

/-- R28, R129: LAST_T is written by PROCESS and by a non-empty DRAIN, with the tick sampled, and by no other instruction. -/
def Obligations.LastTickWrittenOnlyByProcessing : Prop :=
  ∀ (i : Instr) (s t : State), exec i s = .next t →
    t.dec.lastT =
      match i with
      | .process _ => tickNow s
      | .drain => if s.dec.leftLen = 0 then s.dec.lastT else tickNow s
      | _ => s.dec.lastT

/-- R77, R123: in IDLE, whether the timeout fires at a PROCESS or a non-empty DRAIN cannot be seen: two states that differ in LAST_T
alone go to states that differ at most in WP, and in WP only while DSTATE is IDLE, where no rule reads it (R25). A DRAIN's leftover is
no obstacle: it is saved and cleared before the timeout test (R75). -/
def Obligations.IdleTimeoutIsInvisible : Prop :=
  ∀ (s t : State) (i : Instr) (x : Nat), s.Inv → s.dec.dstate = .idle →
    ((∃ len, i = .process len) ∨ i = .drain ∧ 0 < s.dec.leftLen) → exec i s = .next t →
    ∃ u, exec i { s with dec := { s.dec with lastT := x } } = .next u
      ∧ { u with dec := { u.dec with wp := t.dec.wp } } = t
      ∧ (t.dec.dstate ≠ .idle → u = t)

/-- R91: from IDLE, or from a frame state with WP = 0, a PROCESS of one or more bytes 0xC0 leaves IN_FRAME with WP = 0 and returns
NeedMoreData. -/
def Obligations.DelimitersCoalesce : Prop :=
  ∀ (s : State) (len : Len), s.Inv → s.dec.leftLen = 0 → 1 ≤ len.toNat → len.toNat ≤ s.cfg.inMemSize →
    (∀ a, a < len.toNat → memRead s.dec.inMem a = some 0xC0#8) → (s.dec.dstate = .idle ∨ s.dec.wp = 0) →
    exec (.process len) s = .next { s with dec := { s.dec with
      dstate := .inFrame, wp := 0, leftOff := 0, leftLen := 0, lastT := tickNow s, res := 0#32, window := none } }

/-- R89: under the host's duties and with no timeout firing, "call until `0`, draining leftovers between calls" ends. Ticks, each
within the timeout of LAST_T and of every earlier one, one for each PROCESS and each DRAIN, are enough when there are as many as
chunks and bytes together. -/
def Obligations.HostLoopEnds : Prop :=
  ∀ (s : State) (chunks : List (List Byte)) (ts : List Nat),
    s.Inv → betweenCommands s → s.dec.leftLen = 0 → (∀ c ∈ chunks, c.length ≤ s.cfg.inMemSize) →
    chunks.length + chunks.flatten.length ≤ ts.length →
    (s.dec.lastT :: ts).Pairwise
      (fun earlier later => timedOut s.cfg (later % 2 ^ s.cfg.wTick) (earlier % 2 ^ s.cfg.wTick) = false) →
    ∃ es t, hostLoop chunks ts s = some (es, t) ∧ t.dec.leftLen = 0

/-- R90: the events the host sees do not depend on where the chunk boundaries fall. -/
def Obligations.ChunkBoundariesDoNotMatter : Prop :=
  ∀ (s t u : State) (chunks chunks' : List (List Byte)) (ts ts' : List Nat) (es es' : List HostEvent),
    s.Inv → betweenCommands s → s.dec.leftLen = 0 → chunks.flatten = chunks'.flatten →
    hostLoop chunks ts s = some (es, t) → hostLoop chunks' ts' s = some (es', u) → es = es'

/-- R106, the round trip: a decoder with no partial frame and no leftover, fed `frame(P)` in any chunking with no timeout, returns
FrameReady(N) with P and ends in IDLE; for N = 0 no frame, ending in IN_FRAME with WP = 0; for N above CAPACITY, Overflow. -/
def Obligations.DecodingAnEncodedPayload : Prop :=
  ∀ (s t : State) (payload : List Byte) (chunks : List (List Byte)) (ts : List Nat) (es : List HostEvent),
    s.Inv → betweenCommands s → s.dec.leftLen = 0 → (s.dec.dstate = .idle ∨ s.dec.wp = 0) →
    chunks.flatten = frame payload → hostLoop chunks ts s = some (es, t) →
    t.dec.leftLen = 0
    ∧ (1 ≤ payload.length → payload.length ≤ s.cfg.capacity →
      es = [{ res := BitVec.ofNat 32 payload.length, payload := some payload }] ∧ t.dec.dstate = .idle)
    ∧ (payload = [] → es = [] ∧ t.dec.dstate = .inFrame ∧ t.dec.wp = 0)
    ∧ (s.cfg.capacity < payload.length → es = [{ res := s.cfg.errOverflow, payload := none }])

/-! ## ENCODE -/

/-- R93, R101, R111: the three tests of ENCODE, in their order. -/
def Obligations.EncodeStopsOnBrokenHostDuty : Prop :=
  ∀ (s : State) (len : Len),
    (s.enc.busy = true → exec (.encode len) s = .fault .busy)
    ∧ (s.enc.busy = false → s.cfg.payMemSize < len.toNat → exec (.encode len) s = .fault .memRange)
    ∧ (s.enc.busy = false → len.toNat ≤ s.cfg.payMemSize → (∃ a, a < len.toNat ∧ memRead s.enc.payMem a = none) →
      exec (.encode len) s = .fault .unwrittenRead)

/-- R93, R95, R99: ENCODE completes its first stretch: it is busy and waits in a flush, the sink has been presented the first chunk of
the payload's frame, the other chunks are to come, that chunk stands in `SCRATCH[0..EPOS)`, and the decoder, PAY_MEM, ENC_RES, SEND_ERR and SCRATCH from EPOS on stay. -/
def Obligations.EncodePresentsTheFirstChunk : Prop :=
  ∀ (s : State) (len : Len) (payload : List Byte),
    configValid s.cfg = true → s.enc.busy = false → len.toNat ≤ s.cfg.payMemSize →
    bytesAt s.enc.payMem 0 len.toNat = some payload →
    ∃ e chunk, exec (.encode len) s = .next { s with enc := e, sinkOut := s.sinkOut ++ [chunk] }
      ∧ chunksOf s.cfg.chunkSize payload = chunk :: chunksToCome s.cfg e
      ∧ e.busy = true ∧ e.wait ≠ none ∧ e.len = len.toNat ∧ e.epos = chunk.length
      ∧ bytesAt e.scratch 0 e.epos = some chunk
      ∧ (∀ a, e.epos ≤ a → memRead e.scratch a = memRead s.enc.scratch a)
      ∧ e.payMem = s.enc.payMem ∧ e.res = s.enc.res ∧ e.sendErr = s.enc.sendErr

/-- R104, first half, with R94 to R99: if every flush of an ENCODE succeeds, the sink has been presented exactly the chunks of the
payload, the ENCODE ends Ok, and nothing outside the encoder changes. Run by `step`, from the command write to the last answer, the
answers one after another; EncodeGoesOnAmongOtherInputs lets other inputs stand between them. -/
def Obligations.EncodeSendsTheWholeFrame : Prop :=
  ∀ (s : State) (len : Len) (payload : List Byte) (rest : List Input),
    s.Inv → betweenCommands s → s.enc.busy = false → len.toNat ≤ s.cfg.payMemSize →
    bytesAt s.enc.payMem 0 len.toNat = some payload →
    s.inputs = .access (.regWrite .encoder 0 0 4 (commandWord 0x10#8 len))
      :: (okAnswers s.sinkOut.length (chunksOf s.cfg.chunkSize payload).length ++ rest) →
    ∃ e, runSteps ((chunksOf s.cfg.chunkSize payload).length + 1) s
        = .next { s with enc := e, inputs := rest, sinkOut := s.sinkOut ++ chunksOf s.cfg.chunkSize payload }
      ∧ e.busy = false ∧ e.res = false ∧ e.sendErr = s.enc.sendErr ∧ e.payMem = s.enc.payMem

/-- R100, R104 second half: if flush j + 1 is the first to fail, with error value v, the sink has been presented exactly the first
j + 1 chunks, and the ENCODE ends with ENC_RES = 1, SEND_ERR = v as a W_ERR-bit value, ENC_BUSY = 0. The answers
stand one after another, as above; `draws`, the model's own field (log 9), counts the write of SEND_ERR. -/
def Obligations.SinkFailureEndsTheEncode : Prop :=
  ∀ (s : State) (len : Len) (payload : List Byte) (j v : Nat) (rest : List Input),
    s.Inv → betweenCommands s → s.enc.busy = false → len.toNat ≤ s.cfg.payMemSize →
    bytesAt s.enc.payMem 0 len.toNat = some payload → j < (chunksOf s.cfg.chunkSize payload).length →
    s.inputs = .access (.regWrite .encoder 0 0 4 (commandWord 0x10#8 len))
      :: (okAnswers s.sinkOut.length j ++ .sinkAnswer (s.sinkOut.length + j + 1) (.fail v) :: rest) →
    ∃ e, runSteps (j + 2) s
        = .next { s with
            enc := e, inputs := rest, sinkOut := s.sinkOut ++ (chunksOf s.cfg.chunkSize payload).take (j + 1)
            draws := s.draws + 1 }
      ∧ e.busy = false ∧ e.res = true ∧ e.sendErr = v % 2 ^ s.cfg.wErr ∧ e.payMem = s.enc.payMem

/-- R55, R56, R104: the chunks of a payload, joined, are `frame(P)`, whose length is `2 + N +` the number of its bytes that are 0xC0 or 0xDB. -/
def Obligations.ChunksJoinToTheFrame : Prop :=
  ∀ (chunkSize : Nat) (payload : List Byte),
    (chunksOf chunkSize payload).flatten = frame payload
    ∧ (frame payload).length
        = 2 + payload.length + payload.countP (fun b => b == 0xC0#8 || b == 0xDB#8)

/-- R105, R66: every chunk but the last has CHUNK_SIZE - 1 or CHUNK_SIZE bytes, the last 1 to CHUNK_SIZE; a frame that fits is one chunk. -/
def Obligations.ChunkLengths : Prop :=
  ∀ (chunkSize : Nat) (payload : List Byte), 3 ≤ chunkSize →
    ∃ front last, chunksOf chunkSize payload = front ++ [last]
      ∧ (∀ c ∈ front, c.length = chunkSize - 1 ∨ c.length = chunkSize)
      ∧ 1 ≤ last.length ∧ last.length ≤ chunkSize
      ∧ ((frame payload).length ≤ chunkSize → chunksOf chunkSize payload = [frame payload])

/-- R102: while the encoder waits in a flush, any step that is neither an answer to that flush nor a hardware reset leaves every
register and memory of the encoder as it is, ENC_BUSY = 1 with them. -/
def Obligations.SilentSinkLeavesTheEncoderWaiting : Prop :=
  ∀ s t : State, s.Inv → s.enc.busy = true → step s = .next t →
    (∀ k a rest, s.inputs = .sinkAnswer k a :: rest → k ≠ s.sinkOut.length) →
    (∀ rest, s.inputs ≠ .hwReset :: rest) →
    t.enc = s.enc ∧ t.sinkOut = s.sinkOut

/-- R121: "a sink answer that arrives after the reset is ignored": after a hardware reset, and at any time when no flush waits or
another flush than the one answered waits, an answer changes nothing (the numbering of flushes is the model's, log 7). -/
def Obligations.StaleSinkAnswersAreIgnored : Prop :=
  ∀ (s : State) (k : Nat) (a : SinkAnswer) (rest : List Input), configValid s.cfg = true → betweenCommands s →
    s.inputs = .sinkAnswer k a :: rest →
    ((s.enc.wait = none ∨ k ≠ s.sinkOut.length) → step s = .next { s with inputs := rest })
    ∧ sinkAnswer k a (hardwareReset s) = .next (hardwareReset s)

/-! ## The two blocks -/

/-- R6: "No state of one is read or written by an operation of the other": a decoder instruction leaves the encoder and the sink's
chunks alone and runs the same whatever the encoder holds; ENCODE the same with the decoder. -/
def Obligations.DecoderAndEncoderAreIndependent : Prop :=
  ∀ (i : Instr) (s : State),
    ((∀ len, i ≠ .encode len) →
      (∀ e, exec i (s.setEnc e) = andThen (exec i s) fun t => .next (t.setEnc e))
      ∧ ∀ t, exec i s = .next t → t.enc = s.enc ∧ t.sinkOut = s.sinkOut ∧ sameOutside s t)
    ∧ ((∃ len, i = .encode len) →
      (∀ d, exec i (s.setDec d) = andThen (exec i s) fun t => .next (t.setDec d))
      ∧ ∀ t, exec i s = .next t → t.dec = s.dec ∧ sameOutside s t)

/-- R39, R40: what writes which memory. No instruction writes IN_MEM or PAY_MEM; INIT, RESET and ENCODE do not write OUT_MEM, and no
decoder instruction writes SCRATCH; and a byte an instruction meets as written stays written. -/
def Obligations.InstructionsWriteOnlyTheirMemory : Prop :=
  ∀ (i : Instr) (s t : State), exec i s = .next t →
    t.dec.inMem = s.dec.inMem ∧ t.enc.payMem = s.enc.payMem
    ∧ ((i = .init ∨ i = .reset ∨ ∃ len, i = .encode len) → t.dec.outMem = s.dec.outMem)
    ∧ ((∀ len, i ≠ .encode len) → t.enc.scratch = s.enc.scratch)
    ∧ (∀ a, memRead s.dec.outMem a ≠ none → memRead t.dec.outMem a ≠ none)
    ∧ (∀ a, memRead s.enc.scratch a ≠ none → memRead t.enc.scratch a ≠ none)

/-- R119: a step of one instance leaves every other instance of the platform as it is, and does to its own what a block alone would do. -/
def Obligations.InstancesDoNotMeet : Prop :=
  ∀ (p q : Platform) (n : Nat) (s : State), p[n]? = some s → platformStep n p = .next q →
    step s = .next (q[n]?.getD s) ∧ q.length = p.length ∧ ∀ k, k ≠ n → q[k]? = p[k]?

/-! ## The host -/

/-- R41, R42: a host byte write to IN_MEM. Beyond the memory F_MEM_RANGE; with a leftover outstanding F_LEFTOVER_CLOBBERED; otherwise that
byte takes the value and no other byte and no register changes. The order of the two tests is the model's (log 11). -/
def Obligations.HostWritesInputMemory : Prop :=
  ∀ (s : State) (a : Nat) (b : Byte) (rest : List Input), configValid s.cfg = true → betweenCommands s →
    s.inputs = .access (.memWrite .inMem a b) :: rest →
    (s.cfg.inMemSize ≤ a → step s = .fault .memRange)
    ∧ (a < s.cfg.inMemSize → 0 < s.dec.leftLen → step s = .fault .leftoverClobbered)
    ∧ (a < s.cfg.inMemSize → s.dec.leftLen = 0 →
      ∃ m, step s = .next { s with inputs := rest, dec := { s.dec with inMem := m } }
        ∧ memRead m a = some b ∧ ∀ k, k ≠ a → memRead m k = memRead s.dec.inMem k)

/-- R45: a host byte write to PAY_MEM, the same with ENC_BUSY and F_PAYLOAD_CLOBBERED. The order of the two tests is the model's (log 11). -/
def Obligations.HostWritesPayloadMemory : Prop :=
  ∀ (s : State) (a : Nat) (b : Byte) (rest : List Input), configValid s.cfg = true → betweenCommands s →
    s.inputs = .access (.memWrite .payMem a b) :: rest →
    (s.cfg.payMemSize ≤ a → step s = .fault .memRange)
    ∧ (a < s.cfg.payMemSize → s.enc.busy = true → step s = .fault .payloadClobbered)
    ∧ (a < s.cfg.payMemSize → s.enc.busy = false →
      ∃ m, step s = .next { s with inputs := rest, enc := { s.enc with payMem := m } }
        ∧ memRead m a = some b ∧ ∀ k, k ≠ a → memRead m k = memRead s.enc.payMem k)

/-- R44, R40, R49: a host read of OUT_MEM returns the byte and changes nothing of the block; beyond CAPACITY, and for any host write,
F_MEM_RANGE; at a byte never written F_UNWRITTEN_READ. -/
def Obligations.HostReadsOutputMemory : Prop :=
  ∀ (s : State) (a : Nat) (rest : List Input), configValid s.cfg = true → betweenCommands s →
    (s.inputs = .access (.memRead .outMem a) :: rest →
      (s.cfg.capacity ≤ a → step s = .fault .memRange)
      ∧ (a < s.cfg.capacity → memRead s.dec.outMem a = none → step s = .fault .unwrittenRead)
      ∧ ∀ b, a < s.cfg.capacity → memRead s.dec.outMem a = some b →
        step s = .next { s with inputs := rest, hostOut := s.hostOut ++ [b.setWidth 32] })
    ∧ ∀ b, s.inputs = .access (.memWrite .outMem a b) :: rest → step s = .fault .memRange

/-- R36, R48, R49: what a host read of each register returns, with nothing of the block changed. For SEND_ERR with W_ERR above 32, where
R36 gives no value, the word is the model's free value (log 9), whatever it is: the read completes and changes nothing either. -/
def Obligations.HostReadsRegisters : Prop :=
  ∀ (s : State) (rest : List Input), configValid s.cfg = true → betweenCommands s →
    (s.inputs = .access (.regRead .decoder 1 0 4) :: rest →
      step s = .next { s with inputs := rest, hostOut := s.hostOut ++ [s.dec.res] })
    ∧ (s.inputs = .access (.regRead .encoder 1 0 4) :: rest →
      step s = .next { s with inputs := rest, hostOut := s.hostOut ++ [if s.enc.res then 1#32 else 0#32] })
    ∧ (s.inputs = .access (.regRead .encoder 2 0 4) :: rest → s.cfg.wErr ≤ 32 →
      step s = .next { s with inputs := rest, hostOut := s.hostOut ++ [BitVec.ofNat 32 s.enc.sendErr] })
    ∧ (s.inputs = .access (.regRead .encoder 2 0 4) :: rest → 32 < s.cfg.wErr →
      step s = .next { s with inputs := rest, hostOut := s.hostOut ++ [Config.freeWord s.draws] })
    ∧ (s.inputs = .access (.regRead .encoder 3 0 4) :: rest →
      step s = .next { s with inputs := rest, hostOut := s.hostOut ++ [if s.enc.busy then 1#32 else 0#32] })

/-- R36, R35, R48: every other register access is F_REG_ACCESS: a number or a direction not in the table, a partial or a misaligned one.
That a partial or misaligned write to ENC_CMD while ENC_BUSY = 1 is F_REG_ACCESS and not F_BUSY is the model's choice (log 11). -/
def Obligations.OtherRegisterAccessesRefused : Prop :=
  ∀ (s : State) (blk : Block) (num offset size : Nat) (w : Word) (rest : List Input),
    configValid s.cfg = true → betweenCommands s →
    (s.inputs = .access (.regRead blk num offset size) :: rest →
      ¬ (offset = 0 ∧ size = 4 ∧ (blk = .decoder ∧ num = 1 ∨ blk = .encoder ∧ (num = 1 ∨ num = 2 ∨ num = 3))) →
      step s = .fault .regAccess)
    ∧ (s.inputs = .access (.regWrite blk num offset size w) :: rest → ¬ (offset = 0 ∧ size = 4 ∧ num = 0) →
      step s = .fault .regAccess)

/-- R101: a whole write to ENC_CMD while ENC_BUSY = 1 is F_BUSY. That it is so for a reserved word too, where R63 gives F_RESERVED_CMD,
is the model's choice (log 11, DESIGN CHOICE). -/
def Obligations.EncodeCommandWhileBusyRefused : Prop :=
  ∀ (s : State) (w : Word) (rest : List Input), configValid s.cfg = true → betweenCommands s → s.enc.busy = true →
    s.inputs = .access (.regWrite .encoder 0 0 4 w) :: rest → step s = .fault .busy

/-- R67, R121: a new value on the tick port changes nothing else, and with no input the block waits unchanged. -/
def Obligations.WaitingChangesNothing : Prop :=
  ∀ s : State, configValid s.cfg = true → betweenCommands s →
    (s.inputs = [] → step s = .next s)
    ∧ ∀ t rest, s.inputs = .tick t :: rest → step s = .next { s with tick := t, inputs := rest }

/-- The model's reading of R50 (log 13): where the address windows do not overlap, the base address of a memory plus a reaches byte a,
and the base of the registers plus a register's place reaches that register. -/
def Obligations.BusAddressesReachTheirTarget : Prop :=
  ∀ (c : Config) (a : Nat),
    c.decBase + 2 * c.regStride ≤ c.encBase → c.encBase + 4 * c.regStride ≤ c.inMemBase →
    c.inMemBase + c.inMemSize ≤ c.outMemBase → c.outMemBase + c.capacity ≤ c.payMemBase → 4 ≤ c.regStride →
    (a < 2 → busTarget c (c.decBase + a * c.regStride) = some (.register .decoder a 0))
    ∧ (a < 4 → busTarget c (c.encBase + a * c.regStride) = some (.register .encoder a 0))
    ∧ (a < c.inMemSize → busTarget c (c.inMemBase + a) = some (.byte .inMem a))
    ∧ (a < c.capacity → busTarget c (c.outMemBase + a) = some (.byte .outMem a))
    ∧ (a < c.payMemSize → busTarget c (c.payMemBase + a) = some (.byte .payMem a))

/-- R47, R48, in the form of BUS_BINDING that the model chose (log 20): for every binding that carries the four bytes of a register once
each, lane l of transfer j carries the register byte the binding names, no byte is lost, the transfers of a word make the whole register
access, a read returns the transfers of the value read, and any other number or width of transfers is a partial access, F_REG_ACCESS. -/
def Obligations.RegistersAreReachedThroughTheBinding : Prop :=
  ∀ (s : State) (addr num : Nat) (blk : Block) (rest : List Input),
    configValid s.cfg = true → betweenCommands s → carriesWhole s.cfg.busBinding = true →
    busTarget s.cfg addr = some (.register blk num 0) →
    (∀ (w : Word) (j l : Nat), j < transferCount s.cfg.busBinding → l < s.cfg.busBinding.width →
      (transfersOf s.cfg.busBinding w)[j]?.map (byteOf · l)
        = s.cfg.busBinding.lanes[j * s.cfg.busBinding.width + l]?.map (byteOf w))
    ∧ (∀ w, wordOf s.cfg.busBinding (transfersOf s.cfg.busBinding w) = w)
    ∧ (∀ w, s.inputs = .busWrite addr s.cfg.busBinding.width (transfersOf s.cfg.busBinding w) :: rest →
      step s = step { s with inputs := .access (.regWrite blk num 0 4 w) :: rest })
    ∧ (∀ v, s.inputs = .busRead addr s.cfg.busBinding.width (transferCount s.cfg.busBinding) :: rest →
      step { s with inputs := .access (.regRead blk num 0 4) :: rest }
        = .next { s with inputs := rest, hostOut := s.hostOut ++ [v] } →
      step s = .next { s with inputs := rest, hostOut := s.hostOut ++ transfersOf s.cfg.busBinding v })
    ∧ (∀ (width count : Nat) (ts : List Word),
      (width ≠ s.cfg.busBinding.width ∨ count ≠ transferCount s.cfg.busBinding) → ts.length = count →
      (s.inputs = .busRead addr width count :: rest → step s = .fault .regAccess)
      ∧ (s.inputs = .busWrite addr width ts :: rest → step s = .fault .regAccess))

/-- R49: "Reads of RES, ENC_RES, SEND_ERR, ENC_BUSY and OUT_MEM have no side effects and are idempotent": a read that goes on changes
nothing of the block but adds to the words returned, and the same read again returns the same words, whatever W_ERR is. -/
def Obligations.HostReadsAreIdempotent : Prop :=
  ∀ (s t : State) (r : Input) (rest : List Input), betweenCommands s → s.inputs = r :: r :: rest →
    ((∃ blk num offset size, r = .access (.regRead blk num offset size)) ∨ (∃ m a, r = .access (.memRead m a))
      ∨ ∃ addr width count, r = .busRead addr width count) →
    step s = .next t →
    ∃ ws, t = { s with inputs := r :: rest, hostOut := s.hostOut ++ ws }
      ∧ step t = .next { s with inputs := rest, hostOut := s.hostOut ++ ws ++ ws }

/-- The model's choice (log 12): the host has no access to SCRATCH (R46) and none that reads IN_MEM or PAY_MEM (R39), and R113 names no
fault for one; the model stops it with F_MEM_RANGE. -/
def Obligations.OtherMemoryAccessesRefused : Prop :=
  ∀ (s : State) (a : Nat) (b : Byte) (rest : List Input), configValid s.cfg = true → betweenCommands s →
    (s.inputs = .access (.memRead .inMem a) :: rest ∨ s.inputs = .access (.memRead .payMem a) :: rest
      ∨ s.inputs = .access (.memRead .scratch a) :: rest ∨ s.inputs = .access (.memWrite .scratch a b) :: rest) →
    step s = .fault .memRange

/-! ## A running ENCODE -/

/-- R95, R99, R100: from every state of the invariant with a running ENCODE, the sink's answer to the waiting flush makes it go on or end.
After `ok` the next chunk is presented and stands in `SCRATCH[0..EPOS)`, with the later ones still to come; or, where none is to come, the
ENCODE ends Ok. After `fail(v)` it ends with ENC_RES = 1 and SEND_ERR = v. The decoder and all else stay. -/
def Obligations.SinkAnswerMovesTheEncodeOn : Prop :=
  ∀ (s : State) (rest : List Input), s.Inv → betweenCommands s → s.enc.busy = true →
    (s.inputs = .sinkAnswer s.sinkOut.length .ok :: rest →
      (∀ chunk later, chunksToCome s.cfg s.enc = chunk :: later →
        ∃ e, step s = .next { s with inputs := rest, enc := e, sinkOut := s.sinkOut ++ [chunk] }
          ∧ e.busy = true ∧ chunksToCome s.cfg e = later ∧ e.epos = chunk.length ∧ bytesAt e.scratch 0 e.epos = some chunk
          ∧ e.len = s.enc.len ∧ e.payMem = s.enc.payMem ∧ e.res = s.enc.res ∧ e.sendErr = s.enc.sendErr)
      ∧ (chunksToCome s.cfg s.enc = [] →
        step s = .next { s with inputs := rest, enc := { s.enc with res := false, busy := false, wait := none } }))
    ∧ ∀ v, s.inputs = .sinkAnswer s.sinkOut.length (.fail v) :: rest →
      step s = .next { s with
        inputs := rest
        enc := { s.enc with res := true, sendErr := v % 2 ^ s.cfg.wErr, busy := false, wait := none }
        draws := s.draws + 1 }

/-- R101, R102, R104: an ENCODE among other inputs. After the ENCODE write come k answers `ok` to its flushes, in order, and between them
any inputs but a hardware reset: polls of ENC_BUSY, ticks, decoder commands, writes of IN_MEM. If none of them stops, the sink has been
presented exactly the first k + 1 chunks, the ENCODE is still running with the others to come, and PAY_MEM, ENC_RES and SEND_ERR are as they
were; and then a failing answer ends it with the sink's value, and an `ok` to the last chunk ends it Ok. -/
def Obligations.EncodeGoesOnAmongOtherInputs : Prop :=
  ∀ (s t : State) (len : Len) (payload : List Byte) (between rest : List Input) (k : Nat),
    s.Inv → betweenCommands s → s.enc.busy = false → len.toNat ≤ s.cfg.payMemSize →
    bytesAt s.enc.payMem 0 len.toNat = some payload → k < (chunksOf s.cfg.chunkSize payload).length →
    s.inputs = .access (.regWrite .encoder 0 0 4 (commandWord 0x10#8 len)) :: (between ++ rest) →
    between.filter isSinkAnswer = okAnswers s.sinkOut.length k → .hwReset ∉ between →
    runSteps (between.length + 1) s = .next t →
    t.enc.busy = true ∧ t.inputs = rest ∧ t.cfg = s.cfg
      ∧ t.sinkOut = s.sinkOut ++ (chunksOf s.cfg.chunkSize payload).take (k + 1)
      ∧ chunksToCome t.cfg t.enc = (chunksOf s.cfg.chunkSize payload).drop (k + 1)
      ∧ t.enc.payMem = s.enc.payMem ∧ t.enc.res = s.enc.res ∧ t.enc.sendErr = s.enc.sendErr
      ∧ (∀ v after, rest = .sinkAnswer (s.sinkOut.length + k + 1) (.fail v) :: after →
        step t = .next { t with
          inputs := after
          enc := { t.enc with res := true, sendErr := v % 2 ^ s.cfg.wErr, busy := false, wait := none }
          draws := t.draws + 1 })
      ∧ (∀ after, k + 1 = (chunksOf s.cfg.chunkSize payload).length →
        rest = .sinkAnswer (s.sinkOut.length + k + 1) .ok :: after →
        step t = .next { t with inputs := after, enc := { t.enc with res := false, busy := false, wait := none } })
end

