-- ==== Sys2Proof/Laws/Bus.lean ====
section
/-! SUPPORT. BUS_BINDING: the bytes of a word, of a transfer and of several transfers. -/

namespace Sys2Proof.Machine

theorem byteOf_getLsbD (w : Word) (k i : Nat) : (byteOf w k).getLsbD i = (decide (i < 8) && w.getLsbD (8 * k + i)) := by
  simp [byteOf]

theorem byteAt_getLsbD (k : Nat) (b : Byte) (i : Nat) :
    (byteAt k b).getLsbD i = (decide (i < 32) && decide (8 * k ≤ i) && b.getLsbD (i - 8 * k)) := by
  simp only [byteAt, BitVec.getLsbD_shiftLeft, BitVec.getLsbD_setWidth]
  by_cases h1 : i < 32
  · by_cases h2 : 8 * k ≤ i
    · simp [h1, h2, show i - 8 * k < 32 by omega]
    · simp [h2]
  · simp [h1]

/-- The lanes of a transfer hold its bytes, lane 0 first. -/
theorem byteOf_laneWord (bs : List Byte) : ∀ {l : Nat} (h : l < bs.length), l < 4 → byteOf (laneWord bs) l = bs[l] := by
  induction bs with
  | nil => intro l h; cases h
  | cons b bs ih =>
    intro l h h4
    refine BitVec.eq_of_getLsbD_eq fun i hi => ?_
    rw [byteOf_getLsbD]
    simp only [laneWord, BitVec.getLsbD_or, BitVec.getLsbD_setWidth, BitVec.getLsbD_shiftLeft]
    cases l with
    | zero => simp [hi, show i < 32 by omega]
    | succ l =>
      have hb : b.getLsbD (8 * (l + 1) + i) = false := BitVec.getLsbD_of_ge _ _ (by omega)
      have := congrArg (fun x : Byte => x.getLsbD i) (ih (l := l) (by simpa using h) (by omega))
      simp only [byteOf_getLsbD] at this
      rw [hb, show 8 * (l + 1) + i - 8 = 8 * l + i by omega]
      simpa [hi, show 8 * (l + 1) + i < 32 by omega, show ¬ 8 * (l + 1) + i < 8 by omega] using this

theorem laneWords_length (width : Nat) (n : Nat) : ∀ bytes : List Byte, (laneWords width n bytes).length = n := by
  induction n with
  | zero => intro _; rfl
  | succ n ih => intro bytes; simp [laneWords, ih]

/-- Lane `l` of transfer `j` holds byte `j * width + l`. -/
theorem laneWords_lane (width : Nat) (h4 : width ≤ 4) (n : Nat) : ∀ {bytes : List Byte} {j l : Nat}, j < n → l < width →
    n * width ≤ bytes.length → (laneWords width n bytes)[j]?.map (byteOf · l) = bytes[j * width + l]? := by
  induction n with
  | zero => intro _ j _ h; cases h
  | succ n ih =>
    intro bytes j l hj hl hn
    rw [Nat.succ_mul] at hn
    cases j with
    | zero =>
      have hlen : l < (bytes.take width).length := by simp; omega
      simp only [laneWords, List.getElem?_cons_zero, Option.map_some, byteOf_laneWord _ hlen (by omega)]
      rw [List.getElem_take, Nat.zero_mul, Nat.zero_add, List.getElem?_eq_getElem (by omega)]
    | succ j =>
      simp only [laneWords, List.getElem?_cons_succ]
      rw [ih (by omega) hl (by simp; omega), List.getElem?_drop, Nat.succ_mul]
      congr 1
      omega

/-- The bytes of the transfers that carry some bytes are those bytes. -/
theorem transferBytes_laneWords (width : Nat) (h4 : width ≤ 4) (n : Nat) : ∀ {bytes : List Byte}, bytes.length = n * width →
    transferBytes width (laneWords width n bytes) = bytes := by
  induction n with
  | zero =>
    intro bytes h
    rw [Nat.zero_mul] at h
    rw [List.eq_nil_of_length_eq_zero h]
    rfl
  | succ n ih =>
    intro bytes h
    rw [Nat.succ_mul] at h
    have hfirst : (List.range width).map (byteOf (laneWord (bytes.take width))) = bytes.take width := by
      refine List.ext_getElem (by simp; omega) fun i h1 h2 => ?_
      simp only [List.length_map, List.length_range] at h1
      simp only [List.getElem_map, List.getElem_range]
      exact byteOf_laneWord _ h2 (by omega)
    have hrest := ih (bytes := bytes.drop width) (by simp; omega)
    unfold transferBytes at hrest ⊢
    simp only [laneWords, List.flatMap_cons, hfirst, hrest, List.take_append_drop]

/-- Bytes put at their places of a word: where every byte of `w` has a place, they make `w`. -/
theorem bytes_make_word (w : Word) (lanes : List Nat) (h : ∀ k, k < 4 → k ∈ lanes) :
    ((lanes.zip (lanes.map (byteOf w))).map fun p => byteAt p.1 p.2).foldr (· ||| ·) 0#32 = w := by
  have key : ∀ (l : List Nat) (i : Nat), i < 32 →
      (((l.zip (l.map (byteOf w))).map fun p => byteAt p.1 p.2).foldr (· ||| ·) 0#32).getLsbD i
        = (l.contains (i / 8) && w.getLsbD i) := by
    intro l i hi
    induction l with
    | nil => simp
    | cons k l ih =>
      simp only [List.map_cons, List.zip_cons_cons, List.foldr_cons, BitVec.getLsbD_or, byteAt_getLsbD, byteOf_getLsbD]
      rw [ih, List.contains_cons]
      by_cases hk : i / 8 = k
      · subst hk
        simp [hi, show 8 * (i / 8) ≤ i by omega, show i - 8 * (i / 8) < 8 by omega, show 8 * (i / 8) + (i - 8 * (i / 8)) = i by omega]
      · have hne : (i / 8 == k) = false := by simpa using hk
        by_cases h2 : 8 * k ≤ i
        · simp [hne, show ¬ i - 8 * k < 8 by omega]
        · simp [hne, h2]
  refine BitVec.eq_of_getLsbD_eq fun i hi => ?_
  rw [key lanes i hi]
  simp [h (i / 8) (by omega)]

/-- What a binding that carries a whole register is: transfers of 1, 2 or 4 bytes that make four, and every byte on some lane. -/
theorem carriesWhole_cases {b : BusBinding} (h : carriesWhole b = true) :
    b.width ≤ 4 ∧ 0 < b.width ∧ transferCount b * b.width = 4 ∧ b.lanes.length = 4 ∧ ∀ k, k < 4 → k ∈ b.lanes := by
  unfold carriesWhole at h
  simp only [Bool.and_eq_true, Bool.or_eq_true, beq_iff_eq, List.all_cons, List.all_nil, Bool.and_true, List.contains_iff_mem] at h
  obtain ⟨⟨hw, hl⟩, h0, h1, h2, h3⟩ := h
  have hk : ∀ k, k < 4 → k ∈ b.lanes := by
    intro k hk
    have : k = 0 ∨ k = 1 ∨ k = 2 ∨ k = 3 := by omega
    rcases this with rfl | rfl | rfl | rfl <;> assumption
  unfold transferCount
  rcases hw with (hw | hw) | hw <;> rw [hw] <;> exact ⟨by omega, by omega, by omega, hl, hk⟩

end Sys2Proof.Machine
end

