-- ==== Sys2Proof/Laws/Memory.lean ====
section
/-! SUPPORT. The byte memories: a read after a write, the canonical form kept by every memory operation, and what the written-bytes test says. -/

namespace Sys2Proof.Machine

/-- A read after a write to the same address gives the value written. -/
@[simp] theorem memRead_memWrite_same (m : Mem) (a : Nat) (b : Byte) : memRead (memWrite m a b) a = some b := by
  induction m with
  | nil => simp [memWrite, memRead]
  | cons c rest ih =>
    obtain ⟨k, v⟩ := c
    unfold memWrite
    split
    · simp [memRead]
    · split
      · simp [memRead]
      · have : k ≠ a := by omega
        simp [memRead, this, ih]

/-- A write leaves every other address alone. -/
theorem memRead_memWrite_other (m : Mem) {a k : Nat} (b : Byte) (h : k ≠ a) :
    memRead (memWrite m a b) k = memRead m k := by
  induction m with
  | nil => simp [memWrite, memRead, h.symm]
  | cons c rest ih =>
    obtain ⟨j, v⟩ := c
    unfold memWrite
    split
    · simp [memRead, h.symm]
    · split
      · rename_i _ hja
        subst hja
        simp [memRead, h.symm]
      · simp only [memRead, ih]

theorem memRead_memWrite (m : Mem) (a k : Nat) (b : Byte) :
    memRead (memWrite m a b) k = if k = a then some b else memRead m k := by
  split
  · next h => rw [h, memRead_memWrite_same]
  · next h => exact memRead_memWrite_other m b h

/-- A written byte stays written. -/
theorem memRead_memWrite_isSome (m : Mem) (a k : Nat) (b : Byte) (h : (memRead m k).isSome = true) :
    (memRead (memWrite m a b) k).isSome = true := by
  rw [memRead_memWrite]
  split <;> simp [h]

@[simp] theorem Memory.above_memWrite (k : Nat) (m : Mem) (a : Nat) (b : Byte) :
    Memory.above k (memWrite m a b) = (decide (k < a) && Memory.above k m) := by
  induction m with
  | nil => simp [memWrite, Memory.above]
  | cons c rest ih =>
    obtain ⟨j, v⟩ := c
    unfold memWrite
    split
    · simp [Memory.above]
    · split
      · next h => subst h; simp [Memory.above]
      · simp [Memory.above, ih, Bool.and_left_comm]

theorem Memory.above_mono {a k : Nat} (h : a < k) {m : Mem} (hm : Memory.above k m = true) : Memory.above a m = true := by
  induction m with
  | nil => rfl
  | cons c rest ih =>
    obtain ⟨j, v⟩ := c
    simp only [Memory.above, Bool.and_eq_true, decide_eq_true_eq] at hm ⊢
    exact ⟨by omega, ih hm.2⟩

/-- A write keeps the canonical form. -/
theorem Memory.wf_memWrite {m : Mem} (h : Memory.wf m = true) (a : Nat) (b : Byte) : Memory.wf (memWrite m a b) = true := by
  induction m with
  | nil => simp [memWrite, Memory.wf, Memory.above]
  | cons c rest ih =>
    obtain ⟨k, v⟩ := c
    simp only [Memory.wf, Bool.and_eq_true] at h
    unfold memWrite
    split
    · next hak =>
      simp only [Memory.wf, Memory.above, Bool.and_eq_true, decide_eq_true_eq]
      exact ⟨⟨hak, Memory.above_mono hak h.1⟩, h.1, h.2⟩
    · split
      · next hak => subst hak; simp [Memory.wf, h]
      · simp only [Memory.wf, Memory.above_memWrite, Bool.and_eq_true, decide_eq_true_eq]
        exact ⟨⟨by omega, h.1⟩, ih h.2⟩

/-- A write inside the memory keeps every listed address inside it. -/
theorem Memory.within_memWrite {size : Nat} {m : Mem} (h : Memory.within size m = true) {a : Nat} (ha : a < size) (b : Byte) :
    Memory.within size (memWrite m a b) = true := by
  induction m with
  | nil => simp [memWrite, Memory.within, ha]
  | cons c rest ih =>
    obtain ⟨k, v⟩ := c
    simp only [Memory.within, Bool.and_eq_true, decide_eq_true_eq] at h
    unfold memWrite
    split
    · simp [Memory.within, h, ha]
    · split
      · simp [Memory.within, h, ha]
      · simp [Memory.within, h.1, ih h.2]

/-- An address beyond the memory is not listed. -/
theorem memRead_of_within {size : Nat} {m : Mem} (h : Memory.within size m = true) {a : Nat} (ha : size ≤ a) :
    memRead m a = none := by
  induction m with
  | nil => rfl
  | cons c rest ih =>
    obtain ⟨k, v⟩ := c
    simp only [Memory.within, Bool.and_eq_true, decide_eq_true_eq] at h
    have : k ≠ a := by omega
    simp [memRead, this, ih h.2]

/-- Two memories in canonical form that read the same are the same data. -/
theorem Memory.eq_of_memRead_eq {m m' : Mem} (h : Memory.wf m = true) (h' : Memory.wf m' = true)
    (hr : ∀ a, memRead m a = memRead m' a) : m = m' := by
  have above_none : ∀ (k : Nat) (m : Mem), Memory.above k m = true → ∀ a, a ≤ k → memRead m a = none := by
    intro k m
    induction m with
    | nil => intros; rfl
    | cons c rest ih =>
      obtain ⟨j, v⟩ := c
      intro hm a ha
      simp only [Memory.above, Bool.and_eq_true, decide_eq_true_eq] at hm
      have : j ≠ a := by omega
      simp [memRead, this, ih hm.2 a ha]
  induction m generalizing m' with
  | nil =>
    cases m' with
    | nil => rfl
    | cons c rest => obtain ⟨k, v⟩ := c; have := hr k; simp [memRead] at this
  | cons c rest ih =>
    obtain ⟨k, v⟩ := c
    cases m' with
    | nil => have := hr k; simp [memRead] at this
    | cons c' rest' =>
      obtain ⟨k', v'⟩ := c'
      simp only [Memory.wf, Bool.and_eq_true] at h h'
      have hk : k = k' := by
        rcases Nat.lt_trichotomy k k' with hlt | heq | hgt
        · have := hr k
          simp [memRead, Nat.ne_of_gt hlt, above_none k' rest' h'.1 k (by omega)] at this
        · exact heq
        · have := hr k'
          simp [memRead, Nat.ne_of_gt hgt, above_none k rest h.1 k' (by omega)] at this
      subst hk
      have hv : v = v' := by simpa [memRead] using hr k
      subst hv
      have : rest = rest' := by
        refine ih h.2 h'.2 fun a => ?_
        by_cases ha : k = a
        · subst ha; rw [above_none k rest h.1 k (by omega), above_none k rest' h'.1 k (by omega)]
        · simpa [memRead, ha] using hr a
      rw [this]

/-! ## Loads and stores -/

theorem loadByte_ok {size : Nat} {m : Mem} {a : Nat} {b : Byte} :
    loadByte size m a = .ok b ↔ a < size ∧ memRead m a = some b := by
  unfold loadByte
  split
  · split <;> simp_all
  · simp_all

theorem storeByte_of_lt {size a : Nat} (h : a < size) (m : Mem) (b : Byte) :
    storeByte size m a b = .ok (memWrite m a b) := by simp [storeByte, h]

theorem storeByte_of_le {size a : Nat} (h : size ≤ a) (m : Mem) (b : Byte) :
    storeByte size m a b = .error .memRange := by simp [storeByte, Nat.not_lt.mpr h]

/-- The written-bytes test, address by address. -/
theorem allWritten_iff {m : Mem} {a n : Nat} :
    allWritten m a n = true ↔ ∀ k, k < n → (memRead m (a + k)).isSome = true := by
  induction n generalizing a with
  | zero => simp [allWritten]
  | succ n ih =>
    simp only [allWritten, Bool.and_eq_true, ih]
    constructor
    · rintro ⟨h0, h⟩ k hk
      cases k with
      | zero => exact h0
      | succ k => have := h k (by omega); rwa [Nat.add_assoc, Nat.add_comm 1 k] at this
    · intro h
      refine ⟨h 0 (by omega), fun k hk => ?_⟩
      have := h (k + 1) (by omega)
      rwa [Nat.add_assoc, Nat.add_comm 1 k]

/-- Written bytes stay written under any write. -/
theorem allWritten_memWrite {m : Mem} {a n : Nat} (h : allWritten m a n = true) (k : Nat) (b : Byte) :
    allWritten (memWrite m k b) a n = true := by
  rw [allWritten_iff] at h ⊢
  exact fun j hj => memRead_memWrite_isSome m k _ b (h j hj)

/-- The byte written next extends the written ones. -/
theorem allWritten_memWrite_succ {m : Mem} {n : Nat} (h : allWritten m 0 n = true) (b : Byte) :
    allWritten (memWrite m n b) 0 (n + 1) = true := by
  rw [allWritten_iff] at h ⊢
  intro k hk
  rcases Nat.lt_succ_iff_lt_or_eq.mp hk with hk | rfl
  · exact memRead_memWrite_isSome m n _ b (h k hk)
  · simp

theorem allWritten_sub {m : Mem} {a n k j : Nat} (h : allWritten m a n = true) (hk : a ≤ k) (hj : k + j ≤ a + n) :
    allWritten m k j = true := by
  rw [allWritten_iff] at h ⊢
  intro i hi
  have := h (k - a + i) (by omega)
  rwa [show a + (k - a + i) = k + i by omega] at this

theorem allWritten_load {size : Nat} {m : Mem} {a n k : Nat} (h : allWritten m a n = true) (hk : k < n)
    (hs : a + n ≤ size) : ∃ b, loadByte size m (a + k) = .ok b ∧ memRead m (a + k) = some b := by
  have := allWritten_iff.mp h k hk
  obtain ⟨b, hb⟩ := Option.isSome_iff_exists.mp this
  exact ⟨b, loadByte_ok.mpr ⟨by omega, hb⟩, hb⟩

end Sys2Proof.Machine
end

