-- ==== Sys2Proof/Laws/Bytes.lean ====
section
/-! SUPPORT. Byte strings in a memory: what bytesAt and loadBytes say, byte by byte, and how writes change them. -/

namespace Sys2Proof.Machine

/-- What bytesAt says, byte by byte. -/
theorem bytesAt_iff {m : Mem} {a n : Nat} {bs : List Byte} :
    bytesAt m a n = some bs ↔ bs.length = n ∧ ∀ k (h : k < bs.length), memRead m (a + k) = some bs[k] := by
  induction n generalizing a bs with
  | zero =>
    simp only [bytesAt, Option.some.injEq]
    constructor
    · rintro rfl; simp
    · rintro ⟨h, -⟩; exact (List.length_eq_zero_iff.mp h).symm
  | succ n ih =>
    constructor
    · intro h
      unfold bytesAt at h
      split at h
      · next b cs hb hcs =>
        cases h
        obtain ⟨hl, hr⟩ := ih.mp hcs
        refine ⟨by simp [hl], fun k hk => ?_⟩
        cases k with
        | zero => simpa using hb
        | succ k =>
          have := hr k (by simpa using hk)
          rw [show a + (k + 1) = a + 1 + k by omega]
          simpa using this
      · cases h
    · rintro ⟨hl, hr⟩
      cases bs with
      | nil => simp at hl
      | cons b cs =>
        have hb : memRead m a = some b := by
          have h0 := hr 0 (by simp)
          simpa only [Nat.add_zero, List.getElem_cons_zero] using h0
        have hcs : bytesAt m (a + 1) n = some cs := ih.mpr ⟨by simpa using hl, fun k hk => by
          have := hr (k + 1) (by simpa using hk)
          rw [show a + 1 + k = a + (k + 1) by omega]
          simpa using this⟩
        simp [bytesAt, hb, hcs]

theorem bytesAt_length {m : Mem} {a n : Nat} {bs : List Byte} (h : bytesAt m a n = some bs) : bs.length = n :=
  (bytesAt_iff.mp h).1

theorem bytesAt_cons {m : Mem} {a n : Nat} {b : Byte} {bs : List Byte} :
    bytesAt m a (n + 1) = some (b :: bs) ↔ memRead m a = some b ∧ bytesAt m (a + 1) n = some bs := by
  constructor
  · intro h
    unfold bytesAt at h
    split at h
    · next hb hcs => cases h; exact ⟨hb, hcs⟩
    · cases h
  · rintro ⟨hb, hcs⟩; simp [bytesAt, hb, hcs]

/-- Bytes can be read exactly where they are written. -/
theorem allWritten_iff_bytesAt {m : Mem} {a n : Nat} : allWritten m a n = true ↔ ∃ bs, bytesAt m a n = some bs := by
  induction n generalizing a with
  | zero => simp [allWritten, bytesAt]
  | succ n ih =>
    simp only [allWritten, Bool.and_eq_true, ih, Option.isSome_iff_exists]
    constructor
    · rintro ⟨⟨b, hb⟩, bs, hbs⟩; exact ⟨b :: bs, bytesAt_cons.mpr ⟨hb, hbs⟩⟩
    · rintro ⟨bs, h⟩
      cases bs with
      | nil => have := bytesAt_length h; simp at this
      | cons b bs => obtain ⟨hb, hbs⟩ := bytesAt_cons.mp h; exact ⟨⟨b, hb⟩, bs, hbs⟩

/-- A write elsewhere leaves a byte string alone. -/
theorem bytesAt_memWrite_other {m : Mem} {a n k : Nat} (b : Byte) (h : ∀ j, j < n → a + j ≠ k) :
    bytesAt (memWrite m k b) a n = bytesAt m a n := by
  induction n generalizing a with
  | zero => rfl
  | succ n ih =>
    have h0 : memRead (memWrite m k b) a = memRead m a := memRead_memWrite_other m b (by simpa using h 0 (by omega))
    have h1 : bytesAt (memWrite m k b) (a + 1) n = bytesAt m (a + 1) n :=
      ih fun j hj => by have := h (j + 1) (by omega); omega
    simp [bytesAt, h0, h1]

/-- The byte written next extends the string. -/
theorem bytesAt_memWrite_next {m : Mem} {a n : Nat} {bs : List Byte} (h : bytesAt m a n = some bs) (b : Byte) :
    bytesAt (memWrite m (a + n) b) a (n + 1) = some (bs ++ [b]) := by
  obtain ⟨hl, hr⟩ := bytesAt_iff.mp h
  refine bytesAt_iff.mpr ⟨by simp [hl], fun k hk => ?_⟩
  by_cases hkn : k < bs.length
  · rw [memRead_memWrite_other _ _ (by omega), hr k hkn, List.getElem_append_left hkn]
  · have : k = n := by simp at hk; omega
    subst this
    rw [memRead_memWrite_same, List.getElem_append_right (by omega)]
    simp

/-- The end of a byte string. -/
theorem bytesAt_drop {m : Mem} {a n k : Nat} {bs : List Byte} (h : bytesAt m a n = some bs) (hk : k ≤ n) :
    bytesAt m (a + k) (n - k) = some (bs.drop k) := by
  obtain ⟨hl, hr⟩ := bytesAt_iff.mp h
  refine bytesAt_iff.mpr ⟨by simp [hl], fun j hj => ?_⟩
  have hj' : k + j < bs.length := by simp at hj; omega
  rw [Nat.add_assoc, hr (k + j) hj', List.getElem_drop]

/-- What loading several bytes gives (R47): their string, where they lie inside the memory. -/
theorem loadBytes_ok {size : Nat} {m : Mem} {a n : Nat} {bs : List Byte} :
    loadBytes size m a n = .ok bs ↔ bytesAt m a n = some bs ∧ (n = 0 ∨ a + n ≤ size) := by
  induction n generalizing a bs with
  | zero => simp [loadBytes, bytesAt]
  | succ n ih =>
    constructor
    · intro h
      unfold loadBytes at h
      split at h
      · cases h
      · next b hb =>
        split at h
        · cases h
        · next cs hcs =>
          cases h
          obtain ⟨hlt, hrd⟩ := loadByte_ok.mp hb
          obtain ⟨hcs', hn⟩ := ih.mp hcs
          exact ⟨bytesAt_cons.mpr ⟨hrd, hcs'⟩, Or.inr (by omega)⟩
    · rintro ⟨h, hn⟩
      cases bs with
      | nil => have := bytesAt_length h; simp at this
      | cons b cs =>
        obtain ⟨hb, hcs⟩ := bytesAt_cons.mp h
        have h1 : loadByte size m a = .ok b := loadByte_ok.mpr ⟨by omega, hb⟩
        have h2 : loadBytes size m (a + 1) n = .ok cs := ih.mpr ⟨hcs, by omega⟩
        simp [loadBytes, h1, h2]

end Sys2Proof.Machine
end

