-- ==== Sys2Proof/Laws/Decode.lean ====
section
/-! SUPPORT. The fields of a command word, and the four reserved bytes told apart. -/

namespace Sys2Proof

@[simp] theorem escapeByte_ne_startEnd : escapeByte ≠ startEnd := by decide
@[simp] theorem escapedStartEnd_ne_startEnd : escapedStartEnd ≠ startEnd := by decide
@[simp] theorem escapedEscape_ne_startEnd : escapedEscape ≠ startEnd := by decide
@[simp] theorem escapedStartEnd_ne_escapeByte : escapedStartEnd ≠ escapeByte := by decide
@[simp] theorem escapedEscape_ne_escapeByte : escapedEscape ≠ escapeByte := by decide
@[simp] theorem escapedEscape_ne_escapedStartEnd : escapedEscape ≠ escapedStartEnd := by decide

/-- OP of a command word (R60). -/
@[simp] theorem opField_commandWord (op : Byte) (len : Len) : opField (commandWord op len) = op := by
  unfold opField commandWord
  ext i hi
  rw [BitVec.getElem_extractLsb']
  change (len ++ op : BitVec (24 + 8)).getLsbD (0 + i) = op[i]
  rw [BitVec.getLsbD_append, Nat.zero_add, if_pos hi, BitVec.getLsbD_eq_getElem hi]

/-- LEN of a command word (R60). -/
@[simp] theorem lenField_commandWord (op : Byte) (len : Len) : lenField (commandWord op len) = len := by
  unfold lenField commandWord
  ext i hi
  rw [BitVec.getElem_extractLsb']
  change (len ++ op : BitVec (24 + 8)).getLsbD (8 + i) = len[i]
  rw [BitVec.getLsbD_append, if_neg (by omega), show 8 + i - 8 = i by omega, BitVec.getLsbD_eq_getElem hi]

/-- A word is its two fields (R60). -/
theorem commandWord_fields (w : Word) : commandWord (opField w) (lenField w) = w := by
  have h : ∀ i, (commandWord (opField w) (lenField w)).getLsbD i = w.getLsbD i := by
    intro i
    unfold opField lenField commandWord
    rw [BitVec.getLsbD_append]
    split
    · next h => simp [h]
    · next h =>
      simp only [BitVec.getLsbD_extractLsb', show 8 + (i - 8) = i by omega]
      by_cases hi : i < 32
      · simp [show i - 8 < 24 by omega]
      · simp [BitVec.getLsbD_of_ge w i (by omega), show ¬ (i - 8 < 24) by omega]
  exact BitVec.eq_of_getLsbD_eq fun i _ => h i

/-- OP as a number: the word modulo 256. -/
theorem opField_toNat (w : Word) : (opField w).toNat = w.toNat % 256 := by
  simp [opField, BitVec.extractLsb'_toNat]

/-- LEN as a number: the word divided by 256. -/
theorem lenField_toNat (w : Word) : (lenField w).toNat = w.toNat / 256 := by
  have := w.isLt
  simp only [lenField, BitVec.extractLsb'_toNat, Nat.shiftRight_eq_div_pow]
  omega

end Sys2Proof
end

