-- ==== Sys2Proof/Laws/State.lean ====
section
/-! SUPPORT. One lemma per field per update of the state, the decoder and the encoder, so that no later proof unfolds a record update. -/

namespace Sys2Proof.Machine

/-! ## State -/

@[simp] theorem State.setDec_cfg (s : State) (d : Decoder) : (s.setDec d).cfg = s.cfg := rfl
@[simp] theorem State.setDec_dec (s : State) (d : Decoder) : (s.setDec d).dec = d := rfl
@[simp] theorem State.setDec_enc (s : State) (d : Decoder) : (s.setDec d).enc = s.enc := rfl
@[simp] theorem State.setDec_tick (s : State) (d : Decoder) : (s.setDec d).tick = s.tick := rfl
@[simp] theorem State.setDec_inputs (s : State) (d : Decoder) : (s.setDec d).inputs = s.inputs := rfl
@[simp] theorem State.setDec_hostOut (s : State) (d : Decoder) : (s.setDec d).hostOut = s.hostOut := rfl
@[simp] theorem State.setDec_sinkOut (s : State) (d : Decoder) : (s.setDec d).sinkOut = s.sinkOut := rfl
@[simp] theorem State.setDec_draws (s : State) (d : Decoder) : (s.setDec d).draws = s.draws := rfl

@[simp] theorem State.setEnc_cfg (s : State) (e : Encoder) : (s.setEnc e).cfg = s.cfg := rfl
@[simp] theorem State.setEnc_dec (s : State) (e : Encoder) : (s.setEnc e).dec = s.dec := rfl
@[simp] theorem State.setEnc_enc (s : State) (e : Encoder) : (s.setEnc e).enc = e := rfl
@[simp] theorem State.setEnc_tick (s : State) (e : Encoder) : (s.setEnc e).tick = s.tick := rfl
@[simp] theorem State.setEnc_inputs (s : State) (e : Encoder) : (s.setEnc e).inputs = s.inputs := rfl
@[simp] theorem State.setEnc_hostOut (s : State) (e : Encoder) : (s.setEnc e).hostOut = s.hostOut := rfl
@[simp] theorem State.setEnc_sinkOut (s : State) (e : Encoder) : (s.setEnc e).sinkOut = s.sinkOut := rfl
@[simp] theorem State.setEnc_draws (s : State) (e : Encoder) : (s.setEnc e).draws = s.draws := rfl

@[simp] theorem State.setTick_cfg (s : State) (t : Nat) : (s.setTick t).cfg = s.cfg := rfl
@[simp] theorem State.setTick_dec (s : State) (t : Nat) : (s.setTick t).dec = s.dec := rfl
@[simp] theorem State.setTick_enc (s : State) (t : Nat) : (s.setTick t).enc = s.enc := rfl
@[simp] theorem State.setTick_tick (s : State) (t : Nat) : (s.setTick t).tick = t := rfl
@[simp] theorem State.setTick_inputs (s : State) (t : Nat) : (s.setTick t).inputs = s.inputs := rfl
@[simp] theorem State.setTick_hostOut (s : State) (t : Nat) : (s.setTick t).hostOut = s.hostOut := rfl
@[simp] theorem State.setTick_sinkOut (s : State) (t : Nat) : (s.setTick t).sinkOut = s.sinkOut := rfl
@[simp] theorem State.setTick_draws (s : State) (t : Nat) : (s.setTick t).draws = s.draws := rfl

@[simp] theorem State.setInputs_cfg (s : State) (is : List Input) : (s.setInputs is).cfg = s.cfg := rfl
@[simp] theorem State.setInputs_dec (s : State) (is : List Input) : (s.setInputs is).dec = s.dec := rfl
@[simp] theorem State.setInputs_enc (s : State) (is : List Input) : (s.setInputs is).enc = s.enc := rfl
@[simp] theorem State.setInputs_tick (s : State) (is : List Input) : (s.setInputs is).tick = s.tick := rfl
@[simp] theorem State.setInputs_inputs (s : State) (is : List Input) : (s.setInputs is).inputs = is := rfl
@[simp] theorem State.setInputs_hostOut (s : State) (is : List Input) : (s.setInputs is).hostOut = s.hostOut := rfl
@[simp] theorem State.setInputs_sinkOut (s : State) (is : List Input) : (s.setInputs is).sinkOut = s.sinkOut := rfl
@[simp] theorem State.setInputs_draws (s : State) (is : List Input) : (s.setInputs is).draws = s.draws := rfl

@[simp] theorem State.pushHost_cfg (s : State) (w : Word) : (s.pushHost w).cfg = s.cfg := rfl
@[simp] theorem State.pushHost_dec (s : State) (w : Word) : (s.pushHost w).dec = s.dec := rfl
@[simp] theorem State.pushHost_enc (s : State) (w : Word) : (s.pushHost w).enc = s.enc := rfl
@[simp] theorem State.pushHost_tick (s : State) (w : Word) : (s.pushHost w).tick = s.tick := rfl
@[simp] theorem State.pushHost_inputs (s : State) (w : Word) : (s.pushHost w).inputs = s.inputs := rfl
@[simp] theorem State.pushHost_hostOut (s : State) (w : Word) : (s.pushHost w).hostOut = s.hostOut ++ [w] := rfl
@[simp] theorem State.pushHost_sinkOut (s : State) (w : Word) : (s.pushHost w).sinkOut = s.sinkOut := rfl
@[simp] theorem State.pushHost_draws (s : State) (w : Word) : (s.pushHost w).draws = s.draws := rfl

@[simp] theorem State.pushHostAll_cfg (s : State) (ws : List Word) : (s.pushHostAll ws).cfg = s.cfg := rfl
@[simp] theorem State.pushHostAll_dec (s : State) (ws : List Word) : (s.pushHostAll ws).dec = s.dec := rfl
@[simp] theorem State.pushHostAll_enc (s : State) (ws : List Word) : (s.pushHostAll ws).enc = s.enc := rfl
@[simp] theorem State.pushHostAll_tick (s : State) (ws : List Word) : (s.pushHostAll ws).tick = s.tick := rfl
@[simp] theorem State.pushHostAll_inputs (s : State) (ws : List Word) : (s.pushHostAll ws).inputs = s.inputs := rfl
@[simp] theorem State.pushHostAll_hostOut (s : State) (ws : List Word) : (s.pushHostAll ws).hostOut = s.hostOut ++ ws := rfl
@[simp] theorem State.pushHostAll_sinkOut (s : State) (ws : List Word) : (s.pushHostAll ws).sinkOut = s.sinkOut := rfl
@[simp] theorem State.pushHostAll_draws (s : State) (ws : List Word) : (s.pushHostAll ws).draws = s.draws := rfl

@[simp] theorem State.pushChunk_cfg (s : State) (c : List Byte) : (s.pushChunk c).cfg = s.cfg := rfl
@[simp] theorem State.pushChunk_dec (s : State) (c : List Byte) : (s.pushChunk c).dec = s.dec := rfl
@[simp] theorem State.pushChunk_enc (s : State) (c : List Byte) : (s.pushChunk c).enc = s.enc := rfl
@[simp] theorem State.pushChunk_tick (s : State) (c : List Byte) : (s.pushChunk c).tick = s.tick := rfl
@[simp] theorem State.pushChunk_inputs (s : State) (c : List Byte) : (s.pushChunk c).inputs = s.inputs := rfl
@[simp] theorem State.pushChunk_hostOut (s : State) (c : List Byte) : (s.pushChunk c).hostOut = s.hostOut := rfl
@[simp] theorem State.pushChunk_sinkOut (s : State) (c : List Byte) : (s.pushChunk c).sinkOut = s.sinkOut ++ [c] := rfl
@[simp] theorem State.pushChunk_draws (s : State) (c : List Byte) : (s.pushChunk c).draws = s.draws := rfl

@[simp] theorem State.countDraw_cfg (s : State) : (s.countDraw).cfg = s.cfg := rfl
@[simp] theorem State.countDraw_dec (s : State) : (s.countDraw).dec = s.dec := rfl
@[simp] theorem State.countDraw_enc (s : State) : (s.countDraw).enc = s.enc := rfl
@[simp] theorem State.countDraw_tick (s : State) : (s.countDraw).tick = s.tick := rfl
@[simp] theorem State.countDraw_inputs (s : State) : (s.countDraw).inputs = s.inputs := rfl
@[simp] theorem State.countDraw_hostOut (s : State) : (s.countDraw).hostOut = s.hostOut := rfl
@[simp] theorem State.countDraw_sinkOut (s : State) : (s.countDraw).sinkOut = s.sinkOut := rfl
@[simp] theorem State.countDraw_draws (s : State) : (s.countDraw).draws = s.draws + 1 := rfl

@[simp] theorem failEncode_cfg (v : Nat) (s : State) : (failEncode v s).cfg = s.cfg := rfl
@[simp] theorem failEncode_dec (v : Nat) (s : State) : (failEncode v s).dec = s.dec := rfl
@[simp] theorem failEncode_enc (v : Nat) (s : State) : (failEncode v s).enc = s.enc.finishErr v := rfl
@[simp] theorem failEncode_tick (v : Nat) (s : State) : (failEncode v s).tick = s.tick := rfl
@[simp] theorem failEncode_inputs (v : Nat) (s : State) : (failEncode v s).inputs = s.inputs := rfl
@[simp] theorem failEncode_hostOut (v : Nat) (s : State) : (failEncode v s).hostOut = s.hostOut := rfl
@[simp] theorem failEncode_sinkOut (v : Nat) (s : State) : (failEncode v s).sinkOut = s.sinkOut := rfl
@[simp] theorem failEncode_draws (v : Nat) (s : State) : (failEncode v s).draws = s.draws + 1 := rfl

@[simp] theorem hardwareReset_cfg (s : State) : (hardwareReset s).cfg = s.cfg := rfl
@[simp] theorem hardwareReset_dec (s : State) : (hardwareReset s).dec = Decoder.reset := rfl
@[simp] theorem hardwareReset_enc (s : State) : (hardwareReset s).enc = Encoder.reset := rfl
@[simp] theorem hardwareReset_tick (s : State) : (hardwareReset s).tick = s.tick := rfl
@[simp] theorem hardwareReset_inputs (s : State) : (hardwareReset s).inputs = s.inputs := rfl
@[simp] theorem hardwareReset_hostOut (s : State) : (hardwareReset s).hostOut = s.hostOut := rfl
@[simp] theorem hardwareReset_sinkOut (s : State) : (hardwareReset s).sinkOut = s.sinkOut := rfl
@[simp] theorem hardwareReset_draws (s : State) : (hardwareReset s).draws = s.draws + 1 := rfl

@[simp] theorem State.setDec_dec_self (s : State) : s.setDec s.dec = s := rfl
@[simp] theorem State.setEnc_enc_self (s : State) : s.setEnc s.enc = s := rfl
@[simp] theorem State.setDec_setDec (s : State) (d e : Decoder) : (s.setDec d).setDec e = s.setDec e := rfl
@[simp] theorem State.setEnc_setEnc (s : State) (d e : Encoder) : (s.setEnc d).setEnc e = s.setEnc e := rfl
theorem State.setDec_setEnc (s : State) (d : Decoder) (e : Encoder) : (s.setEnc e).setDec d = (s.setDec d).setEnc e := rfl

/-! ## Decoder -/

@[simp] theorem Decoder.resetEffect_dstate (d : Decoder) : (d.resetEffect).dstate = .idle := rfl
@[simp] theorem Decoder.resetEffect_wp (d : Decoder) : (d.resetEffect).wp = 0 := rfl
@[simp] theorem Decoder.resetEffect_leftOff (d : Decoder) : (d.resetEffect).leftOff = 0 := rfl
@[simp] theorem Decoder.resetEffect_leftLen (d : Decoder) : (d.resetEffect).leftLen = 0 := rfl
@[simp] theorem Decoder.resetEffect_lastT (d : Decoder) : (d.resetEffect).lastT = d.lastT := rfl
@[simp] theorem Decoder.resetEffect_res (d : Decoder) : (d.resetEffect).res = d.res := rfl
@[simp] theorem Decoder.resetEffect_inMem (d : Decoder) : (d.resetEffect).inMem = d.inMem := rfl
@[simp] theorem Decoder.resetEffect_outMem (d : Decoder) : (d.resetEffect).outMem = d.outMem := rfl
@[simp] theorem Decoder.resetEffect_window (d : Decoder) : (d.resetEffect).window = d.window := rfl

@[simp] theorem Decoder.enter_dstate (d : Decoder) (st : DState) : (d.enter st).dstate = st := rfl
@[simp] theorem Decoder.enter_wp (d : Decoder) (st : DState) : (d.enter st).wp = d.wp := rfl
@[simp] theorem Decoder.enter_leftOff (d : Decoder) (st : DState) : (d.enter st).leftOff = d.leftOff := rfl
@[simp] theorem Decoder.enter_leftLen (d : Decoder) (st : DState) : (d.enter st).leftLen = d.leftLen := rfl
@[simp] theorem Decoder.enter_lastT (d : Decoder) (st : DState) : (d.enter st).lastT = d.lastT := rfl
@[simp] theorem Decoder.enter_res (d : Decoder) (st : DState) : (d.enter st).res = d.res := rfl
@[simp] theorem Decoder.enter_inMem (d : Decoder) (st : DState) : (d.enter st).inMem = d.inMem := rfl
@[simp] theorem Decoder.enter_outMem (d : Decoder) (st : DState) : (d.enter st).outMem = d.outMem := rfl
@[simp] theorem Decoder.enter_window (d : Decoder) (st : DState) : (d.enter st).window = d.window := rfl

@[simp] theorem Decoder.advance_dstate (d : Decoder) : (d.advance).dstate = d.dstate := rfl
@[simp] theorem Decoder.advance_wp (d : Decoder) : (d.advance).wp = d.wp := rfl
@[simp] theorem Decoder.advance_leftOff (d : Decoder) : (d.advance).leftOff = d.leftOff := rfl
@[simp] theorem Decoder.advance_leftLen (d : Decoder) : (d.advance).leftLen = d.leftLen := rfl
@[simp] theorem Decoder.advance_lastT (d : Decoder) : (d.advance).lastT = d.lastT := rfl
@[simp] theorem Decoder.advance_res (d : Decoder) : (d.advance).res = d.res := rfl
@[simp] theorem Decoder.advance_inMem (d : Decoder) : (d.advance).inMem = d.inMem := rfl
@[simp] theorem Decoder.advance_outMem (d : Decoder) : (d.advance).outMem = d.outMem := rfl
@[simp] theorem Decoder.advance_window (d : Decoder) : (d.advance).window = d.window.map (fun w => { w with pos := w.pos + 1 }) := rfl

@[simp] theorem Decoder.finish_dstate (d : Decoder) (r : Word) : (d.finish r).dstate = d.dstate := rfl
@[simp] theorem Decoder.finish_wp (d : Decoder) (r : Word) : (d.finish r).wp = d.wp := rfl
@[simp] theorem Decoder.finish_leftOff (d : Decoder) (r : Word) : (d.finish r).leftOff = d.leftOff := rfl
@[simp] theorem Decoder.finish_leftLen (d : Decoder) (r : Word) : (d.finish r).leftLen = d.leftLen := rfl
@[simp] theorem Decoder.finish_lastT (d : Decoder) (r : Word) : (d.finish r).lastT = d.lastT := rfl
@[simp] theorem Decoder.finish_res (d : Decoder) (r : Word) : (d.finish r).res = r := rfl
@[simp] theorem Decoder.finish_inMem (d : Decoder) (r : Word) : (d.finish r).inMem = d.inMem := rfl
@[simp] theorem Decoder.finish_outMem (d : Decoder) (r : Word) : (d.finish r).outMem = d.outMem := rfl
@[simp] theorem Decoder.finish_window (d : Decoder) (r : Word) : (d.finish r).window = none := rfl

@[simp] theorem Decoder.openAt_dstate (d : Decoder) (base len t : Nat) : (d.openAt base len t).dstate = d.dstate := rfl
@[simp] theorem Decoder.openAt_wp (d : Decoder) (base len t : Nat) : (d.openAt base len t).wp = d.wp := rfl
@[simp] theorem Decoder.openAt_leftOff (d : Decoder) (base len t : Nat) : (d.openAt base len t).leftOff = d.leftOff := rfl
@[simp] theorem Decoder.openAt_leftLen (d : Decoder) (base len t : Nat) : (d.openAt base len t).leftLen = d.leftLen := rfl
@[simp] theorem Decoder.openAt_lastT (d : Decoder) (base len t : Nat) : (d.openAt base len t).lastT = t := rfl
@[simp] theorem Decoder.openAt_res (d : Decoder) (base len t : Nat) : (d.openAt base len t).res = d.res := rfl
@[simp] theorem Decoder.openAt_inMem (d : Decoder) (base len t : Nat) : (d.openAt base len t).inMem = d.inMem := rfl
@[simp] theorem Decoder.openAt_outMem (d : Decoder) (base len t : Nat) : (d.openAt base len t).outMem = d.outMem := rfl
@[simp] theorem Decoder.openAt_window (d : Decoder) (base len t : Nat) : (d.openAt base len t).window = some { base := base, len := len, pos := 0 } := rfl

@[simp] theorem Decoder.appended_dstate (d : Decoder) (m : Mem) : (d.appended m).dstate = d.dstate := rfl
@[simp] theorem Decoder.appended_wp (d : Decoder) (m : Mem) : (d.appended m).wp = d.wp + 1 := rfl
@[simp] theorem Decoder.appended_leftOff (d : Decoder) (m : Mem) : (d.appended m).leftOff = d.leftOff := rfl
@[simp] theorem Decoder.appended_leftLen (d : Decoder) (m : Mem) : (d.appended m).leftLen = d.leftLen := rfl
@[simp] theorem Decoder.appended_lastT (d : Decoder) (m : Mem) : (d.appended m).lastT = d.lastT := rfl
@[simp] theorem Decoder.appended_res (d : Decoder) (m : Mem) : (d.appended m).res = d.res := rfl
@[simp] theorem Decoder.appended_inMem (d : Decoder) (m : Mem) : (d.appended m).inMem = d.inMem := rfl
@[simp] theorem Decoder.appended_outMem (d : Decoder) (m : Mem) : (d.appended m).outMem = m := rfl
@[simp] theorem Decoder.appended_window (d : Decoder) (m : Mem) : (d.appended m).window = d.window := rfl

@[simp] theorem Decoder.setLeft_dstate (d : Decoder) : d.setLeft.dstate = d.dstate := by unfold Decoder.setLeft; split <;> rfl
@[simp] theorem Decoder.setLeft_wp (d : Decoder) : d.setLeft.wp = d.wp := by unfold Decoder.setLeft; split <;> rfl
@[simp] theorem Decoder.setLeft_lastT (d : Decoder) : d.setLeft.lastT = d.lastT := by unfold Decoder.setLeft; split <;> rfl
@[simp] theorem Decoder.setLeft_res (d : Decoder) : d.setLeft.res = d.res := by unfold Decoder.setLeft; split <;> rfl
@[simp] theorem Decoder.setLeft_inMem (d : Decoder) : d.setLeft.inMem = d.inMem := by unfold Decoder.setLeft; split <;> rfl
@[simp] theorem Decoder.setLeft_outMem (d : Decoder) : d.setLeft.outMem = d.outMem := by unfold Decoder.setLeft; split <;> rfl
@[simp] theorem Decoder.setLeft_window (d : Decoder) : d.setLeft.window = d.window := by unfold Decoder.setLeft; split <;> rfl

/-- LEFT_LEN after SET_LEFT is the number of bytes after the cursor (R79). -/
@[simp] theorem Decoder.setLeft_leftLen (d : Decoder) : d.setLeft.leftLen = d.bytesAfter := by
  unfold Decoder.setLeft
  split
  · rfl
  · simp only; omega

/-- LEFT_OFF after SET_LEFT (R79). -/
@[simp] theorem Decoder.setLeft_leftOff (d : Decoder) :
    d.setLeft.leftOff = if 0 < d.bytesAfter then d.addressAfter else 0 := by
  unfold Decoder.setLeft
  split <;> rfl

theorem Decoder.bytesAfter_some {d : Decoder} {w : Window} (h : d.window = some w) :
    d.bytesAfter = w.len - (w.pos + 1) := by simp [Decoder.bytesAfter, h]

theorem Decoder.addressAfter_some {d : Decoder} {w : Window} (h : d.window = some w) :
    d.addressAfter = w.base + w.pos + 1 := by simp [Decoder.addressAfter, h]

/-- SET_LEFT and the end of the transaction together, field by field (R79, R81, R109). -/
theorem Decoder.setLeft_finish (d : Decoder) (w : Window) (hw : d.window = some w) (r : Word) :
    d.setLeft.finish r = { d with
      leftOff := if w.pos + 1 < w.len then w.base + w.pos + 1 else 0
      leftLen := w.len - (w.pos + 1)
      res := r
      window := none } := by
  unfold Decoder.setLeft Decoder.finish
  rw [Decoder.bytesAfter_some hw, Decoder.addressAfter_some hw]
  split
  · rw [if_pos (by omega)]
  · rw [if_neg (by omega), show w.len - (w.pos + 1) = 0 by omega]

/-! ## Encoder -/

@[simp] theorem Encoder.begin_busy (e : Encoder) (n : Nat) : (e.begin n).busy = true := rfl
@[simp] theorem Encoder.begin_res (e : Encoder) (n : Nat) : (e.begin n).res = e.res := rfl
@[simp] theorem Encoder.begin_sendErr (e : Encoder) (n : Nat) : (e.begin n).sendErr = e.sendErr := rfl
@[simp] theorem Encoder.begin_epos (e : Encoder) (n : Nat) : (e.begin n).epos = 0 := rfl
@[simp] theorem Encoder.begin_ej (e : Encoder) (n : Nat) : (e.begin n).ej = 0 := rfl
@[simp] theorem Encoder.begin_len (e : Encoder) (n : Nat) : (e.begin n).len = n := rfl
@[simp] theorem Encoder.begin_wait (e : Encoder) (n : Nat) : (e.begin n).wait = none := rfl
@[simp] theorem Encoder.begin_payMem (e : Encoder) (n : Nat) : (e.begin n).payMem = e.payMem := rfl
@[simp] theorem Encoder.begin_scratch (e : Encoder) (n : Nat) : (e.begin n).scratch = e.scratch := rfl

@[simp] theorem Encoder.wrote_busy (e : Encoder) (m : Mem) : (e.wrote m).busy = e.busy := rfl
@[simp] theorem Encoder.wrote_res (e : Encoder) (m : Mem) : (e.wrote m).res = e.res := rfl
@[simp] theorem Encoder.wrote_sendErr (e : Encoder) (m : Mem) : (e.wrote m).sendErr = e.sendErr := rfl
@[simp] theorem Encoder.wrote_epos (e : Encoder) (m : Mem) : (e.wrote m).epos = e.epos + 1 := rfl
@[simp] theorem Encoder.wrote_ej (e : Encoder) (m : Mem) : (e.wrote m).ej = e.ej := rfl
@[simp] theorem Encoder.wrote_len (e : Encoder) (m : Mem) : (e.wrote m).len = e.len := rfl
@[simp] theorem Encoder.wrote_wait (e : Encoder) (m : Mem) : (e.wrote m).wait = e.wait := rfl
@[simp] theorem Encoder.wrote_payMem (e : Encoder) (m : Mem) : (e.wrote m).payMem = e.payMem := rfl
@[simp] theorem Encoder.wrote_scratch (e : Encoder) (m : Mem) : (e.wrote m).scratch = m := rfl

@[simp] theorem Encoder.nextByte_busy (e : Encoder) : (e.nextByte).busy = e.busy := rfl
@[simp] theorem Encoder.nextByte_res (e : Encoder) : (e.nextByte).res = e.res := rfl
@[simp] theorem Encoder.nextByte_sendErr (e : Encoder) : (e.nextByte).sendErr = e.sendErr := rfl
@[simp] theorem Encoder.nextByte_epos (e : Encoder) : (e.nextByte).epos = e.epos := rfl
@[simp] theorem Encoder.nextByte_ej (e : Encoder) : (e.nextByte).ej = e.ej + 1 := rfl
@[simp] theorem Encoder.nextByte_len (e : Encoder) : (e.nextByte).len = e.len := rfl
@[simp] theorem Encoder.nextByte_wait (e : Encoder) : (e.nextByte).wait = e.wait := rfl
@[simp] theorem Encoder.nextByte_payMem (e : Encoder) : (e.nextByte).payMem = e.payMem := rfl
@[simp] theorem Encoder.nextByte_scratch (e : Encoder) : (e.nextByte).scratch = e.scratch := rfl

@[simp] theorem Encoder.waitAt_busy (e : Encoder) (p : FlushPoint) : (e.waitAt p).busy = e.busy := rfl
@[simp] theorem Encoder.waitAt_res (e : Encoder) (p : FlushPoint) : (e.waitAt p).res = e.res := rfl
@[simp] theorem Encoder.waitAt_sendErr (e : Encoder) (p : FlushPoint) : (e.waitAt p).sendErr = e.sendErr := rfl
@[simp] theorem Encoder.waitAt_epos (e : Encoder) (p : FlushPoint) : (e.waitAt p).epos = e.epos := rfl
@[simp] theorem Encoder.waitAt_ej (e : Encoder) (p : FlushPoint) : (e.waitAt p).ej = e.ej := rfl
@[simp] theorem Encoder.waitAt_len (e : Encoder) (p : FlushPoint) : (e.waitAt p).len = e.len := rfl
@[simp] theorem Encoder.waitAt_wait (e : Encoder) (p : FlushPoint) : (e.waitAt p).wait = some p := rfl
@[simp] theorem Encoder.waitAt_payMem (e : Encoder) (p : FlushPoint) : (e.waitAt p).payMem = e.payMem := rfl
@[simp] theorem Encoder.waitAt_scratch (e : Encoder) (p : FlushPoint) : (e.waitAt p).scratch = e.scratch := rfl

@[simp] theorem Encoder.resume_busy (e : Encoder) : (e.resume).busy = e.busy := rfl
@[simp] theorem Encoder.resume_res (e : Encoder) : (e.resume).res = e.res := rfl
@[simp] theorem Encoder.resume_sendErr (e : Encoder) : (e.resume).sendErr = e.sendErr := rfl
@[simp] theorem Encoder.resume_epos (e : Encoder) : (e.resume).epos = 0 := rfl
@[simp] theorem Encoder.resume_ej (e : Encoder) : (e.resume).ej = e.ej := rfl
@[simp] theorem Encoder.resume_len (e : Encoder) : (e.resume).len = e.len := rfl
@[simp] theorem Encoder.resume_wait (e : Encoder) : (e.resume).wait = none := rfl
@[simp] theorem Encoder.resume_payMem (e : Encoder) : (e.resume).payMem = e.payMem := rfl
@[simp] theorem Encoder.resume_scratch (e : Encoder) : (e.resume).scratch = e.scratch := rfl

@[simp] theorem Encoder.finishOk_busy (e : Encoder) : (e.finishOk).busy = false := rfl
@[simp] theorem Encoder.finishOk_res (e : Encoder) : (e.finishOk).res = false := rfl
@[simp] theorem Encoder.finishOk_sendErr (e : Encoder) : (e.finishOk).sendErr = e.sendErr := rfl
@[simp] theorem Encoder.finishOk_epos (e : Encoder) : (e.finishOk).epos = e.epos := rfl
@[simp] theorem Encoder.finishOk_ej (e : Encoder) : (e.finishOk).ej = e.ej := rfl
@[simp] theorem Encoder.finishOk_len (e : Encoder) : (e.finishOk).len = e.len := rfl
@[simp] theorem Encoder.finishOk_wait (e : Encoder) : (e.finishOk).wait = none := rfl
@[simp] theorem Encoder.finishOk_payMem (e : Encoder) : (e.finishOk).payMem = e.payMem := rfl
@[simp] theorem Encoder.finishOk_scratch (e : Encoder) : (e.finishOk).scratch = e.scratch := rfl

@[simp] theorem Encoder.finishErr_busy (e : Encoder) (v : Nat) : (e.finishErr v).busy = false := rfl
@[simp] theorem Encoder.finishErr_res (e : Encoder) (v : Nat) : (e.finishErr v).res = true := rfl
@[simp] theorem Encoder.finishErr_sendErr (e : Encoder) (v : Nat) : (e.finishErr v).sendErr = v := rfl
@[simp] theorem Encoder.finishErr_epos (e : Encoder) (v : Nat) : (e.finishErr v).epos = e.epos := rfl
@[simp] theorem Encoder.finishErr_ej (e : Encoder) (v : Nat) : (e.finishErr v).ej = e.ej := rfl
@[simp] theorem Encoder.finishErr_len (e : Encoder) (v : Nat) : (e.finishErr v).len = e.len := rfl
@[simp] theorem Encoder.finishErr_wait (e : Encoder) (v : Nat) : (e.finishErr v).wait = none := rfl
@[simp] theorem Encoder.finishErr_payMem (e : Encoder) (v : Nat) : (e.finishErr v).payMem = e.payMem := rfl
@[simp] theorem Encoder.finishErr_scratch (e : Encoder) (v : Nat) : (e.finishErr v).scratch = e.scratch := rfl

/-! ## Shared operations on the state -/

/-- What the operations on the decoder leave alone. -/
theorem resetEffect_eq (s : State) : resetEffect s = s.setDec s.dec.resetEffect := rfl
@[simp] theorem resetEffect_dec (s : State) : (resetEffect s).dec = s.dec.resetEffect := rfl
@[simp] theorem resetEffect_enc (s : State) : (resetEffect s).enc = s.enc := rfl
@[simp] theorem resetEffect_cfg (s : State) : (resetEffect s).cfg = s.cfg := rfl
@[simp] theorem consume_dec (s : State) : (consume s).dec = s.dec.advance := rfl
@[simp] theorem consume_cfg (s : State) : (consume s).cfg = s.cfg := rfl
@[simp] theorem consumeTo_dec (st : DState) (s : State) : (consumeTo st s).dec = (s.dec.enter st).advance := rfl
@[simp] theorem consumeTo_cfg (st : DState) (s : State) : (consumeTo st s).cfg = s.cfg := rfl
@[simp] theorem endTransaction_dec (r : FrameResult) (s : State) :
    (endTransaction r s).dec = s.dec.finish (resultWord s.cfg r) := rfl
@[simp] theorem endTransaction_cfg (r : FrameResult) (s : State) : (endTransaction r s).cfg = s.cfg := rfl
@[simp] theorem completeFrame_dec (s : State) :
    (completeFrame s).dec = (s.dec.enter .idle).setLeft.finish (BitVec.ofNat 32 s.dec.wp) := rfl
@[simp] theorem completeFrame_cfg (s : State) : (completeFrame s).cfg = s.cfg := rfl
@[simp] theorem raiseError_dec (r : FrameResult) (s : State) :
    (raiseError r s).dec = s.dec.resetEffect.setLeft.finish (resultWord s.cfg r) := rfl
@[simp] theorem raiseError_cfg (r : FrameResult) (s : State) : (raiseError r s).cfg = s.cfg := rfl

end Sys2Proof.Machine
end

