-- ==== Sys2Proof/Laws/Window.lean ====
section
/-! SUPPORT. The byte loop of PROCESS_WINDOW: what one byte does in each frame state, that the loop goes byte by byte, and that it parses its bytes. -/

namespace Sys2Proof.Machine

@[simp] theorem andThen_next (s : State) (f : State → StepResult) : andThen (.next s) f = f s := rfl
@[simp] theorem andThen_fault (e : Fault) (f : State → StepResult) : andThen (.fault e) f = .fault e := rfl
@[simp] theorem andThen_refused (e : Refusal) (f : State → StepResult) : andThen (.refused e) f = .refused e := rfl
@[simp] theorem orFault_ok {α : Type} (a : α) (f : α → StepResult) : orFault (.ok a) f = f a := rfl
@[simp] theorem orFault_error {α : Type} (e : Fault) (f : α → StepResult) : orFault (.error e) f = .fault e := rfl

theorem andThen_assoc (r : StepResult) (f g : State → StepResult) :
    andThen (andThen r f) g = andThen r fun s => andThen (f s) g := by cases r <;> rfl

/-- A sequence goes on exactly when its first part does. -/
theorem andThen_eq_next {r : StepResult} {f : State → StepResult} {t : State} :
    andThen r f = .next t ↔ ∃ s, r = .next s ∧ f s = .next t := by
  cases r <;> simp

theorem orFault_eq_next {α : Type} {r : Except Fault α} {f : α → StepResult} {t : State} :
    orFault r f = .next t ↔ ∃ a, r = .ok a ∧ f a = .next t := by
  cases r <;> simp

/-- What an append can do (R86): Overflow at a full buffer, and otherwise one byte written at WP, which is below CAPACITY. -/
theorem append_eq_next {b : Byte} {s t : State} :
    append b s = .next t ↔
      (s.dec.wp = s.cfg.capacity ∧ t = raiseError .overflow s)
      ∨ (s.dec.wp < s.cfg.capacity ∧
          t = consume (s.setDec (s.dec.appended (memWrite s.dec.outMem s.dec.wp b)))) := by
  unfold append
  split
  · next h => simp [h, eq_comm]
  · next h =>
    rcases Nat.lt_or_ge s.dec.wp s.cfg.capacity with hlt | hge
    · simp [storeByte_of_lt hlt, h, hlt, eq_comm]
    · simp [storeByte_of_le hge, h, Nat.not_lt.mpr hge]

theorem append_of_full {b : Byte} {s : State} (h : s.dec.wp = s.cfg.capacity) :
    append b s = .next (raiseError .overflow s) := append_eq_next.mpr (.inl ⟨h, rfl⟩)

theorem append_of_room {b : Byte} {s : State} (h : s.dec.wp < s.cfg.capacity) :
    append b s = .next (consume (s.setDec (s.dec.appended (memWrite s.dec.outMem s.dec.wp b)))) :=
  append_eq_next.mpr (.inr ⟨h, rfl⟩)

/-! ## One byte, by frame state -/

theorem interpretByte_idle {s : State} {b : Byte} (h : s.dec.dstate = .idle) :
    interpretByte b s = if b = startEnd then execStart s else execSkip b s := by
  unfold interpretByte wireClass
  rw [h]
  by_cases hb : b = startEnd <;> simp [hb]

theorem interpretByte_inFrame {s : State} {b : Byte} (h : s.dec.dstate = .inFrame) :
    interpretByte b s =
      if b = startEnd then execEndFrame s else if b = escapeByte then execEsc s else execData b s := by
  unfold interpretByte wireClass
  rw [h]
  by_cases hb : b = startEnd
  · simp only [if_pos hb]
  · by_cases hb' : b = escapeByte
    · simp only [if_neg hb, if_pos hb']
    · simp only [if_neg hb, if_neg hb']

theorem interpretByte_escaped {s : State} {b : Byte} (h : s.dec.dstate = .inFrameEscaped) :
    interpretByte b s =
      if b = startEnd then execEndFrame s
      else if b = escapedStartEnd then execEscEnd s
      else if b = escapedEscape then execEscEsc s
      else execBadEsc b s := by
  unfold interpretByte wireClass
  rw [h]
  by_cases hb : b = startEnd
  · simp only [if_pos hb]
  · by_cases hb' : b = escapedStartEnd
    · simp only [if_neg hb, if_pos hb']
    · by_cases hb'' : b = escapedEscape
      · simp only [if_neg hb, if_neg hb', if_pos hb'']
      · simp only [if_neg hb, if_neg hb', if_neg hb'']

/-! ## The loop -/

/-- With the transaction over the loop is over. -/
theorem runWindow_closed {n : Nat} {s : State} (h : s.dec.window = none) : runWindow n s = .next s := by
  cases n with
  | zero => rfl
  | succ n => simp [runWindow, h]

theorem runWindow_succ {n : Nat} {s : State} {w : Window} (h : s.dec.window = some w) :
    runWindow (n + 1) s = andThen (windowStep w s) (runWindow n) := by simp [runWindow, h]

/-- The loop finds the input exhausted. -/
theorem windowStep_exhausted {w : Window} {s : State} (h : w.len ≤ w.pos) :
    windowStep w s = .next (endTransaction .needMoreData s) := by
  simp [windowStep, Nat.not_lt.mpr h]

/-- The loop takes the byte at its cursor. -/
theorem windowStep_byte {w : Window} {s : State} {b : Byte} (h : w.pos < w.len) (hs : w.base + w.pos < s.cfg.inMemSize)
    (hb : memRead s.dec.inMem (w.base + w.pos) = some b) : windowStep w s = interpretByte b s := by
  have : windowByte w s = .ok b := loadByte_ok.mpr ⟨hs, hb⟩
  simp [windowStep, h, this]

/-- A property that every turn of the loop keeps is kept by the loop. -/
theorem runWindow_keeps (P : State → Prop)
    (hstep : ∀ s w t, P s → s.dec.window = some w → windowStep w s = .next t → P t) :
    ∀ n s t, P s → runWindow n s = .next t → P t := by
  intro n
  induction n with
  | zero => intro s t hs h; cases h; exact hs
  | succ n ih =>
    intro s t hs h
    cases hw : s.dec.window with
    | none => rw [runWindow_closed hw] at h; cases h; exact hs
    | some w =>
      rw [runWindow_succ hw, andThen_eq_next] at h
      obtain ⟨u, hu, ht⟩ := h
      exact ih u t (hstep s w u hs hw hu) ht

/-- What stands before the bytes still to interpret: the cursor, the bytes themselves, no leftover. -/
structure WindowHolds (s : State) (w : Window) (bs : List Byte) : Prop where
  window : s.dec.window = some w
  count : w.pos + bs.length = w.len
  inside : w.base + w.len ≤ s.cfg.inMemSize
  bytes : bytesAt s.dec.inMem (w.base + w.pos) bs.length = some bs
  no_left : s.dec.leftLen = 0

theorem WindowHolds.step {s : State} {w : Window} {b : Byte} {bs : List Byte} (h : WindowHolds s w (b :: bs)) :
    windowStep w s = interpretByte b s := by
  have hc := h.count
  have hi := h.inside
  simp only [List.length_cons] at hc
  exact windowStep_byte (by omega) (by omega) (bytesAt_cons.mp h.bytes).1

/-- The cursor moved past one byte; whatever happened to the other registers, the rest of the bytes stand before it. -/
theorem WindowHolds.advance {s t : State} {w : Window} {b : Byte} {bs : List Byte} (h : WindowHolds s w (b :: bs))
    (hw : t.dec.window = some { w with pos := w.pos + 1 }) (hm : t.dec.inMem = s.dec.inMem) (hc : t.cfg = s.cfg)
    (hl : t.dec.leftLen = 0) : WindowHolds t { w with pos := w.pos + 1 } bs := by
  have hcount := h.count
  have hin := h.inside
  simp only [List.length_cons] at hcount
  refine ⟨hw, ?_, ?_, ?_, hl⟩
  · simp only; omega
  · simpa only [hc] using hin
  · rw [hm, show w.base + (w.pos + 1) = w.base + w.pos + 1 by omega]
    exact (bytesAt_cons.mp h.bytes).2

/-- SET_LEFT at this byte leaves the bytes after it. -/
theorem WindowHolds.leftover {s : State} {w : Window} {b : Byte} {bs : List Byte} (h : WindowHolds s w (b :: bs))
    {d : Decoder} (hw : d.window = some w) (hm : d.inMem = s.dec.inMem) (r : Word) :
    leftoverIs (d.setLeft.finish r) bs := by
  have hcount := h.count
  simp only [List.length_cons] at hcount
  have hb : d.bytesAfter = bs.length := by rw [Decoder.bytesAfter_some hw]; omega
  refine ⟨by simp [hb], ?_⟩
  simp only [Decoder.finish_inMem, Decoder.setLeft_inMem, Decoder.finish_leftOff, Decoder.setLeft_leftOff,
    Decoder.finish_leftLen, Decoder.setLeft_leftLen, hb, hm]
  cases bs with
  | nil => simp [bytesAt]
  | cons c cs =>
    have := (bytesAt_cons.mp h.bytes).2
    simpa [Decoder.addressAfter_some hw] using this

/-- What the loop leaves: the registers of the parse, OUT_MEM with its appends, and the rest of the decoder as it was. -/
structure LoopLeaves (s : State) (d : Decoder) (e : ParseEnd) (ws : List (Nat × Byte)) : Prop where
  result : parseResult s.cfg d e
  out : d.outMem = storeAll s.dec.outMem ws
  lastT : d.lastT = s.dec.lastT
  inMem : d.inMem = s.dec.inMem
  closed : d.window = none

/-- The parser's payload fits the buffer. -/
def parserFits (capacity : Nat) : Parser → Prop
  | .idle => True
  | .inFrame p => p.length ≤ capacity
  | .escaped p => p.length ≤ capacity

theorem parserFits_of_matches {c : Config} {d : Decoder} {st : Parser} (h : d.wp ≤ c.capacity) (hm : parserMatches d st) :
    parserFits c.capacity st := by
  cases st with
  | idle => trivial
  | inFrame p => simpa only [parserFits, ← hm.2.1] using h
  | escaped p => simpa only [parserFits, ← hm.2.1] using h

/-- One turn of the loop that goes on, and the loop after it, give what the loop gives. -/
theorem loop_goes_on {s t : State} {w : Window} {b : Byte} {bs : List Byte} {e : ParseEnd} {ws : List (Nat × Byte)}
    (h : WindowHolds s w (b :: bs)) (hstep : interpretByte b s = .next t)
    (hrest : ∃ d, runWindow (bs.length + 1) t = .next (t.setDec d) ∧ LoopLeaves t d e ws)
    (ht : t = s.setDec t.dec) (hT : t.dec.lastT = s.dec.lastT) (hm : t.dec.inMem = s.dec.inMem)
    {ws' : List (Nat × Byte)} (hws : storeAll t.dec.outMem ws = storeAll s.dec.outMem ws') :
    ∃ d, runWindow ((b :: bs).length + 1) s = .next (s.setDec d) ∧ LoopLeaves s d e ws' := by
  obtain ⟨d, hrun, hd⟩ := hrest
  have hcfg : t.cfg = s.cfg := by rw [ht]; rfl
  refine ⟨d, ?_, ⟨hcfg ▸ hd.result, by rw [hd.out, hws], by rw [hd.lastT, hT], by rw [hd.inMem, hm], hd.closed⟩⟩
  rw [List.length_cons, runWindow_succ h.window, h.step, hstep, andThen_next, hrun, ht]
  rfl

/-- One turn of the loop that ends the transaction is the whole loop. -/
theorem loop_ends {s : State} {d : Decoder} {w : Window} {b : Byte} {bs : List Byte} {e : ParseEnd}
    (h : WindowHolds s w (b :: bs)) (hstep : interpretByte b s = .next (s.setDec d)) (hd : LoopLeaves s d e []) :
    ∃ d, runWindow ((b :: bs).length + 1) s = .next (s.setDec d) ∧ LoopLeaves s d e [] := by
  refine ⟨d, ?_, hd⟩
  rw [List.length_cons, runWindow_succ h.window, h.step, hstep, andThen_next]
  exact runWindow_closed (by simpa using hd.closed)

/-- The end of a frame with a payload (R81). -/
theorem endFrame_leaves {s : State} {w : Window} {b : Byte} {bs p : List Byte} (h : WindowHolds s w (b :: bs))
    (hp : p ≠ []) (hwp : s.dec.wp = p.length) (hout : bytesAt s.dec.outMem 0 s.dec.wp = some p)
    (hstep : interpretByte b s = execEndFrame s) :
    ∃ d, runWindow ((b :: bs).length + 1) s = .next (s.setDec d) ∧ LoopLeaves s d (.frameReady p bs) [] := by
  have hne : s.dec.wp ≠ 0 := by rw [hwp]; simpa using hp
  refine loop_ends h (d := (completeFrame s).dec) ?_ ⟨⟨?_, ?_, ?_, ?_, ?_⟩, ?_, ?_, ?_, ?_⟩
  · rw [hstep]; simp only [execEndFrame, hne, if_false]; rfl
  · simp
  · simpa using hwp
  · simpa [← hwp] using hout
  · exact h.leftover (d := s.dec.enter .idle) h.window rfl _
  · simp [hwp]
  · simp [storeAll]
  · simp
  · simp
  · simp

/-- A decoder error (R109). -/
theorem raiseError_leaves {s u : State} {w : Window} {b : Byte} {bs : List Byte} (h : WindowHolds s w (b :: bs))
    {r : FrameResult} (hstep : interpretByte b s = .next (raiseError r u)) (hu : u = s.setDec u.dec)
    (hw : u.dec.window = some w) (hm : u.dec.inMem = s.dec.inMem) (ho : u.dec.outMem = s.dec.outMem)
    (hT : u.dec.lastT = s.dec.lastT) {e : ParseEnd}
    (he : ∀ d : Decoder, d.dstate = .idle → d.wp = 0 → leftoverIs d bs → d.res = resultWord s.cfg r → parseResult s.cfg d e) :
    ∃ d, runWindow ((b :: bs).length + 1) s = .next (s.setDec d) ∧ LoopLeaves s d e [] := by
  have hcfg : u.cfg = s.cfg := by rw [hu]; rfl
  refine loop_ends h (d := (raiseError r u).dec) ?_ ⟨he _ ?_ ?_ ?_ ?_, ?_, ?_, ?_, ?_⟩
  · rw [hstep]
    congr 1
    rw [hu]
    rfl
  · simp
  · simp
  · exact h.leftover (d := u.dec.resetEffect) (by simpa using hw) (by simpa using hm) _
  · simp [hcfg]
  · simp [storeAll, ho]
  · simp [hT]
  · simp [hm]
  · simp

/-- Appending one byte and going on (R86). -/
theorem append_goes_on {s u : State} {w : Window} {b c : Byte} {bs p : List Byte} {e : ParseEnd} {ws : List (Nat × Byte)}
    (h : WindowHolds s w (b :: bs)) (hstep : interpretByte b s = append c u) (hu : u = s.setDec (s.dec.enter .inFrame))
    (hwp : s.dec.wp = p.length) (hout : bytesAt s.dec.outMem 0 s.dec.wp = some p) (hroom : p.length < s.cfg.capacity)
    (ih : ∀ (t : State) (w : Window), WindowHolds t w bs → parserMatches t.dec (.inFrame (p ++ [c])) → t.cfg = s.cfg →
      ∃ d, runWindow (bs.length + 1) t = .next (t.setDec d) ∧ LoopLeaves t d e ws) :
    ∃ d, runWindow ((b :: bs).length + 1) s = .next (s.setDec d) ∧ LoopLeaves s d e ((p.length, c) :: ws) := by
  subst hu
  have hlt : (s.setDec (s.dec.enter .inFrame)).dec.wp < (s.setDec (s.dec.enter .inFrame)).cfg.capacity := by
    simpa [hwp] using hroom
  rw [append_of_room hlt] at hstep
  refine loop_goes_on h hstep (ih _ { w with pos := w.pos + 1 } ?_ ⟨?_, ?_, ?_⟩ ?_) rfl ?_ ?_ ?_
  · exact h.advance (by simp [h.window]) (by simp) rfl (by simpa using h.no_left)
  · simp
  · simp [hwp]
  · have := bytesAt_memWrite_next hout c
    simpa using this
  · rfl
  · simp
  · simp
  · simp [storeAll, hwp]

/-- THE LOOP PARSES ITS BYTES (R79 with R80 to R87). -/
theorem runWindow_parses (bs : List Byte) : ∀ (s : State) (w : Window) (st : Parser),
    WindowHolds s w bs → parserMatches s.dec st → parserFits s.cfg.capacity st →
    ∃ d, runWindow (bs.length + 1) s = .next (s.setDec d)
      ∧ LoopLeaves s d (parse s.cfg.capacity st bs) (parseStores s.cfg.capacity st bs) := by
  induction bs with
  | nil =>
    intro s w st h hm _
    refine ⟨(endTransaction .needMoreData s).dec, ?_, ⟨?_, ?_, ?_, ?_, ?_⟩⟩
    · rw [List.length_nil, runWindow_succ h.window, windowStep_exhausted (by have := h.count; simp at this; omega)]
      rfl
    · have hr : (endTransaction .needMoreData s).dec.res = 0#32 := rfl
      have hl : leftoverIs (endTransaction .needMoreData s).dec [] := by
        refine ⟨by simpa using h.no_left, ?_⟩
        simp [h.no_left, bytesAt]
      cases st with
      | idle => simp only [parse]; exact ⟨by simpa [parserMatches] using hm, hl, hr⟩
      | inFrame p => simp only [parse]; exact ⟨by simpa [parserMatches] using hm, hl, hr⟩
      | escaped p => simp only [parse]; exact ⟨by simpa [parserMatches] using hm, hl, hr⟩
    · cases st <;> simp [parseStores, storeAll]
    · simp
    · simp
    · simp
  | cons b bs ih =>
    intro s w st h hm hf
    -- a byte that only moves DSTATE
    have moves : ∀ (t : State) (st' : Parser), interpretByte b s = .next t → t = s.setDec t.dec →
        t.dec.window = some { w with pos := w.pos + 1 } → t.dec.inMem = s.dec.inMem → t.dec.leftLen = s.dec.leftLen →
        t.dec.outMem = s.dec.outMem → t.dec.lastT = s.dec.lastT → parserMatches t.dec st' →
        parserFits s.cfg.capacity st' →
        ∃ d, runWindow ((b :: bs).length + 1) s = .next (s.setDec d)
          ∧ LoopLeaves s d (parse s.cfg.capacity st' bs) (parseStores s.cfg.capacity st' bs) := by
      intro t st' hstep ht hw hmem hl ho hT hm' hf'
      have hcfg : t.cfg = s.cfg := by rw [ht]; rfl
      have := ih t { w with pos := w.pos + 1 } st' (h.advance hw hmem hcfg (by rw [hl, h.no_left])) hm' (hcfg ▸ hf')
      rw [hcfg] at this
      exact loop_goes_on h hstep this ht hT hmem (by rw [ho])
    cases st with
    | idle =>
      have hd : s.dec.dstate = .idle := hm
      have hstep := interpretByte_idle (b := b) hd
      simp only [parse, parseStores]
      split
      · next hb =>
        rw [if_pos hb] at hstep
        exact moves _ (.inFrame []) hstep rfl (by simp [h.window]) (by simp) (by simp) (by simp) (by simp)
          ⟨by simp, by simp, by simp [bytesAt]⟩ (by simp [parserFits])
      · next hb =>
        rw [if_neg hb] at hstep
        exact moves _ .idle hstep rfl (by simp [h.window]) (by simp) (by simp) (by simp) (by simp)
          (by simpa [parserMatches] using hd) trivial
    | inFrame p =>
      obtain ⟨hd, hwp, hout⟩ := hm
      have hstep := interpretByte_inFrame (b := b) hd
      simp only [parse, parseStores]
      by_cases hb : b = startEnd
      · simp only [hb, if_true] at hstep ⊢
        by_cases hp : p = []
        · subst hp
          simp only [if_true]
          have h0 : s.dec.wp = 0 := by simpa using hwp
          rw [execEndFrame, if_pos h0] at hstep
          rw [← hb] at hstep ⊢
          exact moves _ (.inFrame []) hstep rfl (by simp [h.window]) (by simp) (by simp) (by simp) (by simp)
            ⟨by simp, by simp [h0], by simp [h0, bytesAt]⟩ (by simp [parserFits])
        · simp only [hp, if_false]
          rw [← hb] at hstep ⊢
          exact endFrame_leaves h hp hwp hout hstep
      · simp only [hb, if_false] at hstep ⊢
        by_cases he : b = escapeByte
        · simp only [he, if_true] at hstep ⊢
          rw [← he] at hstep ⊢
          exact moves _ (.escaped p) hstep rfl (by simp [h.window]) (by simp) (by simp) (by simp) (by simp)
            ⟨by simp, by simpa using hwp, by simpa using hout⟩ hf
        · simp only [he, if_false] at hstep ⊢
          have hself : s = s.setDec (s.dec.enter .inFrame) := by
            cases s with | mk => simp only [State.setDec, Decoder.enter]; simp only at hd; rw [← hd]
          by_cases hc : p.length = s.cfg.capacity
          · simp only [hc, if_true]
            have hfull : s.dec.wp = s.cfg.capacity := by rw [hwp, hc]
            rw [execData, append_of_full hfull] at hstep
            exact raiseError_leaves h hstep rfl h.window rfl rfl rfl fun d h1 h2 h3 h4 => ⟨h1, h2, h3, h4⟩
          · simp only [hc, if_false]
            have hroom : p.length < s.cfg.capacity := by have : p.length ≤ s.cfg.capacity := hf; omega
            exact append_goes_on h hstep hself hwp hout hroom fun t w' ht hmt hct => by
              have := ih t w' _ ht hmt (by simp [parserFits, hct]; omega)
              rwa [hct] at this
    | escaped p =>
      obtain ⟨hd, hwp, hout⟩ := hm
      have hstep := interpretByte_escaped (b := b) hd
      simp only [parse, parseStores]
      by_cases hb : b = startEnd
      · simp only [hb, if_true] at hstep ⊢
        by_cases hp : p = []
        · subst hp
          simp only [if_true]
          have h0 : s.dec.wp = 0 := by simpa using hwp
          rw [execEndFrame, if_pos h0] at hstep
          rw [← hb] at hstep ⊢
          exact moves _ (.inFrame []) hstep rfl (by simp [h.window]) (by simp) (by simp) (by simp) (by simp)
            ⟨by simp, by simp [h0], by simp [h0, bytesAt]⟩ (by simp [parserFits])
        · simp only [hp, if_false]
          rw [← hb] at hstep ⊢
          exact endFrame_leaves h hp hwp hout hstep
      · simp only [hb, if_false] at hstep ⊢
        -- an escaped successor appends its decoded byte
        have appends : ∀ c : Byte, interpretByte b s = append c (s.setDec (s.dec.enter .inFrame)) →
            ∃ d, runWindow ((b :: bs).length + 1) s = .next (s.setDec d)
              ∧ LoopLeaves s d
                  (if p.length = s.cfg.capacity then .overflow bs else parse s.cfg.capacity (.inFrame (p ++ [c])) bs)
                  (if p.length = s.cfg.capacity then []
                    else (p.length, c) :: parseStores s.cfg.capacity (.inFrame (p ++ [c])) bs) := by
          intro c hstep
          by_cases hc : p.length = s.cfg.capacity
          · simp only [hc, if_true]
            have hfull : (s.setDec (s.dec.enter .inFrame)).dec.wp = (s.setDec (s.dec.enter .inFrame)).cfg.capacity := by
              simp [hwp, hc]
            rw [append_of_full hfull] at hstep
            exact raiseError_leaves h hstep rfl h.window rfl rfl rfl fun d h1 h2 h3 h4 => ⟨h1, h2, h3, h4⟩
          · simp only [hc, if_false]
            have hroom : p.length < s.cfg.capacity := by have : p.length ≤ s.cfg.capacity := hf; omega
            exact append_goes_on h hstep rfl hwp hout hroom fun t w' ht hmt hct => by
              have := ih t w' _ ht hmt (by simp [parserFits, hct]; omega)
              rwa [hct] at this
        by_cases he : b = escapedStartEnd
        · simp only [he, if_true] at hstep ⊢
          rw [← he] at hstep ⊢
          exact appends startEnd hstep
        · simp only [he, if_false] at hstep ⊢
          by_cases he' : b = escapedEscape
          · simp only [he', if_true] at hstep ⊢
            rw [← he'] at hstep ⊢
            exact appends escapeByte hstep
          · simp only [he', if_false] at hstep ⊢
            exact raiseError_leaves h hstep rfl h.window rfl rfl rfl fun d h1 h2 h3 h4 => ⟨h1, h2, h3, h4⟩

/-! ## The whole transaction -/

/-- What stands before the byte loop: the decoder after the timeout test (R77), LAST_T written (R78), the cursor at 0. -/
theorem openWindow_eq (base len t : Nat) (s : State) :
    openWindow base len t s
      = s.setDec ((if timedOut s.cfg t s.dec.lastT then s.dec.resetEffect else s.dec).openAt base len t) := by
  unfold openWindow timeoutTest
  split <;> rfl

/-- After the timeout test the decoder holds IDLE if the timeout fired, and what it held otherwise (R77). -/
theorem parserMatches_openWindow {s : State} {st : Parser} (base len t : Nat) (hm : parserMatches s.dec st) :
    parserMatches (openWindow base len t s).dec (if timedOut s.cfg t s.dec.lastT then .idle else st) := by
  rw [openWindow_eq]
  split
  · simp [parserMatches]
  · cases st <;> simpa [parserMatches] using hm

/-- PROCESS_WINDOW (R79) on a written window with no leftover: it completes, and parses the window's bytes. -/
theorem processWindow_parses {s : State} {base len t : Nat} {bs : List Byte} {st : Parser}
    (hwp : s.dec.wp ≤ s.cfg.capacity) (hin : base + len ≤ s.cfg.inMemSize) (hb : bytesAt s.dec.inMem base len = some bs)
    (hl : s.dec.leftLen = 0) (hm : parserMatches s.dec st) :
    ∃ d, processWindow base len t s = .next (s.setDec d)
      ∧ parseResult s.cfg d (parse s.cfg.capacity (if timedOut s.cfg t s.dec.lastT then .idle else st) bs)
      ∧ d.outMem = storeAll s.dec.outMem
          (parseStores s.cfg.capacity (if timedOut s.cfg t s.dec.lastT then .idle else st) bs)
      ∧ d.lastT = t ∧ d.inMem = s.dec.inMem ∧ d.window = none := by
  have hlen := bytesAt_length hb
  subst hlen
  have hM := parserMatches_openWindow base bs.length t hm
  have hc : (openWindow base bs.length t s).cfg = s.cfg := by rw [openWindow_eq]; rfl
  have hI : (openWindow base bs.length t s).dec.inMem = s.dec.inMem := by rw [openWindow_eq]; split <;> rfl
  have hO : (openWindow base bs.length t s).dec.outMem = s.dec.outMem := by rw [openWindow_eq]; split <;> rfl
  have hT : (openWindow base bs.length t s).dec.lastT = t := by rw [openWindow_eq]; rfl
  have hF : parserFits s.cfg.capacity (if timedOut s.cfg t s.dec.lastT then .idle else st) := by
    split
    · trivial
    · exact parserFits_of_matches hwp hm
  have hH : WindowHolds (openWindow base bs.length t s) ⟨base, bs.length, 0⟩ bs := by
    refine ⟨by rw [openWindow_eq]; rfl, by simp, by simpa [hc] using hin, by simpa [hI] using hb, ?_⟩
    rw [openWindow_eq]
    split <;> simp [hl]
  obtain ⟨d, hr, hd⟩ := runWindow_parses bs _ _ _ hH hM (by rw [hc]; exact hF)
  rw [hc] at hd
  refine ⟨d, ?_, hc ▸ hd.result, by rw [hd.out, hO], by rw [hd.lastT, hT], by rw [hd.inMem, hI], hd.closed⟩
  rw [processWindow, hr, openWindow_eq]
  rfl

end Sys2Proof.Machine
end

