-- ==== Sys2Proof/Laws/Encoder.lean ====
section
/-! SUPPORT. The encoder: what writing to SCRATCH, a flush, one payload byte and the payload loop do, and that the loop presents the chunks of cutBody one after another. -/

namespace Sys2Proof.Machine

/-- SCRATCH with `cur` in front, at EPOS: the bytes for the next flush (R32). -/
structure ScratchHolds (c : Config) (e : Encoder) (cur : List Byte) : Prop where
  count : e.epos = cur.length
  room : e.epos ≤ c.chunkSize
  bytes : bytesAt e.scratch 0 e.epos = some cur

/-- All registers of the encoder but SCRATCH, EPOS, EJ and the wait are as they were, and SCRATCH is so from `k` on. -/
structure EncodeKeeps (e e' : Encoder) : Prop where
  busy : e'.busy = e.busy
  res : e'.res = e.res
  sendErr : e'.sendErr = e.sendErr
  len : e'.len = e.len
  payMem : e'.payMem = e.payMem

theorem EncodeKeeps.refl (e : Encoder) : EncodeKeeps e e := ⟨rfl, rfl, rfl, rfl, rfl⟩

theorem EncodeKeeps.trans {e f g : Encoder} (h : EncodeKeeps e f) (h' : EncodeKeeps f g) : EncodeKeeps e g :=
  ⟨h'.busy.trans h.busy, h'.res.trans h.res, h'.sendErr.trans h.sendErr, h'.len.trans h.len, h'.payMem.trans h.payMem⟩

/-- What SCRATCH keeps when bytes were written up to EPOS: everything from EPOS on, the canonical form, its size, and written bytes. -/
structure ScratchKeeps (c : Config) (e e' : Encoder) : Prop where
  beyond : ∀ a, e.epos ≤ a → e'.epos ≤ a → memRead e'.scratch a = memRead e.scratch a
  wf : Memory.wf e.scratch = true → Memory.wf e'.scratch = true
  within : Memory.within c.chunkSize e.scratch = true → Memory.within c.chunkSize e'.scratch = true
  written : ∀ a, memRead e.scratch a ≠ none → memRead e'.scratch a ≠ none

theorem ScratchKeeps.of_eq {c : Config} {e e' : Encoder} (h : e'.scratch = e.scratch) : ScratchKeeps c e e' :=
  ⟨fun _ _ _ => by rw [h], fun h' => h ▸ h', fun h' => h ▸ h', fun _ h' => h ▸ h'⟩

/-- Writes one after another, EPOS never moving back. -/
theorem ScratchKeeps.trans {c : Config} {e f g : Encoder} (h : ScratchKeeps c e f) (h' : ScratchKeeps c f g)
    (hm : f.epos ≤ g.epos) : ScratchKeeps c e g :=
  ⟨fun a ha hg => by rw [h'.beyond a (by omega) hg, h.beyond a ha (by omega)],
    fun x => h'.wf (h.wf x), fun x => h'.within (h.within x), fun a x => h'.written a (h.written a x)⟩

/-- Writing bytes to SCRATCH, where they fit (R95). -/
theorem writeScratch_spec (bs : List Byte) : ∀ {s : State} {cur : List Byte}, ScratchHolds s.cfg s.enc cur →
    cur.length + bs.length ≤ s.cfg.chunkSize →
    ∃ e, writeScratch bs s = .next (s.setEnc e) ∧ ScratchHolds s.cfg e (cur ++ bs) ∧ EncodeKeeps s.enc e
      ∧ ScratchKeeps s.cfg s.enc e ∧ e.ej = s.enc.ej ∧ e.wait = s.enc.wait := by
  induction bs with
  | nil =>
    intro s cur h _
    exact ⟨s.enc, rfl, by simpa using h, .refl _, .of_eq rfl, rfl, rfl⟩
  | cons b bs ih =>
    intro s cur h hroom
    have hc := h.count
    simp only [List.length_cons] at hroom
    have hlt : s.enc.epos < s.cfg.chunkSize := by omega
    have h1 : ScratchHolds (s.setEnc (s.enc.wrote (memWrite s.enc.scratch s.enc.epos b))).cfg
        (s.setEnc (s.enc.wrote (memWrite s.enc.scratch s.enc.epos b))).enc (cur ++ [b]) := by
      refine ⟨by simp [hc], by simp; omega, ?_⟩
      have := bytesAt_memWrite_next h.bytes b
      simpa using this
    obtain ⟨e, he, hh, hk, hs, hej, hw⟩ := ih h1 (by simp; omega)
    have hmono : s.enc.epos + 1 ≤ e.epos := by have := hh.count; simp at this; omega
    refine ⟨e, ?_, by simpa using hh, ⟨hk.busy, hk.res, hk.sendErr, hk.len, hk.payMem⟩, ?_, hej, hw⟩
    · simp only [writeScratch, storeByte_of_lt hlt, orFault_ok, he]; rfl
    · refine ScratchKeeps.trans (f := s.enc.wrote (memWrite s.enc.scratch s.enc.epos b)) ⟨?_, ?_, ?_, ?_⟩ hs (by simpa using hmono)
      · intro a _ ha
        exact memRead_memWrite_other _ _ (by simp at ha; omega)
      · exact fun x => Memory.wf_memWrite x _ _
      · exact fun x => Memory.within_memWrite x hlt _
      · intro a ha
        simp only [Encoder.wrote_scratch, memRead_memWrite]
        split <;> simp [ha]

/-- A flush presents what SCRATCH holds (R99). -/
theorem flush_spec {s : State} {cur : List Byte} (p : FlushPoint) (h : ScratchHolds s.cfg s.enc cur) :
    flush p s = .next ((s.pushChunk cur).setEnc (s.enc.waitAt p)) := by
  have hl : loadBytes s.cfg.chunkSize s.enc.scratch 0 s.enc.epos = .ok cur :=
    loadBytes_ok.mpr ⟨h.bytes, Or.inr (by have := h.room; omega)⟩
  simp [flush, hl]

theorem escape_length (b : Byte) : 1 ≤ (escape b).length ∧ (escape b).length ≤ 2 := by
  unfold escape
  split
  · simp
  · split <;> simp

/-- The chunks still to come once the flush the encoder waits in succeeds (R95, R99). -/
def chunksAfter (c : Config) (e : Encoder) (cs : List (List Byte)) : Prop :=
  match e.wait with
  | none => False
  | some .body => ∃ b bs, bytesAt e.payMem e.ej (e.len - e.ej) = some (b :: bs) ∧ cs = cutBody c.chunkSize (escape b) bs
  | some .closing => e.ej = e.len ∧ e.epos = c.chunkSize ∧ cs = [[startEnd]]
  | some .final => e.ej = e.len ∧ cs = []

/-- The same chunks, as a function of the encoder. -/
theorem chunksToCome_of_after {c : Config} {e : Encoder} {cs : List (List Byte)} (h : chunksAfter c e cs) :
    chunksToCome c e = cs := by
  unfold chunksAfter at h
  unfold chunksToCome
  cases hw : e.wait with
  | none => rw [hw] at h; exact h.elim
  | some p =>
    rw [hw] at h
    cases p with
    | body => obtain ⟨b, bs, hb, rfl⟩ := h; simp only [hb]
    | closing => exact h.2.2.symm
    | final => exact h.2.symm

/-- A stretch of the encoder up to its next flush: the chunk presented, the chunks after it, and what it leaves alone. -/
structure Presents (s : State) (e : Encoder) (chunk : List Byte) (cs : List (List Byte)) : Prop where
  holds : ScratchHolds s.cfg e chunk
  after : chunksAfter s.cfg e cs
  some_byte : 1 ≤ e.epos
  ej_le : e.ej ≤ e.len
  body_full : e.wait = some .body → s.cfg.chunkSize ≤ e.epos + 1
  keeps : EncodeKeeps s.enc e
  scratch : ScratchKeeps s.cfg s.enc e

/-- The end of a frame: the closing delimiter and the last flush (R98). -/
theorem finalChunk_spec {s : State} {cur : List Byte} (h : ScratchHolds s.cfg s.enc cur) (hroom : cur.length < s.cfg.chunkSize)
    (hej : s.enc.ej = s.enc.len) :
    ∃ e, finalChunk s = .next ((s.pushChunk (cur ++ [startEnd])).setEnc e) ∧ Presents s e (cur ++ [startEnd]) [] := by
  obtain ⟨e, he, hh, hk, hs, hj, -⟩ := writeScratch_spec [startEnd] h (by simp; omega)
  have hh' : ScratchHolds (s.setEnc e).cfg (s.setEnc e).enc (cur ++ [startEnd]) := hh
  have hlen : (e.waitAt .final).ej = (e.waitAt .final).len := by
    simp only [Encoder.waitAt_ej, Encoder.waitAt_len, hj, hk.len, hej]
  refine ⟨e.waitAt .final, ?_, ⟨?_, ?_, ?_, ?_, ?_, ?_, ?_⟩⟩
  · simp only [finalChunk, he, andThen_next, flush_spec .final hh']; rfl
  · exact ⟨hh.count, hh.room, hh.bytes⟩
  · exact ⟨hlen, rfl⟩
  · have := hh.count; simp at this; simp; omega
  · exact Nat.le_of_eq hlen
  · simp
  · exact ⟨hk.busy, hk.res, hk.sendErr, hk.len, hk.payMem⟩
  · exact ⟨hs.beyond, hs.wf, hs.within, hs.written⟩

/-- After the last payload byte (R97). -/
theorem closeFrame_spec {s : State} {cur : List Byte} (h : ScratchHolds s.cfg s.enc cur) (h1 : 1 ≤ cur.length)
    (hej : s.enc.ej = s.enc.len) :
    ∃ e chunk cs, closeFrame s = .next ((s.pushChunk chunk).setEnc e) ∧ cutBody s.cfg.chunkSize cur [] = chunk :: cs
      ∧ Presents s e chunk cs ∧ s.enc.epos ≤ e.epos := by
  have hc := h.count
  have hr := h.room
  by_cases hfull : s.cfg.chunkSize - cur.length < 1
  · refine ⟨s.enc.waitAt .closing, cur, [[startEnd]], ?_, ?_, ⟨⟨hc, hr, h.bytes⟩, ⟨hej, by simp; omega, rfl⟩, ?_, ?_, ?_, ?_, ?_⟩, ?_⟩
    · have : scratchRoom s < 1 := by unfold scratchRoom; omega
      simp only [closeFrame, this, if_true, flush_spec .closing h]
    · simp [cutBody, hfull]
    · simp; omega
    · simp [hej]
    · simp
    · exact ⟨rfl, rfl, rfl, rfl, rfl⟩
    · exact .of_eq rfl
    · simp
  · obtain ⟨e, he, hp⟩ := finalChunk_spec h (by omega) hej
    refine ⟨e, _, [], ?_, ?_, hp, ?_⟩
    · have : ¬ scratchRoom s < 1 := by unfold scratchRoom; omega
      simp only [closeFrame, this, if_false, he]
    · simp [cutBody, hfull]
    · have := hp.holds.count; simp at this; omega

/-- One payload byte (R96), with room for it. -/
theorem encodeByte_spec {s : State} {cur : List Byte} {b : Byte} (h : ScratchHolds s.cfg s.enc cur)
    (hb : memRead s.enc.payMem s.enc.ej = some b) (hp : s.enc.ej < s.cfg.payMemSize)
    (hroom : cur.length + 2 ≤ s.cfg.chunkSize) :
    ∃ e, encodeByte s = .next (s.setEnc e) ∧ ScratchHolds s.cfg e (cur ++ escape b) ∧ EncodeKeeps s.enc e
      ∧ ScratchKeeps s.cfg s.enc e ∧ e.ej = s.enc.ej + 1 ∧ e.wait = s.enc.wait := by
  have hl : loadByte s.cfg.payMemSize s.enc.payMem s.enc.ej = .ok b := loadByte_ok.mpr ⟨hp, hb⟩
  have hesc := escape_length b
  obtain ⟨e, he, hh, hk, hs, hj, hw⟩ := writeScratch_spec (escape b) h (by omega)
  refine ⟨e.nextByte, ?_, ⟨hh.count, hh.room, hh.bytes⟩, ⟨hk.busy, hk.res, hk.sendErr, hk.len, hk.payMem⟩,
    ⟨hs.beyond, hs.wf, hs.within, hs.written⟩, by simp [hj], by simp [hw]⟩
  simp only [encodeByte, hl, orFault_ok, he, andThen_next]
  rfl

/-- THE PAYLOAD LOOP PRESENTS THE NEXT CHUNK OF THE CUT (R95 to R98). -/
theorem encodeBody_spec (bs : List Byte) : ∀ {s : State} {cur : List Byte}, ScratchHolds s.cfg s.enc cur → 1 ≤ cur.length →
    3 ≤ s.cfg.chunkSize → s.enc.ej + bs.length = s.enc.len → s.enc.len ≤ s.cfg.payMemSize →
    bytesAt s.enc.payMem s.enc.ej bs.length = some bs →
    ∃ e chunk cs, encodeBody bs.length s = .next ((s.pushChunk chunk).setEnc e)
      ∧ cutBody s.cfg.chunkSize cur bs = chunk :: cs ∧ Presents s e chunk cs ∧ s.enc.epos ≤ e.epos := by
  induction bs with
  | nil =>
    intro s cur h h1 _ hj _ _
    exact closeFrame_spec h h1 (by simpa using hj)
  | cons b bs ih =>
    intro s cur h h1 h3 hj hp hby
    simp only [List.length_cons] at hj hby
    have hc := h.count
    have hr := h.room
    by_cases hroom : s.cfg.chunkSize - cur.length < 2
    · refine ⟨s.enc.waitAt .body, cur, cutBody s.cfg.chunkSize (escape b) bs, ?_, ?_,
        ⟨⟨hc, hr, h.bytes⟩, ⟨b, bs, ?_, rfl⟩, ?_, ?_, ?_, ⟨rfl, rfl, rfl, rfl, rfl⟩, .of_eq rfl⟩, ?_⟩
      · have : scratchRoom s < 2 := by unfold scratchRoom; omega
        simp only [List.length_cons, encodeBody, this, if_true, flush_spec .body h]
      · simp [cutBody, hroom]
      · rw [Encoder.waitAt_payMem, Encoder.waitAt_ej, Encoder.waitAt_len, show s.enc.len - s.enc.ej = bs.length + 1 by omega]
        exact hby
      · simp; omega
      · simp; omega
      · simp; omega
      · simp
    · obtain ⟨hb, hrest⟩ := bytesAt_cons.mp hby
      obtain ⟨e, he, hh, hk, hs, hej, hw⟩ := encodeByte_spec h hb (by omega) (by omega)
      have hesc := escape_length b
      obtain ⟨e', chunk, cs, h1', h2', h3', h4'⟩ := ih (s := s.setEnc e) (cur := cur ++ escape b) hh (by simp; omega)
        (by simpa using h3) (by simp [hej, hk.len]; omega) (by simpa [hk.len] using hp) (by simpa [hej, hk.payMem] using hrest)
      have hcount := hh.count
      simp only [List.length_append] at hcount
      simp only [State.setEnc_enc] at h4'
      refine ⟨e', chunk, cs, ?_, ?_, ⟨h3'.holds, h3'.after, h3'.some_byte, h3'.ej_le, h3'.body_full, hk.trans h3'.keeps,
        hs.trans h3'.scratch h4'⟩, by omega⟩
      · have : ¬ scratchRoom s < 2 := by unfold scratchRoom; omega
        simp only [List.length_cons, encodeBody, this, if_false, he, andThen_next, h1']
        rfl
      · simpa [cutBody, hroom] using h2'

/-- What a successful answer leads to when chunks are still to come (R95): the next of them is presented. -/
theorem afterFlush_spec {s : State} {p : FlushPoint} {c : List Byte} {cs : List (List Byte)}
    (hp : s.enc.wait = some p) (ha : chunksAfter s.cfg s.enc (c :: cs)) (h3 : 3 ≤ s.cfg.chunkSize)
    (hl : s.enc.len ≤ s.cfg.payMemSize) (hj : s.enc.ej ≤ s.enc.len) :
    ∃ e, afterFlush p s = .next ((s.pushChunk c).setEnc e) ∧ Presents (s.setEnc s.enc.resume) e c cs := by
  have h0 : ScratchHolds (s.setEnc s.enc.resume).cfg (s.setEnc s.enc.resume).enc [] := ⟨rfl, by simp, by simp [bytesAt]⟩
  unfold chunksAfter at ha
  rw [hp] at ha
  cases p with
  | body =>
    obtain ⟨b, bs, hby, hcs⟩ := ha
    have hn : s.enc.len - s.enc.ej = bs.length + 1 := by have := bytesAt_length hby; simpa using this.symm
    rw [hn] at hby
    obtain ⟨hb, hrest⟩ := bytesAt_cons.mp hby
    have hesc := escape_length b
    obtain ⟨e, he, hh, hk, hs, hej, -⟩ := encodeByte_spec h0 (b := b) (by simpa using hb) (by simp; omega) (by simp; omega)
    have hh' : ScratchHolds ((s.setEnc s.enc.resume).setEnc e).cfg ((s.setEnc s.enc.resume).setEnc e).enc (escape b) := by
      simpa using hh
    obtain ⟨e', chunk, cs', h1', h2', h3', h4'⟩ := encodeBody_spec bs hh' (by omega) (by simpa using h3)
      (by simp [hej, hk.len]; omega) (by simpa [hk.len] using hl) (by simpa [hej, hk.payMem] using hrest)
    have heq : c :: cs = chunk :: cs' := by rw [hcs, ← h2']; rfl
    obtain ⟨rfl, rfl⟩ := List.cons.inj heq
    refine ⟨e', ?_, ⟨h3'.holds, h3'.after, h3'.some_byte, h3'.ej_le, h3'.body_full, hk.trans h3'.keeps,
      hs.trans h3'.scratch h4'⟩⟩
    have hfuel : ((s.setEnc s.enc.resume).setEnc e).enc.len - ((s.setEnc s.enc.resume).setEnc e).enc.ej = bs.length := by
      have := hk.len
      simp [hej, this]; omega
    simp only [afterFlush, he, andThen_next, encodeRest, hfuel, h1']
    rfl
  | closing =>
    obtain ⟨hej, -, hcs⟩ := ha
    obtain ⟨rfl, rfl⟩ := List.cons.inj hcs
    obtain ⟨e, he, hpres⟩ := finalChunk_spec h0 (by simp; omega) (by simpa using hej)
    exact ⟨e, by simp only [afterFlush, he]; rfl, by simpa using hpres⟩
  | final =>
    obtain ⟨-, hcs⟩ := ha
    cases hcs

/-- With no chunk to come, the flush the encoder waits in is the final one. -/
theorem wait_of_chunksAfter_nil {c : Config} {e : Encoder} (h : chunksAfter c e []) : e.wait = some .final := by
  unfold chunksAfter at h
  split at h
  · exact h.elim
  · obtain ⟨b, bs, -, hcs⟩ := h
    exfalso
    have key : ∀ (n : Nat) (cur bs : List Byte), cutBody n cur bs ≠ [] := by
      intro n cur bs
      induction bs generalizing cur with
      | nil => simp only [cutBody]; split <;> simp
      | cons b bs ih =>
        simp only [cutBody]
        split
        · simp
        · exact ih _
    exact key _ _ _ hcs.symm
  · next hw => obtain ⟨-, -, hcs⟩ := h; cases hcs
  · next hw => exact hw

end Sys2Proof.Machine
end

