-- ==== Sys2Proof/Laws/Run.lean ====
section
/-! SUPPORT. Runs of several steps: one after another, and the host's own run. -/

namespace Sys2Proof.Machine

@[simp] theorem runSteps_zero (s : State) : runSteps 0 s = .next s := rfl

theorem runSteps_succ (n : Nat) (s : State) : runSteps (n + 1) s = andThen (step s) (runSteps n) := rfl

/-- A run of `a + b` steps is `a` steps and then `b`. -/
theorem runSteps_add (a b : Nat) (s : State) : runSteps (a + b) s = andThen (runSteps a s) (runSteps b) := by
  induction a generalizing s with
  | zero => simp
  | succ a ih =>
    rw [Nat.add_right_comm, runSteps_succ, runSteps_succ, andThen_assoc]
    congr 1
    exact funext ih

/-- What every step keeps, every run keeps. -/
theorem runSteps_keeps (P : State → Prop) (hstep : ∀ s t, P s → step s = .next t → P t) :
    ∀ n s t, P s → runSteps n s = .next t → P t := by
  intro n
  induction n with
  | zero => intro s t hs h; cases h; exact hs
  | succ n ih =>
    intro s t hs h
    obtain ⟨u, hu, ht⟩ := andThen_eq_next.mp h
    exact ih u t (hstep s u hs hu) ht

/-- runSteps is the host's Core.run of this machine. -/
theorem core_run_eq (n : Nat) : ∀ s : Sys2Proof.core.State, Host.Core.run Sys2Proof.core n s = runSteps n s := by
  induction n with
  | zero => intro s; rfl
  | succ n ih =>
    intro s
    cases h : step s with
    | next t =>
      simp only [Host.Core.run]; rw [show Sys2Proof.core.step s = .next t from h]
      simpa [runSteps, h] using ih t
    | fault f => simp only [Host.Core.run]; rw [show Sys2Proof.core.step s = .fault f from h]; simp only [runSteps, h]; rfl
    | refused r => simp only [Host.Core.run]; rw [show Sys2Proof.core.step s = .refused r from h]; simp only [runSteps, h]; rfl

end Sys2Proof.Machine
end

