-- ==== Sys2Proof/Laws/Frame.lean ====
section
/-! SUPPORT. Frames: what the decoder's operations and the encoder's leave alone, from any state; and that neither reads the other's registers (R6). -/

namespace Sys2Proof.Machine

/-! ## The decoder -/

/-- What interpreting wire bytes keeps: all but the decoder, and of the decoder IN_MEM, LAST_T, and every written byte of OUT_MEM. -/
structure LoopKeeps (s t : State) : Prop where
  alone : t = s.setDec t.dec
  inMem : t.dec.inMem = s.dec.inMem
  lastT : t.dec.lastT = s.dec.lastT
  written : ∀ a, memRead s.dec.outMem a ≠ none → memRead t.dec.outMem a ≠ none

theorem LoopKeeps.refl (s : State) : LoopKeeps s s := ⟨rfl, rfl, rfl, fun _ h => h⟩

theorem LoopKeeps.trans {s t u : State} (h : LoopKeeps s t) (h' : LoopKeeps t u) : LoopKeeps s u where
  alone := by rw [h'.alone, h.alone]; rfl
  inMem := h'.inMem.trans h.inMem
  lastT := h'.lastT.trans h.lastT
  written a ha := h'.written a (h.written a ha)

/-- A change of the decoder that keeps its memories and LAST_T. -/
theorem LoopKeeps.of_dec {s : State} {d : Decoder} (hi : d.inMem = s.dec.inMem) (hT : d.lastT = s.dec.lastT)
    (ho : d.outMem = s.dec.outMem) : LoopKeeps s (s.setDec d) :=
  ⟨rfl, hi, hT, fun a ha => by rw [State.setDec_dec, ho]; exact ha⟩

theorem append_loopKeeps {b : Byte} {s t : State} (h : append b s = .next t) : LoopKeeps s t := by
  rcases append_eq_next.mp h with ⟨_, rfl⟩ | ⟨_, rfl⟩
  · exact ⟨rfl, by simp, by simp, fun a ha => by simpa using ha⟩
  · refine ⟨rfl, by simp, by simp, fun a ha => ?_⟩
    have := memRead_memWrite_isSome s.dec.outMem s.dec.wp a b (Option.isSome_iff_ne_none.mpr ha)
    simpa using Option.isSome_iff_ne_none.mp this

/-- Every wire instruction. -/
theorem interpretByte_loopKeeps {b : Byte} {s t : State} (h : interpretByte b s = .next t) : LoopKeeps s t := by
  unfold interpretByte at h
  split at h
  · cases h; exact ⟨rfl, by simp, by simp, fun a ha => by simpa using ha⟩
  · cases h; exact ⟨rfl, by simp, by simp, fun a ha => by simpa using ha⟩
  · unfold execEndFrame at h
    split at h <;> cases h <;> exact ⟨rfl, by simp, by simp, fun a ha => by simpa using ha⟩
  · exact (LoopKeeps.of_dec (by simp) (by simp) (by simp)).trans (append_loopKeeps h)
  · exact (LoopKeeps.of_dec (by simp) (by simp) (by simp)).trans (append_loopKeeps h)
  · cases h; exact ⟨rfl, by simp, by simp, fun a ha => by simpa using ha⟩
  · cases h; exact ⟨rfl, by simp, by simp, fun a ha => by simpa using ha⟩
  · exact append_loopKeeps h

theorem windowStep_loopKeeps {w : Window} {s t : State} (h : windowStep w s = .next t) : LoopKeeps s t := by
  unfold windowStep at h
  split at h
  · obtain ⟨b, _, hb⟩ := orFault_eq_next.mp h
    exact interpretByte_loopKeeps hb
  · cases h; exact ⟨rfl, by simp, by simp, fun a ha => by simpa using ha⟩

theorem runWindow_loopKeeps {n : Nat} {s t : State} (h : runWindow n s = .next t) : LoopKeeps s t :=
  runWindow_keeps (LoopKeeps s) (fun _ _ _ hu _ hv => hu.trans (windowStep_loopKeeps hv)) n s t (LoopKeeps.refl s) h

/-- A transaction on a window: as its bytes, but that LAST_T takes the tick (R78). -/
theorem processWindow_keeps {base len t : Nat} {s u : State} (h : processWindow base len t s = .next u) :
    u = s.setDec u.dec ∧ u.dec.inMem = s.dec.inMem ∧ u.dec.lastT = t
      ∧ ∀ a, memRead s.dec.outMem a ≠ none → memRead u.dec.outMem a ≠ none := by
  have hk := runWindow_loopKeeps h
  have hal := hk.alone
  have hin := hk.inMem
  have hla := hk.lastT
  have hwr := hk.written
  rw [openWindow_eq] at hal hin hla hwr
  refine ⟨by rw [hal]; rfl, ?_, ?_, fun a ha => hwr a ?_⟩
  · rw [hin]; split <;> rfl
  · rw [hla]; split <;> rfl
  · split <;> exact ha

/-- Where the leftover ends: at the end of the window that is open, or at the address given. -/
def leftoverEnds (e : Nat) (d : Decoder) : Prop :=
  (∀ w, d.window = some w → w.base + w.len = e ∧ w.pos ≤ w.len ∧ d.leftLen = 0) ∧ (0 < d.leftLen → d.leftOff + d.leftLen = e)

theorem leftoverEnds_go {e : Nat} {d d' : Decoder} (h : leftoverEnds e d) {w : Window} (hw : d.window = some w)
    (hp : w.pos < w.len) (hw' : d'.window = some { w with pos := w.pos + 1 }) (hl : d'.leftLen = d.leftLen) : leftoverEnds e d' := by
  obtain ⟨h1, h2, h3⟩ := h.1 w hw
  refine ⟨fun v hv => ?_, fun hv => ?_⟩
  · rw [hw'] at hv; cases hv; exact ⟨h1, hp, by rw [hl, h3]⟩
  · omega

theorem leftoverEnds_stop {e : Nat} {d d' : Decoder} (h : leftoverEnds e d) {w : Window} (hw : d.window = some w)
    (hp : w.pos < w.len) (hw' : d'.window = none) (hl : d'.leftLen = d.setLeft.leftLen) (ho : d'.leftOff = d.setLeft.leftOff) :
    leftoverEnds e d' := by
  obtain ⟨h1, h2, h3⟩ := h.1 w hw
  refine ⟨fun v hv => ?_, fun hv => ?_⟩
  · rw [hw'] at hv; cases hv
  rw [hl, ho]
  rw [hl, Decoder.setLeft_leftLen, Decoder.bytesAfter_some hw] at hv
  rw [Decoder.setLeft_leftOff, Decoder.setLeft_leftLen, Decoder.bytesAfter_some hw, Decoder.addressAfter_some hw, if_pos hv]
  omega

theorem append_leftoverEnds {e : Nat} {b : Byte} {s t : State} (h : leftoverEnds e s.dec) {w : Window}
    (hw : s.dec.window = some w) (hp : w.pos < w.len) (ht : append b s = .next t) : leftoverEnds e t.dec := by
  rcases append_eq_next.mp ht with ⟨_, rfl⟩ | ⟨_, rfl⟩
  · exact leftoverEnds_stop h hw hp (by simp) (by simp [Decoder.bytesAfter]) (by simp [Decoder.bytesAfter, Decoder.addressAfter]; rfl)
  · exact leftoverEnds_go h hw hp (by simp [hw]) (by simp)

theorem windowStep_leftoverEnds {e : Nat} {w : Window} {s t : State} (h : leftoverEnds e s.dec)
    (hw : s.dec.window = some w) (ht : windowStep w s = .next t) : leftoverEnds e t.dec := by
  unfold windowStep at ht
  split at ht
  · next hp =>
    obtain ⟨b, _, hb⟩ := orFault_eq_next.mp ht
    unfold interpretByte at hb
    split at hb
    · cases hb; exact leftoverEnds_go h hw hp (by simp [hw]) (by simp)
    · cases hb; exact leftoverEnds_go h hw hp (by simp [hw]) (by simp)
    · unfold execEndFrame at hb
      split at hb
      · cases hb; exact leftoverEnds_go h hw hp (by simp [hw]) (by simp)
      · cases hb
        exact leftoverEnds_stop h hw hp (by simp) (by simp [Decoder.bytesAfter]) (by simp [Decoder.bytesAfter, Decoder.addressAfter]; rfl)
    · exact append_leftoverEnds (s := s.setDec (s.dec.enter .inFrame)) h hw hp hb
    · exact append_leftoverEnds (s := s.setDec (s.dec.enter .inFrame)) h hw hp hb
    · cases hb
      exact leftoverEnds_stop h hw hp (by simp) (by simp [Decoder.bytesAfter]) (by simp [Decoder.bytesAfter, Decoder.addressAfter]; rfl)
    · cases hb; exact leftoverEnds_go h hw hp (by simp [hw]) (by simp)
    · exact append_leftoverEnds h hw hp hb
  · cases ht
    exact ⟨fun v hv => (by cases hv), h.2⟩

theorem runWindow_leftoverEnds {e n : Nat} {s t : State} (h : leftoverEnds e s.dec) (ht : runWindow n s = .next t) :
    leftoverEnds e t.dec :=
  runWindow_keeps (fun u => leftoverEnds e u.dec) (fun _ _ _ hu hw hv => windowStep_leftoverEnds hu hw hv) n s t h ht

/-- A turn of the loop closes the window or moves its cursor on by one. -/
theorem windowStep_moves {w : Window} {s t : State} (hw : s.dec.window = some w) (ht : windowStep w s = .next t) :
    t.dec.window = none ∨ (w.pos < w.len ∧ t.dec.window = some { w with pos := w.pos + 1 }) := by
  unfold windowStep at ht
  split at ht
  · next hp =>
    obtain ⟨b, _, hb⟩ := orFault_eq_next.mp ht
    have happ : ∀ {b : Byte} {u : State}, u.dec.window = some w → append b u = .next t →
        t.dec.window = none ∨ (w.pos < w.len ∧ t.dec.window = some { w with pos := w.pos + 1 }) := by
      intro b u hu h
      rcases append_eq_next.mp h with ⟨_, rfl⟩ | ⟨_, rfl⟩
      · exact .inl (by simp)
      · exact .inr ⟨hp, by simp [hu]⟩
    unfold interpretByte at hb
    split at hb
    · cases hb; exact .inr ⟨hp, by simp [hw]⟩
    · cases hb; exact .inr ⟨hp, by simp [hw]⟩
    · unfold execEndFrame at hb
      split at hb
      · cases hb; exact .inr ⟨hp, by simp [hw]⟩
      · cases hb; exact .inl (by simp)
    · exact happ (u := s.setDec (s.dec.enter .inFrame)) hw hb
    · exact happ (u := s.setDec (s.dec.enter .inFrame)) hw hb
    · cases hb; exact .inl (by simp)
    · cases hb; exact .inr ⟨hp, by simp [hw]⟩
    · exact happ hw hb
  · cases ht; exact .inl rfl

/-- With a turn for each byte left and one more, the loop ends the transaction. -/
theorem runWindow_closes (n : Nat) : ∀ {s t : State}, (∀ w, s.dec.window = some w → w.len - w.pos < n) →
    runWindow n s = .next t → t.dec.window = none := by
  induction n with
  | zero =>
    intro s t h ht
    cases ht
    cases hw : s.dec.window with
    | none => rfl
    | some w => exact absurd (h w hw) (by omega)
  | succ n ih =>
    intro s t h ht
    cases hw : s.dec.window with
    | none => rw [runWindow_closed hw] at ht; cases ht; exact hw
    | some w =>
      rw [runWindow_succ hw] at ht
      obtain ⟨u, hu, ht⟩ := andThen_eq_next.mp ht
      refine ih (fun v hv => ?_) ht
      have := h w hw
      rcases windowStep_moves hw hu with hn | ⟨hp, hs⟩
      · rw [hn] at hv; cases hv
      · rw [hs] at hv; cases hv; simp only; omega

theorem processWindow_closes {base len t : Nat} {s u : State} (h : processWindow base len t s = .next u) :
    u.dec.window = none := by
  refine runWindow_closes (len + 1) (fun w hw => ?_) h
  rw [openWindow_eq] at hw
  split at hw <;> cases hw <;> simp only <;> omega

theorem processWindow_leftoverEnds {base len t : Nat} {s u : State} (hl : s.dec.leftLen = 0)
    (h : processWindow base len t s = .next u) : leftoverEnds (base + len) u.dec := by
  refine runWindow_leftoverEnds ?_ h
  rw [openWindow_eq]
  split
  · exact ⟨fun v hv => (by cases hv; simp), fun h => absurd h (by simp)⟩
  · exact ⟨fun v hv => (by cases hv; simp [hl]), fun h => absurd h (by simp [hl])⟩

/-! ## The encoder -/

/-- What a stretch of the encoder keeps: the decoder, all outside, the chunks already presented, the payload memory, and every
written byte of SCRATCH. -/
structure StretchKeeps (s t : State) : Prop where
  dec : t.dec = s.dec
  outside : sameOutside s t
  chunks : s.sinkOut <+: t.sinkOut
  payMem : t.enc.payMem = s.enc.payMem
  written : ∀ a, memRead s.enc.scratch a ≠ none → memRead t.enc.scratch a ≠ none

theorem StretchKeeps.refl (s : State) : StretchKeeps s s :=
  ⟨rfl, ⟨rfl, rfl, rfl, rfl, rfl⟩, List.prefix_refl _, rfl, fun _ h => h⟩

theorem StretchKeeps.trans {s t u : State} (h : StretchKeeps s t) (h' : StretchKeeps t u) : StretchKeeps s u where
  dec := h'.dec.trans h.dec
  outside := by
    obtain ⟨a, b, c, d, e⟩ := h.outside
    obtain ⟨a', b', c', d', e'⟩ := h'.outside
    exact ⟨a'.trans a, b'.trans b, c'.trans c, d'.trans d, e'.trans e⟩
  chunks := h.chunks.trans h'.chunks
  payMem := h'.payMem.trans h.payMem
  written a ha := h'.written a (h.written a ha)

/-- A change of the encoder that keeps its memories. -/
theorem StretchKeeps.of_enc {s : State} {e : Encoder} (hp : e.payMem = s.enc.payMem) (hs : e.scratch = s.enc.scratch) :
    StretchKeeps s (s.setEnc e) :=
  ⟨rfl, ⟨rfl, rfl, rfl, rfl, rfl⟩, List.prefix_refl _, hp, fun a h => by rw [State.setEnc_enc, hs]; exact h⟩

theorem writeScratch_keeps (bs : List Byte) : ∀ {s t : State}, writeScratch bs s = .next t → StretchKeeps s t := by
  induction bs with
  | nil => intro s t h; cases h; exact StretchKeeps.refl s
  | cons b bs ih =>
    intro s t h
    obtain ⟨m, hm, ht⟩ := orFault_eq_next.mp h
    refine StretchKeeps.trans (t := s.setEnc (s.enc.wrote m))
      ⟨rfl, ⟨rfl, rfl, rfl, rfl, rfl⟩, List.prefix_refl _, rfl, fun a ha => ?_⟩ (ih ht)
    unfold storeByte at hm
    split at hm
    · cases hm
      have := memRead_memWrite_isSome s.enc.scratch s.enc.epos a b (Option.isSome_iff_ne_none.mpr ha)
      exact Option.isSome_iff_ne_none.mp this
    · cases hm

theorem flush_keeps {p : FlushPoint} {s t : State} (h : flush p s = .next t) : StretchKeeps s t := by
  obtain ⟨chunk, _, ht⟩ := orFault_eq_next.mp h
  cases ht
  exact ⟨rfl, ⟨rfl, rfl, rfl, rfl, rfl⟩, List.prefix_append _ _, rfl, fun a h => h⟩

theorem finalChunk_keeps {s t : State} (h : finalChunk s = .next t) : StretchKeeps s t := by
  obtain ⟨u, hu, ht⟩ := andThen_eq_next.mp h
  exact (writeScratch_keeps _ hu).trans (flush_keeps ht)

theorem encodeByte_keeps {s t : State} (h : encodeByte s = .next t) : StretchKeeps s t := by
  obtain ⟨b, _, h⟩ := orFault_eq_next.mp h
  obtain ⟨u, hu, ht⟩ := andThen_eq_next.mp h
  cases ht
  exact (writeScratch_keeps _ hu).trans (StretchKeeps.of_enc rfl rfl)

theorem encodeBody_keeps (n : Nat) : ∀ {s t : State}, encodeBody n s = .next t → StretchKeeps s t := by
  induction n with
  | zero =>
    intro s t h
    unfold encodeBody closeFrame at h
    split at h
    · exact flush_keeps h
    · exact finalChunk_keeps h
  | succ n ih =>
    intro s t h
    unfold encodeBody at h
    split at h
    · exact flush_keeps h
    · obtain ⟨u, hu, ht⟩ := andThen_eq_next.mp h
      exact (encodeByte_keeps hu).trans (ih ht)

theorem execEncode_keeps {len : Len} {s t : State} (h : execEncode len s = .next t) : StretchKeeps s t := by
  unfold execEncode at h
  split at h
  · cases h
  split at h
  · cases h
  split at h
  · obtain ⟨u, hu, ht⟩ := andThen_eq_next.mp h
    exact ((StretchKeeps.of_enc (e := s.enc.begin (byteCount len)) rfl rfl).trans (writeScratch_keeps _ hu)).trans
      (encodeBody_keeps _ ht)
  · cases h

/-- The same, with the count of draws put back, which a stretch does not touch. -/
theorem StretchKeeps.with_draws {s t : State} (h : StretchKeeps s t) : StretchKeeps s { t with draws := s.draws } :=
  ⟨h.dec, ⟨h.outside.1, h.outside.2.1, h.outside.2.2.1, h.outside.2.2.2.1, rfl⟩, h.chunks, h.payMem, h.written⟩

/-- An answer of the sink keeps what a stretch keeps, but for the count of draws, which a failure moves on (log 9). -/
theorem sinkAnswer_keeps {k : Nat} {a : SinkAnswer} {s t : State} (h : sinkAnswer k a s = .next t) :
    StretchKeeps s { t with draws := s.draws } := by
  unfold sinkAnswer at h
  split at h
  · cases h; exact StretchKeeps.refl s
  split at h
  · split at h
    · rename_i p _ _ _
      refine StretchKeeps.with_draws ?_
      cases p
      · obtain ⟨u, hu, ht⟩ := andThen_eq_next.mp h
        exact ((StretchKeeps.of_enc (e := s.enc.resume) rfl rfl).trans (encodeByte_keeps hu)).trans (encodeBody_keeps _ ht)
      · exact (StretchKeeps.of_enc (e := s.enc.resume) rfl rfl).trans (finalChunk_keeps (s := s.setEnc s.enc.resume) h)
      · cases h; exact StretchKeeps.of_enc rfl rfl
    · cases h; exact StretchKeeps.of_enc (s := s) rfl rfl
  · cases h; exact StretchKeeps.refl s

/-! ## Neither reads the other -/

/-- The decoder's loop runs the same whatever the encoder holds. -/
theorem interpretByte_setEnc (b : Byte) (e : Encoder) (s : State) :
    interpretByte b (s.setEnc e) = andThen (interpretByte b s) fun t => .next (t.setEnc e) := by
  have happ : ∀ (c : Byte) (u : State), append c (u.setEnc e) = andThen (append c u) fun t => .next (t.setEnc e) := by
    intro c u
    unfold append
    simp only [State.setEnc_dec, State.setEnc_cfg]
    by_cases h : u.dec.wp = u.cfg.capacity
    · simp only [eq_true h, ↓reduceIte]; rfl
    · simp only [eq_false h, ↓reduceIte]
      cases storeByte u.cfg.capacity u.dec.outMem u.dec.wp c <;> rfl
  unfold interpretByte
  simp only [State.setEnc_dec]
  split
  · rfl
  · rfl
  · unfold execEndFrame
    by_cases h : s.dec.wp = 0
    · simp only [State.setEnc_dec, eq_true h, ↓reduceIte]; rfl
    · simp only [State.setEnc_dec, eq_false h, ↓reduceIte]; rfl
  · exact happ _ (s.setDec _)
  · exact happ _ (s.setDec _)
  · rfl
  · rfl
  · exact happ _ s

theorem runWindow_setEnc (n : Nat) (e : Encoder) : ∀ s : State,
    runWindow n (s.setEnc e) = andThen (runWindow n s) fun t => .next (t.setEnc e) := by
  induction n with
  | zero => intro s; rfl
  | succ n ih =>
    intro s
    cases hw : s.dec.window with
    | none => rw [runWindow_closed hw, runWindow_closed (s := s.setEnc e) hw]; rfl
    | some w =>
      rw [runWindow_succ hw, runWindow_succ (s := s.setEnc e) hw, andThen_assoc]
      have hstep : windowStep w (s.setEnc e) = andThen (windowStep w s) fun t => .next (t.setEnc e) := by
        unfold windowStep windowByte
        simp only [State.setEnc_dec, State.setEnc_cfg]
        split
        · cases loadByte s.cfg.inMemSize s.dec.inMem (w.base + w.pos) with
          | error f => rfl
          | ok b => exact interpretByte_setEnc b e s
        · rfl
      rw [hstep, andThen_assoc]
      congr 1
      funext t
      exact ih t

theorem writeScratch_setDec (bs : List Byte) (d : Decoder) : ∀ s : State,
    writeScratch bs (s.setDec d) = andThen (writeScratch bs s) fun t => .next (t.setDec d) := by
  induction bs with
  | nil => intro s; rfl
  | cons b bs ih =>
    intro s
    unfold writeScratch
    simp only [State.setDec_enc, State.setDec_cfg]
    cases storeByte s.cfg.chunkSize s.enc.scratch s.enc.epos b with
    | error f => rfl
    | ok m => exact ih (s.setEnc (s.enc.wrote m))

theorem flush_setDec (p : FlushPoint) (d : Decoder) (s : State) :
    flush p (s.setDec d) = andThen (flush p s) fun t => .next (t.setDec d) := by
  unfold flush
  simp only [State.setDec_enc, State.setDec_cfg]
  cases loadBytes s.cfg.chunkSize s.enc.scratch 0 s.enc.epos <;> rfl

theorem finalChunk_setDec (d : Decoder) (s : State) :
    finalChunk (s.setDec d) = andThen (finalChunk s) fun t => .next (t.setDec d) := by
  unfold finalChunk
  rw [writeScratch_setDec, andThen_assoc, andThen_assoc]
  congr 1
  funext t
  exact flush_setDec .final d t

theorem encodeByte_setDec (d : Decoder) (s : State) :
    encodeByte (s.setDec d) = andThen (encodeByte s) fun t => .next (t.setDec d) := by
  unfold encodeByte
  simp only [State.setDec_enc, State.setDec_cfg]
  cases loadByte s.cfg.payMemSize s.enc.payMem s.enc.ej with
  | error f => rfl
  | ok b =>
    simp only [orFault_ok]
    rw [writeScratch_setDec, andThen_assoc, andThen_assoc]
    rfl

/-- A stretch of the encoder runs the same whatever the decoder holds. -/
theorem encodeBody_setDec (n : Nat) (d : Decoder) : ∀ s : State,
    encodeBody n (s.setDec d) = andThen (encodeBody n s) fun t => .next (t.setDec d) := by
  induction n with
  | zero =>
    intro s
    unfold encodeBody closeFrame scratchRoom
    simp only [State.setDec_enc, State.setDec_cfg]
    by_cases h : s.cfg.chunkSize - s.enc.epos < 1
    · simp only [eq_true h, ↓reduceIte]; exact flush_setDec _ _ _
    · simp only [eq_false h, ↓reduceIte]; exact finalChunk_setDec _ _
  | succ n ih =>
    intro s
    unfold encodeBody scratchRoom
    simp only [State.setDec_enc, State.setDec_cfg]
    by_cases h : s.cfg.chunkSize - s.enc.epos < 2
    · simp only [eq_true h, ↓reduceIte]; exact flush_setDec _ _ _
    · simp only [eq_false h, ↓reduceIte]
      rw [encodeByte_setDec, andThen_assoc, andThen_assoc]
      congr 1
      funext t
      exact ih t

end Sys2Proof.Machine
end

