-- ==== Sys2Proof/Laws/Invariant.lean ====
section
/-! SUPPORT. What the shared operations keep of the invariant: one lemma each for the byte classes, the loop, the start of a transaction, and a stretch of the encoder. -/

namespace Sys2Proof.Machine

/-- The ranges of a valid configuration that the operations rest on (R114). -/
theorem configValid_ranges {c : Config} (h : configValid c = true) :
    1 ≤ c.capacity ∧ c.capacity ≤ 2 ^ 31 - 1 ∧ 3 ≤ c.chunkSize ∧ c.chunkSize ≤ 2 ^ 24 - 1 ∧ c.inMemSize ≤ 2 ^ 24 - 1
      ∧ c.payMemSize ≤ 2 ^ 24 - 1 ∧ c.errOverflow.msb = true ∧ c.errInvalidEscape.msb = true := by
  simp only [configValid, Bool.and_eq_true, decide_eq_true_eq] at h
  obtain ⟨⟨⟨⟨⟨h1, h2⟩, _⟩, h4⟩, h5⟩, ⟨h6, h7⟩, _⟩ := h
  exact ⟨h1.1, h1.2, h2.1, h2.2, h4.2, h5, h6, h7⟩

theorem errOverflow_ne_zero {c : Config} (h : configValid c = true) : c.errOverflow ≠ 0#32 := by
  intro h0
  have := (configValid_ranges h).2.2.2.2.2.2.1
  rw [h0] at this
  exact absurd this (by decide)

theorem errInvalidEscape_ne_zero {c : Config} (h : configValid c = true) : c.errInvalidEscape ≠ 0#32 := by
  intro h0
  have := (configValid_ranges h).2.2.2.2.2.2.2
  rw [h0] at this
  exact absurd this (by decide)

/-- An open window's cursor stands at a byte of it: the leftover that SET_LEFT would leave is legal. -/
theorem setLeft_legal {c : Config} {d : Decoder} (h : d.Inv c) {w : Window} (hw : d.window = some w) :
    d.setLeft.leftOff + d.setLeft.leftLen ≤ c.inMemSize ∧ (d.setLeft.leftLen = 0 → d.setLeft.leftOff = 0)
      ∧ allWritten d.setLeft.inMem d.setLeft.leftOff d.setLeft.leftLen = true := by
  obtain ⟨h1, h2, h3, h4⟩ := h.window_legal w hw
  rw [Decoder.setLeft_leftOff, Decoder.setLeft_leftLen, Decoder.setLeft_inMem, Decoder.bytesAfter_some hw,
    Decoder.addressAfter_some hw]
  by_cases hp : 0 < w.len - (w.pos + 1)
  · simp only [if_pos hp]
    exact ⟨by omega, fun h => by omega, allWritten_sub h3 (by omega) (by omega)⟩
  · simp only [if_neg hp]
    have h0 : w.len - (w.pos + 1) = 0 := by omega
    rw [h0]
    exact ⟨by simp, by simp, by simp [allWritten]⟩

/-- A byte consumed, with DSTATE and WP moved as the byte asks, keeps the invariant. -/
theorem Decoder.Inv.goesOn {c : Config} {d d' : Decoder} (h : d.Inv c) {w : Window} (hw : d.window = some w)
    (hp : w.pos < w.len) (hw' : d'.window = some { w with pos := w.pos + 1 }) (hwp : d'.wp ≤ c.capacity)
    (hout : allWritten d'.outMem 0 d'.wp = true) (hl : d'.leftLen = d.leftLen) (ho : d'.leftOff = d.leftOff)
    (hT : d'.lastT = d.lastT) (hr : d'.res = d.res) (hi : d'.inMem = d.inMem)
    (hkeep : ∀ a n, allWritten d.outMem a n = true → allWritten d'.outMem a n = true)
    (hwf : Memory.wf d'.outMem = true) (hin : Memory.within c.capacity d'.outMem = true) : d'.Inv c where
  wp_le := hwp
  out_written := hout
  left_le := by rw [hl, ho]; exact h.left_le
  left_empty := by rw [hl, ho]; exact h.left_empty
  left_written := by rw [hl, ho, hi]; exact h.left_written
  lastT_lt := by rw [hT]; exact h.lastT_lt
  zero_left := by rw [hl, hr]; exact h.zero_left
  res_legal := by
    unfold resultLegal
    rw [hr]
    exact h.res_legal.imp_right fun h' => h'.imp_left fun ⟨h1, h2, h3⟩ => ⟨h1, h2, hkeep _ _ h3⟩
  in_wf := by rw [hi]; exact h.in_wf
  in_within := by rw [hi]; exact h.in_within
  out_wf := hwf
  out_within := hin
  window_legal := by
    intro v hv
    rw [hw'] at hv
    cases hv
    obtain ⟨h1, h2, h3, h4⟩ := h.window_legal w hw
    exact ⟨by simp only; omega, h2, by rw [hi]; exact h3, by rw [hl]; exact h4⟩

/-- The end of a transaction with a result that is no NeedMoreData and a leftover set by SET_LEFT keeps the invariant. -/
theorem Decoder.Inv.ends {c : Config} {d d' : Decoder} (h : d.Inv c) {w : Window} (hw : d.window = some w)
    (hw' : d'.window = none) (hwp : d'.wp ≤ d.wp) (hl : d'.leftLen = d.setLeft.leftLen) (ho : d'.leftOff = d.setLeft.leftOff)
    (hT : d'.lastT = d.lastT) (hi : d'.inMem = d.inMem) (hm : d'.outMem = d.outMem) (hne : d'.res ≠ 0#32)
    (hr : resultLegal c d') : d'.Inv c where
  wp_le := Nat.le_trans hwp h.wp_le
  out_written := by rw [hm]; exact allWritten_sub h.out_written (by omega) (by omega)
  left_le := by rw [hl, ho]; exact (setLeft_legal h hw).1
  left_empty := by rw [hl, ho]; exact (setLeft_legal h hw).2.1
  left_written := by rw [hl, ho, hi]; simpa using (setLeft_legal h hw).2.2
  lastT_lt := by rw [hT]; exact h.lastT_lt
  zero_left := fun h0 => absurd h0 hne
  res_legal := hr
  in_wf := by rw [hi]; exact h.in_wf
  in_within := by rw [hi]; exact h.in_within
  out_wf := by rw [hm]; exact h.out_wf
  out_within := by rw [hm]; exact h.out_within
  window_legal := by rw [hw']; intro v hv; cases hv

/-- An append keeps the invariant (R86). -/
theorem append_keeps {s t : State} {b : Byte} (hv : configValid s.cfg = true) (h : s.dec.Inv s.cfg) {w : Window}
    (hw : s.dec.window = some w) (hp : w.pos < w.len) (ht : append b s = .next t) : t.dec.Inv s.cfg := by
  rcases append_eq_next.mp ht with ⟨hfull, rfl⟩ | ⟨hroom, rfl⟩
  · refine h.ends hw (by simp) (by simp) ?_ ?_ (by simp) (by simp) (by simp) (by simpa [resultWord] using errOverflow_ne_zero hv) ?_
    · simp [Decoder.bytesAfter]
    · simp [Decoder.bytesAfter, Decoder.addressAfter]; rfl
    · exact .inr (.inr (.inl (by simp [resultWord])))
  · refine h.goesOn hw hp (by simp [hw]) (by simp; omega) ?_ (by simp) (by simp) (by simp) (by simp) (by simp) ?_ ?_ ?_
    · simpa using allWritten_memWrite_succ h.out_written b
    · intro a n ha; simpa using allWritten_memWrite ha _ _
    · simpa using Memory.wf_memWrite h.out_wf _ _
    · simpa using Memory.within_memWrite h.out_within hroom _

theorem append_cfg {s t : State} {b : Byte} (ht : append b s = .next t) : t = s.setDec t.dec := by
  rcases append_eq_next.mp ht with ⟨_, rfl⟩ | ⟨_, rfl⟩ <;> rfl

/-- Moving DSTATE alone keeps the invariant: it rests on no DSTATE. -/
theorem Decoder.Inv.enter {c : Config} {d : Decoder} (h : d.Inv c) (st : DState) : (d.enter st).Inv c :=
  ⟨h.wp_le, h.out_written, h.left_le, h.left_empty, h.left_written, h.lastT_lt, h.zero_left, h.res_legal, h.in_wf,
    h.in_within, h.out_wf, h.out_within, h.window_legal⟩

/-- A byte consumed with DSTATE moved keeps the invariant. -/
theorem consumeTo_keeps {s : State} (st : DState) (h : s.dec.Inv s.cfg) {w : Window} (hw : s.dec.window = some w)
    (hp : w.pos < w.len) : (consumeTo st s).dec.Inv s.cfg :=
  h.goesOn hw hp (by simp [hw]) (by simpa using h.wp_le) (by simpa using h.out_written) (by simp) (by simp) (by simp)
    (by simp) (by simp) (by intro a n ha; simpa using ha) (by simpa using h.out_wf) (by simpa using h.out_within)

/-- Each byte class keeps the invariant, where its byte lies in the open window. -/
theorem interpretByte_keeps {s t : State} {b : Byte} (hv : configValid s.cfg = true) (h : s.dec.Inv s.cfg) {w : Window}
    (hw : s.dec.window = some w) (hp : w.pos < w.len) (ht : interpretByte b s = .next t) :
    t = s.setDec t.dec ∧ t.dec.Inv s.cfg := by
  unfold interpretByte at ht
  split at ht
  · cases ht
    refine ⟨rfl, h.goesOn hw hp (by simp [hw]) (by simp) rfl (by simp) (by simp) (by simp) (by simp) (by simp)
      (by intro a n ha; simpa using ha) (by simpa using h.out_wf) (by simpa using h.out_within)⟩
  · cases ht
    exact ⟨rfl, h.goesOn hw hp (by simp [hw]) (by simpa using h.wp_le) (by simpa using h.out_written) (by simp) (by simp)
      (by simp) (by simp) (by simp) (by intro a n ha; simpa using ha) (by simpa using h.out_wf) (by simpa using h.out_within)⟩
  · unfold execEndFrame at ht
    split at ht
    · cases ht; exact ⟨rfl, consumeTo_keeps _ h hw hp⟩
    · next hne =>
      cases ht
      have hle := h.wp_le
      have hcap := (configValid_ranges hv).2.1
      have hnat : (BitVec.ofNat 32 s.dec.wp).toNat = s.dec.wp := by
        rw [BitVec.toNat_ofNat]; exact Nat.mod_eq_of_lt (by omega)
      refine ⟨rfl, h.ends hw (by simp) (by simp) ?_ ?_ (by simp) (by simp) (by simp) ?_ ?_⟩
      · simp [Decoder.bytesAfter]
      · simp [Decoder.bytesAfter, Decoder.addressAfter]; rfl
      · intro h0
        have := congrArg BitVec.toNat h0
        simp only [completeFrame_dec, Decoder.finish_res, hnat] at this
        exact hne this
      · refine .inr (.inl ?_)
        simp only [completeFrame_dec, Decoder.finish_res, hnat, Decoder.finish_outMem, Decoder.setLeft_outMem, Decoder.enter_outMem]
        exact ⟨by omega, hle, h.out_written⟩
  · have hd : (s.setDec (s.dec.enter .inFrame)).dec.Inv (s.setDec (s.dec.enter .inFrame)).cfg := h.enter _
    have := append_keeps (s := s.setDec (s.dec.enter .inFrame)) hv hd hw hp ht
    exact ⟨by rw [append_cfg ht]; rfl, this⟩
  · have hd : (s.setDec (s.dec.enter .inFrame)).dec.Inv (s.setDec (s.dec.enter .inFrame)).cfg := h.enter _
    have := append_keeps (s := s.setDec (s.dec.enter .inFrame)) hv hd hw hp ht
    exact ⟨by rw [append_cfg ht]; rfl, this⟩
  · cases ht
    refine ⟨rfl, h.ends hw (by simp) (by simp) ?_ ?_ (by simp) (by simp) (by simp)
      (by simpa [resultWord] using errInvalidEscape_ne_zero hv) ?_⟩
    · simp [Decoder.bytesAfter]
    · simp [Decoder.bytesAfter, Decoder.addressAfter]; rfl
    · exact .inr (.inr (.inr (by simp [resultWord])))
  · cases ht; exact ⟨rfl, consumeTo_keeps _ h hw hp⟩
  · exact ⟨append_cfg ht, append_keeps hv h hw hp ht⟩

/-- NeedMoreData at the end of the window keeps the invariant (R27). -/
theorem exhausted_keeps {s : State} (h : s.dec.Inv s.cfg) {w : Window} (hw : s.dec.window = some w) :
    (endTransaction .needMoreData s).dec.Inv s.cfg := by
  obtain ⟨_, _, _, h4⟩ := h.window_legal w hw
  exact ⟨h.wp_le, h.out_written, h.left_le, h.left_empty, h.left_written, h.lastT_lt, fun _ => h4, .inl rfl, h.in_wf,
    h.in_within, h.out_wf, h.out_within, by intro v hv; cases hv⟩

/-- Each turn of the loop keeps the invariant. -/
theorem windowStep_keeps {s t : State} {w : Window} (hv : configValid s.cfg = true) (h : s.dec.Inv s.cfg)
    (hw : s.dec.window = some w) (ht : windowStep w s = .next t) : t = s.setDec t.dec ∧ t.dec.Inv s.cfg := by
  unfold windowStep at ht
  split at ht
  · next hp =>
    obtain ⟨b, _, hb⟩ := orFault_eq_next.mp ht
    exact interpretByte_keeps hv h hw hp hb
  · cases ht; exact ⟨rfl, exhausted_keeps h hw⟩

/-- The loop keeps the invariant, and touches the decoder alone. -/
theorem runWindow_inv {n : Nat} {s t : State} (hv : configValid s.cfg = true) (h : s.dec.Inv s.cfg)
    (ht : runWindow n s = .next t) : t = s.setDec t.dec ∧ t.dec.Inv s.cfg := by
  refine runWindow_keeps (fun u => u = s.setDec u.dec ∧ u.dec.Inv s.cfg) ?_ n s t ⟨rfl, h⟩ ht
  intro u w v hu hw hstep
  have hc : u.cfg = s.cfg := by rw [hu.1]; rfl
  obtain ⟨h1, h2⟩ := windowStep_keeps (by rw [hc]; exact hv) (by rw [hc]; exact hu.2) hw hstep
  refine ⟨?_, by rw [hc] at h2; exact h2⟩
  rw [h1, hu.1]
  rfl

/-- The start of a transaction on a written window keeps the invariant (R77, R78). -/
theorem openWindow_inv {s : State} {base len t : Nat} (h : s.dec.Inv s.cfg) (hl : s.dec.leftLen = 0)
    (hin : base + len ≤ s.cfg.inMemSize) (hw : allWritten s.dec.inMem base len = true) (ht : t < 2 ^ s.cfg.wTick) :
    (openWindow base len t s).dec.Inv s.cfg := by
  rw [openWindow_eq]
  split
  · exact ⟨by simp, rfl, by simp, fun _ => rfl, rfl, by simpa using ht, fun _ => rfl, h.res_legal, h.in_wf, h.in_within,
      h.out_wf, h.out_within, by intro v hv; cases hv; exact ⟨by simp, hin, hw, rfl⟩⟩
  · exact ⟨h.wp_le, h.out_written, h.left_le, h.left_empty, h.left_written, by simpa using ht, h.zero_left, h.res_legal,
      h.in_wf, h.in_within, h.out_wf, h.out_within, by intro v hv; cases hv; exact ⟨by simp, hin, hw, hl⟩⟩

/-- A written window keeps its transaction inside the invariant. -/
theorem processWindow_inv {s u : State} {base len t : Nat} (hv : configValid s.cfg = true) (h : s.dec.Inv s.cfg)
    (hl : s.dec.leftLen = 0) (hin : base + len ≤ s.cfg.inMemSize) (hw : allWritten s.dec.inMem base len = true)
    (ht : t < 2 ^ s.cfg.wTick) (hu : processWindow base len t s = .next u) : u = s.setDec u.dec ∧ u.dec.Inv s.cfg := by
  have hc : (openWindow base len t s).cfg = s.cfg := by rw [openWindow_eq]; rfl
  obtain ⟨h1, h2⟩ := runWindow_inv (by rw [hc]; exact hv) (by rw [hc]; exact openWindow_inv h hl hin hw ht) hu
  rw [hc] at h2
  refine ⟨?_, h2⟩
  rw [h1, openWindow_eq]
  rfl

/-- The tick sampled has W_TICK bits (R67). -/
theorem tickNow_lt (s : State) : tickNow s < 2 ^ s.cfg.wTick := Nat.mod_lt _ (Nat.two_pow_pos _)

/-- A stretch of the encoder that ends in a flush gives a legal encoder (R95). -/
theorem Presents.inv {s : State} {e : Encoder} {chunk : List Byte} {cs : List (List Byte)} (h : Presents s e chunk cs)
    (hbusy : s.enc.busy = true) (hlen : s.enc.len ≤ s.cfg.payMemSize)
    (hpay : allWritten s.enc.payMem 0 s.enc.len = true) (hv : s.enc.sendErr < 2 ^ s.cfg.wErr)
    (hpw : Memory.wf s.enc.payMem = true) (hpi : Memory.within s.cfg.payMemSize s.enc.payMem = true)
    (hsw : Memory.wf s.enc.scratch = true) (hsi : Memory.within s.cfg.chunkSize s.enc.scratch = true) :
    e.Inv s.cfg where
  busy_iff := by
    rw [h.keeps.busy, hbusy]
    refine ⟨fun _ hn => ?_, fun _ => rfl⟩
    have := h.after
    unfold chunksAfter at this
    rw [hn] at this
    exact this
  epos_le := h.holds.room
  ej_le := h.ej_le
  len_le := by rw [h.keeps.len]; exact hlen
  pay_written := by intro _; rw [h.keeps.payMem, h.keeps.len]; exact hpay
  scratch_written := allWritten_iff_bytesAt.mpr ⟨chunk, h.holds.bytes⟩
  wait_some := fun _ => h.some_byte
  wait_body := by
    intro hb
    refine ⟨?_, h.body_full hb⟩
    have := h.after
    unfold chunksAfter at this
    rw [hb] at this
    obtain ⟨b, bs, hby, -⟩ := this
    have := bytesAt_length hby
    simp only [List.length_cons] at this
    omega
  wait_closing := by
    intro hb
    have := h.after
    unfold chunksAfter at this
    rw [hb] at this
    exact ⟨this.1, this.2.1⟩
  wait_final := by
    intro hb
    have := h.after
    unfold chunksAfter at this
    rw [hb] at this
    exact this.1
  sendErr_lt := by rw [h.keeps.sendErr]; exact hv
  pay_wf := by rw [h.keeps.payMem]; exact hpw
  pay_within := by rw [h.keeps.payMem]; exact hpi
  scratch_wf := h.scratch.wf hsw
  scratch_within := h.scratch.within hsi

/-- Every waiting encoder has chunks to come (R95, R99). -/
theorem Encoder.Inv.chunksAfter_exists {c : Config} {e : Encoder} (h : e.Inv c) (hb : e.busy = true) :
    ∃ cs, chunksAfter c e cs := by
  have hw := h.busy_iff.mp hb
  obtain ⟨p, hp⟩ := Option.ne_none_iff_exists'.mp hw
  unfold chunksAfter
  rw [hp]
  cases p with
  | body =>
    have hj := (h.wait_body hp).1
    have hall := allWritten_sub (h.pay_written hb) (k := e.ej) (j := e.len - e.ej) (by omega) (by omega)
    obtain ⟨bs, hbs⟩ := allWritten_iff_bytesAt.mp hall
    cases bs with
    | nil => have := bytesAt_length hbs; simp at this; omega
    | cons b bs => exact ⟨_, b, bs, hbs, rfl⟩
  | closing => exact ⟨_, (h.wait_closing hp).1, (h.wait_closing hp).2, rfl⟩
  | final => exact ⟨_, h.wait_final hp, rfl⟩

end Sys2Proof.Machine
end

