-- ==== Sys2Proof/Laws/Step.lean ====
section
/-! SUPPORT. A step taken apart: what it does with each input and with an open window, and the meaning of ENCODE in the encoder's terms. -/

namespace Sys2Proof.Machine

/-- A wire byte's instruction, in the DSTATE it is read in, does what the loop does with that byte. -/
theorem exec_decodeWire (b : Byte) (s : State) : exec (decodeWire s.dec.dstate b) s = interpretByte b s := by
  unfold interpretByte decodeWire
  cases h : wireClass s.dec.dstate b <;> rfl

/-- A step on an open window is one turn of the loop. -/
theorem step_of_window {s : State} {w : Window} (hc : configValid s.cfg = true) (hw : s.dec.window = some w) :
    step s = windowStep w s := by
  unfold step windowStep fetch nextByte
  simp only [hc, if_true, hw]
  by_cases hp : w.pos < w.len
  · simp only [hp, if_true]
    cases windowByte w s with
    | error f => rfl
    | ok b => exact exec_decodeWire b s
  · simp only [hp, if_false]

/-- A step with no input and no open window waits (R121). -/
theorem step_of_nothing {s : State} (hc : configValid s.cfg = true) (hb : betweenCommands s) (hi : s.inputs = []) :
    step s = .next s := by
  unfold betweenCommands at hb
  simp only [step, hc, if_true, fetch, hb, nextInput, hi]

/-- A step between two commands takes the first input. -/
theorem step_of_input {s : State} {i : Input} {rest : List Input} (hc : configValid s.cfg = true) (hb : betweenCommands s)
    (hi : s.inputs = i :: rest) :
    step s = match takeInput i (s.setInputs rest) with
      | .run j t => exec j t
      | .done o => o := by
  unfold betweenCommands at hb
  have hf : fetch s = takeInput i (s.setInputs rest) := by
    unfold fetch
    rw [hb]
    show nextInput s = _
    unfold nextInput
    rw [hi]
  exact (if_pos hc).trans (congrArg (fun n : Next => match n with | .run j t => exec j t | .done o => o) hf)

/-- What a step can be: a wait; a turn of the loop of an open window; or the first input taken. -/
theorem step_cases {s t : State} (h : step s = .next t) :
    configValid s.cfg = true
    ∧ ((betweenCommands s ∧ s.inputs = [] ∧ t = s)
      ∨ (∃ w, s.dec.window = some w ∧ windowStep w s = .next t)
      ∨ ∃ i rest, betweenCommands s ∧ s.inputs = i :: rest
        ∧ ((∃ j u, takeInput i (s.setInputs rest) = .run j u ∧ exec j u = .next t)
          ∨ takeInput i (s.setInputs rest) = .done (.next t))) := by
  by_cases hc : configValid s.cfg = true
  · refine ⟨hc, ?_⟩
    cases hw : s.dec.window with
    | some w => rw [step_of_window hc hw] at h; exact .inr (.inl ⟨w, rfl, h⟩)
    | none =>
      cases hi : s.inputs with
      | nil => rw [step_of_nothing hc hw hi] at h; cases h; exact .inl ⟨hw, rfl, rfl⟩
      | cons i rest =>
        rw [step_of_input hc hw hi] at h
        refine .inr (.inr ⟨i, rest, hw, rfl, ?_⟩)
        split at h
        · next j u hu => exact .inl ⟨j, u, hu, h⟩
        · next o ho => exact .inr (by rw [ho, h])
  · simp [step, hc] at h

/-- The instruction that an input issues: a command write of that instruction's word, run on the state as it is. -/
theorem takeInput_run {i : Input} {s u : State} {j : Instr} (h : takeInput i s = .run j u) :
    u = s ∧ (j = .init ∨ j = .reset ∨ (∃ len, j = .process len) ∨ j = .drain ∨ ∃ len, j = .encode len) := by
  have hreg : ∀ {blk : Block} {num offset size : Nat} {w : Word}, regWrite blk num offset size w s = .run j u →
      u = s ∧ (j = .init ∨ j = .reset ∨ (∃ len, j = .process len) ∨ j = .drain ∨ ∃ len, j = .encode len) := by
    intro blk num offset size w h
    unfold regWrite at h
    split at h
    · split at h
      · unfold writeDecCmd at h
        split at h
        · next k hk =>
          cases h
          refine ⟨rfl, ?_⟩
          simp only [decode, decodeDecCmd, wantZeroLen] at hk
          split at hk
          · split at hk <;> cases hk; exact .inl rfl
          split at hk
          · split at hk <;> cases hk; exact .inr (.inl rfl)
          split at hk
          · cases hk; exact .inr (.inr (.inl ⟨_, rfl⟩))
          split at hk
          · split at hk <;> cases hk; exact .inr (.inr (.inr (.inl rfl)))
          · cases hk
        · cases h
      · unfold writeEncCmd at h
        split at h
        · next k hk =>
          cases h
          refine ⟨rfl, ?_⟩
          simp only [decode, decodeEncCmd] at hk
          split at hk <;> cases hk
          exact .inr (.inr (.inr (.inr ⟨_, rfl⟩)))
        · cases h
      · cases h
    · cases h
  have hacc : ∀ {a : HostAccess}, hostAccess a s = .run j u →
      u = s ∧ (j = .init ∨ j = .reset ∨ (∃ len, j = .process len) ∨ j = .drain ∨ ∃ len, j = .encode len) := by
    intro a h
    cases a with
    | regWrite blk num offset size w => exact hreg h
    | regRead => cases h
    | memWrite => cases h
    | memRead => cases h
  cases i with
  | access a => exact hacc h
  | busWrite addr width transfers =>
    simp only [takeInput, busWrite] at h
    split at h
    · exact hreg h
    · split at h <;> cases h
    · cases h
  | busRead addr width count => cases h
  | tick t => cases h
  | sinkAnswer k a => cases h
  | hwReset => cases h

/-- What an input that issues no instruction does: a write of one byte of IN_MEM or PAY_MEM, words returned to the host, a
new tick, an answer of the sink, or a hardware reset. -/
theorem takeInput_done {i : Input} {s t : State} (h : takeInput i s = .done (.next t)) :
    (∃ a b, hostWriteIn a b s = .next t) ∨ (∃ a b, hostWritePay a b s = .next t)
    ∨ (∃ ws, t = s.pushHostAll ws) ∨ (∃ x, i = .tick x ∧ t = s.setTick x)
    ∨ (∃ k a, i = .sinkAnswer k a ∧ sinkAnswer k a s = .next t) ∨ (i = .hwReset ∧ t = hardwareReset s) := by
  have hreg : ∀ {blk : Block} {num offset size : Nat} {w : Word}, ¬ regWrite blk num offset size w s = .done (.next t) := by
    intro blk num offset size w h
    simp only [regWrite, writeDecCmd, writeEncCmd] at h
    split at h
    · split at h
      · split at h <;> cases h
      · split at h <;> cases h
      · cases h
    · cases h
  have hwrite : ∀ {m : MemName} {a : Nat} {b : Byte}, memWriteAccess m a b s = .next t →
      (∃ a b, hostWriteIn a b s = .next t) ∨ (∃ a b, hostWritePay a b s = .next t) := by
    intro m a b h
    cases m with
    | inMem => exact .inl ⟨a, b, h⟩
    | payMem => exact .inr ⟨a, b, h⟩
    | outMem => cases h
    | scratch => cases h
  have hread : ∀ {m : MemName} {a : Nat}, memReadAccess m a s = .next t → ∃ ws, t = s.pushHostAll ws := by
    intro m a h
    cases m with
    | outMem =>
      obtain ⟨b, _, ht⟩ := orFault_eq_next.mp h
      cases ht
      exact ⟨_, rfl⟩
    | inMem => cases h
    | payMem => cases h
    | scratch => cases h
  cases i with
  | access a =>
    cases a with
    | regWrite blk num offset size w => exact absurd h hreg
    | regRead blk num offset size =>
      simp only [takeInput, hostAccess, regRead, Next.done.injEq] at h
      split at h
      · obtain ⟨w, _, ht⟩ := orFault_eq_next.mp h
        cases ht
        exact .inr (.inr (.inl ⟨_, rfl⟩))
      · cases h
    | memWrite m a b =>
      simp only [takeInput, hostAccess, Next.done.injEq] at h
      exact (hwrite h).imp_right .inl
    | memRead m a =>
      simp only [takeInput, hostAccess, Next.done.injEq] at h
      exact .inr (.inr (.inl (hread h)))
  | busWrite addr width transfers =>
    simp only [takeInput, busWrite] at h
    split at h
    · exact absurd h hreg
    · split at h
      · simp only [Next.done.injEq] at h
        split at h
        · exact (hwrite h).imp_right .inl
        · cases h
      · cases h
    · cases h
  | busRead addr width count =>
    simp only [takeInput, Next.done.injEq, busRead] at h
    split at h
    · split at h
      · obtain ⟨w, _, ht⟩ := orFault_eq_next.mp h
        cases ht
        exact .inr (.inr (.inl ⟨_, rfl⟩))
      · cases h
    · split at h
      · exact .inr (.inr (.inl (hread h)))
      · cases h
    · cases h
  | tick x => cases h; exact .inr (.inr (.inr (.inl ⟨x, rfl, rfl⟩)))
  | sinkAnswer k a =>
    simp only [takeInput, Next.done.injEq] at h
    exact .inr (.inr (.inr (.inr (.inl ⟨k, a, rfl, h⟩))))
  | hwReset => cases h; exact .inr (.inr (.inr (.inr (.inr ⟨rfl, rfl⟩))))

/-- ENCODE, up to its first flush: the first chunk of the payload is presented and the others are to come (R93 to R99). -/
theorem execEncode_spec {s : State} {len : Len} {payload : List Byte} (h3 : 3 ≤ s.cfg.chunkSize) (hb : s.enc.busy = false)
    (hl : len.toNat ≤ s.cfg.payMemSize) (hp : bytesAt s.enc.payMem 0 len.toNat = some payload) :
    ∃ e chunk cs, execEncode len s = .next ((s.pushChunk chunk).setEnc e) ∧ chunksOf s.cfg.chunkSize payload = chunk :: cs
      ∧ Presents (s.setEnc (s.enc.begin len.toNat)) e chunk cs := by
  have hlen := bytesAt_length hp
  have hw : allWritten s.enc.payMem 0 len.toNat = true := allWritten_iff_bytesAt.mpr ⟨payload, hp⟩
  have h0 : ScratchHolds (s.setEnc (s.enc.begin len.toNat)).cfg (s.setEnc (s.enc.begin len.toNat)).enc [] :=
    ⟨rfl, by simp, by simp [bytesAt]⟩
  obtain ⟨e, he, hh, hk, hs, hj, hwt⟩ := writeScratch_spec [startEnd] h0 (by simp; omega)
  have hh' : ScratchHolds (s.setEnc e).cfg (s.setEnc e).enc [startEnd] := by simpa using hh
  have hj' : e.ej = 0 := by simpa using hj
  have hlen' : e.len = payload.length := by simpa [hlen] using hk.len
  have hpm : e.payMem = s.enc.payMem := by simpa using hk.payMem
  obtain ⟨e', chunk, cs, h1, h2, hpr, hm⟩ := encodeBody_spec payload hh' (by simp) (by simpa using h3) (by simp [hj', hlen'])
    (by simp [hlen', hlen, hl]) (by simp [hj', hpm, hlen, hp])
  refine ⟨e', chunk, cs, ?_, h2, ⟨hpr.holds, hpr.after, hpr.some_byte, hpr.ej_le, hpr.body_full, hk.trans hpr.keeps,
    hs.trans hpr.scratch hm⟩⟩
  have hf : ((s.setEnc (s.enc.begin len.toNat)).setEnc e).enc.len - ((s.setEnc (s.enc.begin len.toNat)).setEnc e).enc.ej
      = payload.length := by simp [hj', hlen']
  simp only [execEncode, hb, byteCount, Nat.not_lt.mpr hl, if_false, hw, if_true, he, andThen_next, encodeRest, hf]
  simp only [State.setEnc_setEnc]
  exact h1

/-- A PROCESS that goes on passed its three tests (R74). -/
theorem execProcess_cases {len : Len} {s t : State} (h : execProcess len s = .next t) :
    len.toNat ≤ s.cfg.inMemSize ∧ s.dec.leftLen = 0 ∧ allWritten s.dec.inMem 0 len.toNat = true
      ∧ processWindow 0 len.toNat (tickNow s) s = .next t := by
  unfold execProcess byteCount at h
  split at h
  · cases h
  split at h
  · cases h
  split at h
  · exact ⟨by omega, by omega, by assumption, h⟩
  · cases h

/-- An ENCODE that goes on passed its three tests (R93). -/
theorem execEncode_cases {len : Len} {s t : State} (h : execEncode len s = .next t) :
    s.enc.busy = false ∧ len.toNat ≤ s.cfg.payMemSize ∧ ∃ payload, bytesAt s.enc.payMem 0 len.toNat = some payload := by
  unfold execEncode byteCount at h
  split at h
  · cases h
  split at h
  · cases h
  split at h
  · next hw => exact ⟨by simpa using ‹¬s.enc.busy = true›, by omega, allWritten_iff_bytesAt.mp hw⟩
  · cases h

/-- A DRAIN that goes on: of an empty leftover, or a transaction on the leftover (R75). -/
theorem execDrain_cases {s t : State} (h : execDrain s = .next t) :
    (s.dec.leftLen = 0 ∧ t = s.setDec { s.dec with res := 0#32 })
    ∨ (0 < s.dec.leftLen ∧ processWindow s.dec.leftOff s.dec.leftLen (tickNow s) (clearLeft s) = .next t) := by
  unfold execDrain at h
  split at h
  · cases h; exact .inl ⟨by assumption, rfl⟩
  · exact .inr ⟨by omega, h⟩

/-! ## WP in IDLE (R25) -/

/-- While no delimiter has come in IDLE, WP stands at `x`; and a transaction that ended in IDLE with result 0 left it there. -/
def idleWp (x : Nat) (d : Decoder) : Prop := (d.window = none → d.res = 0#32) → d.dstate = .idle → d.wp = x

theorem windowStep_idleWp {x : Nat} {w : Window} {s t : State} (hv : configValid s.cfg = true) (hI : s.dec.Inv s.cfg)
    (h : idleWp x s.dec) (hw : s.dec.window = some w) (ht : windowStep w s = .next t) : idleWp x t.dec := by
  have happ : ∀ {b : Byte} {u : State}, u.dec.dstate ≠ .idle → u.dec.window = some w → u.cfg = s.cfg →
      append b u = .next t → idleWp x t.dec := by
    intro b u hd hu hc ha hr hidle
    rcases append_eq_next.mp ha with ⟨_, rfl⟩ | ⟨_, rfl⟩
    · refine absurd (hr (by simp)) ?_
      simpa [resultWord, hc] using errOverflow_ne_zero hv
    · exact absurd (by simpa using hidle) hd
  unfold windowStep at ht
  split at ht
  · next hp =>
    obtain ⟨b, _, hb⟩ := orFault_eq_next.mp ht
    unfold interpretByte at hb
    split at hb
    · cases hb; intro _ hidle; simp at hidle
    · cases hb
      intro _ hidle
      simpa using h (fun hn => by rw [hw] at hn; cases hn) (by simpa using hidle)
    · unfold execEndFrame at hb
      split at hb
      · cases hb; intro _ hidle; simp at hidle
      · next hne =>
        cases hb
        intro hr _
        refine absurd (hr (by simp)) fun h0 => hne ?_
        have := congrArg BitVec.toNat h0
        have hle := hI.wp_le
        have hcap := (configValid_ranges hv).2.1
        simp only [completeFrame_dec, Decoder.finish_res, BitVec.toNat_ofNat] at this
        rwa [Nat.mod_eq_of_lt (by omega)] at this
    · exact happ (u := s.setDec (s.dec.enter .inFrame)) (by simp) hw rfl hb
    · exact happ (u := s.setDec (s.dec.enter .inFrame)) (by simp) hw rfl hb
    · cases hb
      intro hr _
      refine absurd (hr (by simp)) ?_
      simpa [resultWord] using errInvalidEscape_ne_zero hv
    · cases hb; intro _ hidle; simp at hidle
    · next hcl =>
      refine happ (fun hd => ?_) hw rfl hb
      rw [hd] at hcl
      unfold wireClass at hcl
      split at hcl <;> (try split at hcl) <;> simp_all
  · cases ht
    intro _ hidle
    exact h (fun hn => by rw [hw] at hn; cases hn) hidle

/-- A transaction that ends in IDLE with result 0 leaves WP as the timeout test left it. -/
theorem processWindow_idleWp {s u : State} {base len t : Nat} (hv : configValid s.cfg = true) (h : s.dec.Inv s.cfg)
    (hl : s.dec.leftLen = 0) (hin : base + len ≤ s.cfg.inMemSize) (hw : allWritten s.dec.inMem base len = true)
    (ht : t < 2 ^ s.cfg.wTick) (hu : processWindow base len t s = .next u) :
    u.dec.res = 0#32 → u.dec.dstate = .idle → u.dec.wp = if timedOut s.cfg t s.dec.lastT then 0 else s.dec.wp := by
  have hopen := openWindow_inv h hl hin hw ht
  have hcfg : (openWindow base len t s).cfg = s.cfg := by rw [openWindow_eq]; rfl
  have hstart : idleWp (if timedOut s.cfg t s.dec.lastT then 0 else s.dec.wp) (openWindow base len t s).dec := by
    intro _ _
    rw [openWindow_eq]
    split <;> rfl
  have := runWindow_keeps
    (fun v => v.cfg = s.cfg ∧ v.dec.Inv s.cfg ∧ idleWp (if timedOut s.cfg t s.dec.lastT then 0 else s.dec.wp) v.dec)
    (fun v w x hvv hww hx => by
      obtain ⟨hc, hi, hq⟩ := hvv
      have hk := windowStep_keeps (by rw [hc]; exact hv) (by rw [hc]; exact hi) hww hx
      have hcx : x.cfg = s.cfg := by rw [hk.1]; exact hc
      exact ⟨hcx, by rw [← hc]; exact hk.2, windowStep_idleWp (by rw [hc]; exact hv) (by rw [hc]; exact hi) hq hww hx⟩)
    (len + 1) _ u ⟨hcfg, hopen, hstart⟩ hu
  intro hr hidle
  exact this.2.2 (fun _ => hr) hidle

/-! ## The invariant across the commands -/

theorem execProcess_inv {len : Len} {s t : State} (hs : s.Inv) (h : execProcess len s = .next t) :
    t = s.setDec t.dec ∧ t.dec.Inv s.cfg := by
  obtain ⟨h1, h2, h3, h4⟩ := execProcess_cases h
  exact processWindow_inv hs.valid hs.dec h2 (by simpa using h1) h3 (tickNow_lt s) h4

theorem clearLeft_inv {s : State} (h : s.dec.Inv s.cfg) : (clearLeft s).dec.Inv s.cfg where
  wp_le := h.wp_le
  out_written := h.out_written
  left_le := by simp [clearLeft]
  left_empty := fun _ => rfl
  left_written := rfl
  lastT_lt := h.lastT_lt
  zero_left := fun _ => rfl
  res_legal := h.res_legal
  in_wf := h.in_wf
  in_within := h.in_within
  out_wf := h.out_wf
  out_within := h.out_within
  window_legal := fun w hw =>
    ⟨(h.window_legal w hw).1, (h.window_legal w hw).2.1, (h.window_legal w hw).2.2.1, rfl⟩

theorem execDrain_inv {s t : State} (hs : s.Inv) (h : execDrain s = .next t) : t = s.setDec t.dec ∧ t.dec.Inv s.cfg := by
  rcases execDrain_cases h with ⟨h0, rfl⟩ | ⟨h0, h⟩
  · have := hs.dec
    exact ⟨rfl, this.wp_le, this.out_written, this.left_le, this.left_empty, this.left_written, this.lastT_lt, fun _ => h0,
      .inl rfl, this.in_wf, this.in_within, this.out_wf, this.out_within, this.window_legal⟩
  · obtain ⟨h1, h2⟩ := processWindow_inv (s := clearLeft s) hs.valid (clearLeft_inv (s := s) hs.dec) rfl hs.dec.left_le
      hs.dec.left_written (tickNow_lt s) h
    exact ⟨by rw [h1]; rfl, h2⟩

/-- The invariant, where the decoder alone changed and kept its own part. -/
theorem State.Inv.ofDec {s t : State} (hs : s.Inv) (ht : t = s.setDec t.dec) (hd : t.dec.Inv s.cfg) : t.Inv := by
  rw [ht]
  exact ⟨hs.valid, hd, hs.enc⟩

end Sys2Proof.Machine
end

