-- ==== Sys2Proof/Laws/Events.lean ====
section
/-! SUPPORT. The host's loop (R89, R90) on a byte stream: the parser fed one byte at a time with the events it gives on the way. Where
chunks and transactions end does not show in it. -/

namespace Sys2Proof.Machine

/-- The event of a complete frame. -/
def frameEvent (p : List Byte) : HostEvent := { res := BitVec.ofNat 32 p.length, payload := some p }

/-- The event of an error. -/
def errorEvent (w : Word) : HostEvent := { res := w, payload := none }

/-- One byte more, where it is no delimiter and completes no frame: an append to `p`. -/
def feedAppend (c : Config) (p : List Byte) (b : Byte) : Parser × List HostEvent :=
  if p.length = c.capacity then (.idle, [errorEvent c.errOverflow]) else (.inFrame (p ++ [b]), [])

/-- A delimiter inside a frame. -/
def feedEnd (p : List Byte) : Parser × List HostEvent := if p = [] then (.inFrame [], []) else (.idle, [frameEvent p])

/-- One byte fed to the parser. -/
def feed (c : Config) (st : Parser) (b : Byte) : Parser × List HostEvent :=
  match st with
  | .idle => if b = startEnd then (.inFrame [], []) else (.idle, [])
  | .inFrame p =>
    if b = startEnd then feedEnd p else if b = escapeByte then (.escaped p, []) else feedAppend c p b
  | .escaped p =>
    if b = startEnd then feedEnd p
    else if b = escapedStartEnd then feedAppend c p startEnd
    else if b = escapedEscape then feedAppend c p escapeByte
    else (.idle, [errorEvent c.errInvalidEscape])

/-- A byte list fed to the parser: what it holds at the end, and the events on the way. -/
def feedAll (c : Config) : Parser → List Byte → Parser × List HostEvent
  | st, [] => (st, [])
  | st, b :: bs => ((feedAll c (feed c st b).1 bs).1, (feed c st b).2 ++ (feedAll c (feed c st b).1 bs).2)

theorem feedAll_append (c : Config) (bs cs : List Byte) : ∀ st : Parser,
    feedAll c st (bs ++ cs)
      = ((feedAll c (feedAll c st bs).1 cs).1, (feedAll c st bs).2 ++ (feedAll c (feedAll c st bs).1 cs).2) := by
  induction bs with
  | nil => intro st; rfl
  | cons b bs ih => intro st; simp only [List.cons_append, feedAll, ih, List.append_assoc]

/-- How a parse that ends relates to feeding: its event comes first, and the rest is fed from IDLE. -/
def endFeeds (c : Config) (bs : List Byte) (f : Parser × List HostEvent) : ParseEnd → Prop
  | .more st => f = (st, [])
  | .frameReady p rest =>
    p ≠ [] ∧ p.length ≤ c.capacity ∧ rest.length < bs.length
    ∧ f = ((feedAll c .idle rest).1, frameEvent p :: (feedAll c .idle rest).2)
  | .overflow rest =>
    rest.length < bs.length ∧ f = ((feedAll c .idle rest).1, errorEvent c.errOverflow :: (feedAll c .idle rest).2)
  | .invalidEscape rest =>
    rest.length < bs.length ∧ f = ((feedAll c .idle rest).1, errorEvent c.errInvalidEscape :: (feedAll c .idle rest).2)

theorem endFeeds_cons {c : Config} {b : Byte} {bs : List Byte} {f : Parser × List HostEvent} {e : ParseEnd}
    (h : endFeeds c bs f e) : endFeeds c (b :: bs) f e := by
  cases e with
  | more st => exact h
  | frameReady p rest => exact ⟨h.1, h.2.1, Nat.lt_succ_of_lt h.2.2.1, h.2.2.2⟩
  | overflow rest => exact ⟨Nat.lt_succ_of_lt h.1, h.2⟩
  | invalidEscape rest => exact ⟨Nat.lt_succ_of_lt h.1, h.2⟩

/-- A parse gives the events that feeding gives. -/
theorem parse_endFeeds (c : Config) (bs : List Byte) : ∀ st : Parser, parserFits c.capacity st →
    endFeeds c bs (feedAll c st bs) (parse c.capacity st bs) := by
  induction bs with
  | nil => intro st _; rfl
  | cons b bs ih =>
    have goOn : ∀ {st st' : Parser}, feed c st b = (st', []) → parse c.capacity st (b :: bs) = parse c.capacity st' bs →
        parserFits c.capacity st' → endFeeds c (b :: bs) (feedAll c st (b :: bs)) (parse c.capacity st (b :: bs)) := by
      intro st st' hf hp hfit
      have : feedAll c st (b :: bs) = feedAll c st' bs := by simp only [feedAll, hf, List.nil_append]
      rw [this, hp]
      exact endFeeds_cons (ih st' hfit)
    have happ : ∀ {st : Parser} {p : List Byte} {a : Byte}, p.length ≤ c.capacity → feed c st b = feedAppend c p a →
        parse c.capacity st (b :: bs) = (if p.length = c.capacity then .overflow bs else parse c.capacity (.inFrame (p ++ [a])) bs) →
        endFeeds c (b :: bs) (feedAll c st (b :: bs)) (parse c.capacity st (b :: bs)) := by
      intro st p a hfit hf hp
      by_cases hfull : p.length = c.capacity
      · rw [hp, if_pos hfull]
        refine ⟨Nat.lt_succ_self _, ?_⟩
        simp only [feedAll, hf, feedAppend, if_pos hfull, List.cons_append, List.nil_append]
      · refine goOn (st' := .inFrame (p ++ [a])) (by rw [hf, feedAppend, if_neg hfull]) (by rw [hp, if_neg hfull]) ?_
        simp only [parserFits, List.length_append, List.length_cons, List.length_nil]
        omega
    have hend : ∀ {st : Parser} {p : List Byte}, p.length ≤ c.capacity → feed c st b = feedEnd p →
        parse c.capacity st (b :: bs) = (if p = [] then parse c.capacity (.inFrame []) bs else .frameReady p bs) →
        endFeeds c (b :: bs) (feedAll c st (b :: bs)) (parse c.capacity st (b :: bs)) := by
      intro st p hfit hf hp
      by_cases hemp : p = []
      · exact goOn (st' := .inFrame []) (by rw [hf, feedEnd, if_pos hemp]) (by rw [hp, if_pos hemp]) (Nat.zero_le _)
      · rw [hp, if_neg hemp]
        refine ⟨hemp, hfit, Nat.lt_succ_self _, ?_⟩
        simp only [feedAll, hf, feedEnd, if_neg hemp, List.cons_append, List.nil_append]
    intro st hfit
    cases st with
    | idle =>
      by_cases hb : b = startEnd
      · exact goOn (st' := .inFrame []) (by rw [feed, if_pos hb]) (by rw [parse, if_pos hb]) (Nat.zero_le _)
      · exact goOn (st' := .idle) (by rw [feed, if_neg hb]) (by rw [parse, if_neg hb]) trivial
    | inFrame p =>
      by_cases hb : b = startEnd
      · exact hend hfit (by rw [feed, if_pos hb]) (by rw [parse, if_pos hb])
      · by_cases he : b = escapeByte
        · exact goOn (st' := .escaped p) (by rw [feed, if_neg hb, if_pos he]) (by rw [parse, if_neg hb, if_pos he]) hfit
        · exact happ hfit (by rw [feed, if_neg hb, if_neg he]) (by rw [parse, if_neg hb, if_neg he])
    | escaped p =>
      by_cases hb : b = startEnd
      · exact hend hfit (by rw [feed, if_pos hb]) (by rw [parse, if_pos hb])
      · by_cases h1 : b = escapedStartEnd
        · exact happ hfit (by rw [feed, if_neg hb, if_pos h1]) (by rw [parse, if_neg hb, if_pos h1])
        · by_cases h2 : b = escapedEscape
          · exact happ hfit (by rw [feed, if_neg hb, if_neg h1, if_pos h2]) (by rw [parse, if_neg hb, if_neg h1, if_pos h2])
          · rw [parse, if_neg hb, if_neg h1, if_neg h2]
            refine ⟨Nat.lt_succ_self _, ?_⟩
            simp only [feedAll, feed, if_neg hb, if_neg h1, if_neg h2, List.cons_append, List.nil_append]

/-- What a command leaves, where the bytes left over are still to give the events `es` and end in `st`. -/
structure Delivers (s : State) (st : Parser) (es : List HostEvent) : Prop where
  inv : s.Inv
  closed : s.dec.window = none
  pending : (s.dec.res = 0#32 ∧ s.dec.leftLen = 0 ∧ parserMatches s.dec st ∧ es = [])
    ∨ (s.dec.res ≠ 0#32 ∧ s.dec.dstate = .idle ∧ ∃ rest, leftoverIs s.dec rest ∧ feedAll s.cfg .idle rest = (st, es))

/-- The end of a transaction delivers the event of its result, and leaves the rest to come. -/
theorem delivers_of_parse {s t : State} {st : Parser} {bs : List Byte} (hs : s.Inv) (ht : t = s.setDec t.dec)
    (hd : t.dec.Inv s.cfg) (hw : t.dec.window = none) (hfit : parserFits s.cfg.capacity st)
    (hp : parseResult s.cfg t.dec (parse s.cfg.capacity st bs)) :
    ∃ es, (feedAll s.cfg st bs).2 = eventOf t ++ es ∧ Delivers t (feedAll s.cfg st bs).1 es
      ∧ (t.dec.res ≠ 0#32 → t.dec.leftLen < bs.length) := by
  have hc : t.cfg = s.cfg := by rw [ht]; rfl
  have hi := hs.ofDec ht hd
  have hv := configValid_ranges hs.valid
  have hend := parse_endFeeds s.cfg bs st hfit
  cases he : parse s.cfg.capacity st bs with
  | more st' =>
    rw [he] at hend hp
    obtain ⟨h1, h2, h3⟩ := hp
    have hf : feedAll s.cfg st bs = (st', []) := hend
    refine ⟨[], by simp [hf, eventOf, h3], ⟨hi, hw, .inl ⟨h3, h2.1, by rw [hf]; exact h1, rfl⟩⟩, fun h => absurd h3 h⟩
  | frameReady p rest =>
    rw [he] at hend hp
    obtain ⟨h1, h2, h3, h4, h5⟩ := hp
    obtain ⟨e1, e2, e3, hf⟩ := hend
    have hpos : 0 < p.length := List.length_pos_iff.mpr e1
    have hnat : t.dec.res.toNat = p.length := by
      rw [h5, BitVec.toNat_ofNat]; exact Nat.mod_eq_of_lt (by omega)
    have hne : t.dec.res ≠ 0#32 := by intro h; rw [h] at hnat; simp at hnat; omega
    have hmsb : t.dec.res.msb = false := by
      rw [BitVec.msb_eq_decide, hnat]; simp; omega
    refine ⟨(feedAll s.cfg .idle rest).2, ?_, ⟨hi, hw, .inr ⟨hne, h1, rest, h4, by rw [hc, hf]⟩⟩, fun _ => by rw [h4.1]; exact e3⟩
    rw [hf]
    simp only [eventOf, if_neg hne, hmsb, hnat, h3, frameEvent, ← h5]
    rfl
  | overflow rest =>
    rw [he] at hend hp
    obtain ⟨h1, h2, h3, h4⟩ := hp
    obtain ⟨e3, hf⟩ := hend
    have hne : t.dec.res ≠ 0#32 := by rw [h4]; exact errOverflow_ne_zero hs.valid
    refine ⟨(feedAll s.cfg .idle rest).2, ?_, ⟨hi, hw, .inr ⟨hne, h1, rest, h3, by rw [hc, hf]⟩⟩, fun _ => by rw [h3.1]; exact e3⟩
    rw [hf]
    simp only [eventOf, if_neg hne]
    simp only [h4, hv.2.2.2.2.2.2.1, errorEvent]
    rfl
  | invalidEscape rest =>
    rw [he] at hend hp
    obtain ⟨h1, h2, h3, h4⟩ := hp
    obtain ⟨e3, hf⟩ := hend
    have hne : t.dec.res ≠ 0#32 := by rw [h4]; exact errInvalidEscape_ne_zero hs.valid
    refine ⟨(feedAll s.cfg .idle rest).2, ?_, ⟨hi, hw, .inr ⟨hne, h1, rest, h3, by rw [hc, hf]⟩⟩, fun _ => by rw [h3.1]; exact e3⟩
    rw [hf]
    simp only [eventOf, if_neg hne]
    simp only [h4, hv.2.2.2.2.2.2.2, errorEvent]
    rfl

/-- DRAIN, with the tick on the port and no timeout firing, delivers the next event. -/
theorem drain_delivers {s : State} {st : Parser} {es : List HostEvent} (h : Delivers s st es) (hne : s.dec.res ≠ 0#32)
    (hto : s.dec.leftLen ≠ 0 → timedOut s.cfg (tickNow s) s.dec.lastT = false) :
    ∃ t es', execDrain s = .next t ∧ t = s.setDec t.dec ∧ es = eventOf t ++ es' ∧ Delivers t st es'
      ∧ (t.dec.res ≠ 0#32 → t.dec.leftLen < s.dec.leftLen)
      ∧ t.dec.lastT = (if s.dec.leftLen = 0 then s.dec.lastT else tickNow s) := by
  rcases h.pending with ⟨h0, _⟩ | ⟨_, hidle, rest, hleft, hfeed⟩
  · exact absurd h0 hne
  by_cases hl : s.dec.leftLen = 0
  · have hdrain : execDrain s = .next (s.setDec { s.dec with res := 0#32 }) := by simp [execDrain, hl, resultWord]
    have hrest : rest = [] := List.eq_nil_of_length_eq_zero (by rw [← hleft.1, hl])
    subst hrest
    cases hfeed
    refine ⟨_, [], hdrain, rfl, by simp [eventOf], ⟨?_, h.closed, .inl ⟨rfl, hl, hidle, rfl⟩⟩, fun h => absurd rfl h, by simp [hl]⟩
    have hi := execDrain_inv h.inv hdrain
    exact h.inv.ofDec hi.1 hi.2
  · have hm : parserMatches (clearLeft s).dec .idle := hidle
    obtain ⟨d, h1, h2, _, h4, _, h6⟩ := processWindow_parses (s := clearLeft s) (t := tickNow s) h.inv.dec.wp_le
      h.inv.dec.left_le hleft.2 rfl hm
    have hdrain : execDrain s = .next (s.setDec d) := by
      rw [execDrain, if_neg hl, h1]; rfl
    have hto' : timedOut (clearLeft s).cfg (tickNow s) (clearLeft s).dec.lastT = false := hto hl
    rw [hto'] at h2
    simp only [Bool.false_eq_true, if_false] at h2
    obtain ⟨es', e1, e2, e3⟩ := delivers_of_parse (t := s.setDec d) h.inv rfl (execDrain_inv h.inv hdrain).2 h6
      (st := .idle) trivial h2
    rw [hfeed] at e1 e2
    exact ⟨_, es', hdrain, rfl, e1, e2, fun h => by rw [hleft.1]; exact e3 h, by simp only [if_neg hl]; exact h4⟩

/-- PROCESS of a staged chunk, with no timeout firing, delivers its first event. -/
theorem process_delivers {s : State} {len : Len} {bs : List Byte} {st : Parser} (hs : s.Inv) (hl : s.dec.leftLen = 0)
    (hlen : len.toNat ≤ s.cfg.inMemSize) (hb : bytesAt s.dec.inMem 0 len.toNat = some bs) (hm : parserMatches s.dec st)
    (hto : timedOut s.cfg (tickNow s) s.dec.lastT = false) :
    ∃ t es, execProcess len s = .next t ∧ t = s.setDec t.dec ∧ (feedAll s.cfg st bs).2 = eventOf t ++ es
      ∧ Delivers t (feedAll s.cfg st bs).1 es ∧ (t.dec.res ≠ 0#32 → t.dec.leftLen < bs.length) ∧ t.dec.lastT = tickNow s := by
  obtain ⟨d, h1, h2, _, h4, _, h6⟩ := processWindow_parses (t := tickNow s) hs.dec.wp_le (base := 0) (by omega) hb hl hm
  have hw : allWritten s.dec.inMem 0 len.toNat = true := allWritten_iff_bytesAt.mpr ⟨bs, hb⟩
  have hproc : execProcess len s = .next (s.setDec d) := by
    simp only [execProcess, byteCount, Nat.not_lt.mpr hlen, if_false, hl, hw, if_true, h1]
    rfl
  rw [hto] at h2
  simp only [Bool.false_eq_true, if_false] at h2
  obtain ⟨es, e1, e2, e3⟩ := delivers_of_parse (t := s.setDec d) hs rfl (execProcess_inv hs hproc).2 h6
    (parserFits_of_matches hs.dec.wp_le hm) h2
  exact ⟨_, es, hproc, rfl, e1, e2, e3, h4⟩

/-- Staging a chunk within IN_MEM, with no leftover, succeeds, and changes IN_MEM alone. -/
theorem stageChunk_spec (bs : List Byte) : ∀ {a : Nat} {s : State}, s.Inv → s.dec.leftLen = 0 → s.dec.window = none →
    a + bs.length ≤ s.cfg.inMemSize →
    ∃ m, stageChunk bs a s = some (s.setDec { s.dec with inMem := m }) ∧ (s.setDec { s.dec with inMem := m }).Inv
      ∧ bytesAt m a bs.length = some bs ∧ ∀ k, k < a → memRead m k = memRead s.dec.inMem k := by
  induction bs with
  | nil => intro a s hs _ _ _; exact ⟨s.dec.inMem, rfl, hs, rfl, fun _ _ => rfl⟩
  | cons b bs ih =>
    intro a s hs hl hw hin
    simp only [List.length_cons] at hin
    have hwrite : memWriteAccess .inMem a b s = .next (s.setDec { s.dec with inMem := memWrite s.dec.inMem a b }) := by
      simp only [memWriteAccess, hostWriteIn, Nat.not_le.mpr (show a < s.cfg.inMemSize by omega), if_false, hl]
      rfl
    have hs' : (s.setDec { s.dec with inMem := memWrite s.dec.inMem a b }).Inv := by
      have hd := hs.dec
      exact ⟨hs.valid, ⟨hd.wp_le, hd.out_written, hd.left_le, hd.left_empty, allWritten_memWrite hd.left_written _ _,
        hd.lastT_lt, hd.zero_left, hd.res_legal, Memory.wf_memWrite hd.in_wf _ _,
        Memory.within_memWrite hd.in_within (by omega) _, hd.out_wf, hd.out_within,
        fun w h => by
          have h' : s.dec.window = some w := h
          rw [hw] at h'; cases h'⟩, hs.enc⟩
    obtain ⟨m, h1, h2, h3, h4⟩ := ih (a := a + 1) hs' hl hw (by simpa using (by omega : a + 1 + bs.length ≤ s.cfg.inMemSize))
    refine ⟨m, ?_, h2, ?_, fun k hk => ?_⟩
    · simp only [stageChunk, hwrite, nextOf]; exact h1
    · rw [List.length_cons, bytesAt_cons]
      exact ⟨by rw [h4 a (by omega)]; simp, h3⟩
    · rw [h4 k (by omega)]
      exact memRead_memWrite_other _ _ (by omega)

end Sys2Proof.Machine
end

