-- ==== Sys2Proof/Laws/PerInstr.lean ====
section
/-! SUPPORT. What is said of each instruction, as syntax: its word fits its row of spec/opcode_table.json. -/

namespace Sys2Proof.Laws.TableRow

/-- The columns of a row: the register it is written to (none for a wire byte), mask and match. -/
structure Row where
  register : Option Block
  mask : Word
  value : Word
deriving DecidableEq, Repr

/-- The rows of spec/opcode_table.json, copied column by column. -/
def row : Instr → Row
  | .init => ⟨some .decoder, 0xFFFFFFFF#32, 0x00000001#32⟩
  | .reset => ⟨some .decoder, 0xFFFFFFFF#32, 0x00000002#32⟩
  | .process _ => ⟨some .decoder, 0x000000FF#32, 0x00000003#32⟩
  | .drain => ⟨some .decoder, 0xFFFFFFFF#32, 0x00000004#32⟩
  | .encode _ => ⟨some .encoder, 0x000000FF#32, 0x00000010#32⟩
  | .start => ⟨none, 0xFF#32, 0xC0#32⟩
  | .skip _ => ⟨none, 0x00#32, 0x00#32⟩
  | .endFrame => ⟨none, 0xFF#32, 0xC0#32⟩
  | .escEnd => ⟨none, 0xFF#32, 0xDC#32⟩
  | .escEsc => ⟨none, 0xFF#32, 0xDD#32⟩
  | .badEsc _ => ⟨none, 0x00#32, 0x00#32⟩
  | .esc => ⟨none, 0xFF#32, 0xDB#32⟩
  | .data _ => ⟨none, 0x00#32, 0x00#32⟩

/-- Where a word goes. -/
def register : CodeWord → Option Block
  | .decCmd _ => some .decoder
  | .encCmd _ => some .encoder
  | .wire _ => none

/-- The bits of a word, numbered as the table numbers them. -/
def bits : CodeWord → Word
  | .decCmd w => w
  | .encCmd w => w
  | .wire b => b.setWidth 32

/-- The word of an instruction goes to its row's register, and under its row's mask is its row's match. -/
def Statement (i : Instr) : Prop :=
  register (encode i) = (row i).register ∧ bits (encode i) &&& (row i).mask = (row i).value

/-- The low eight bits of a command word are its OP (R60). -/
theorem commandWord_and_opMask (op : Byte) (len : Len) : commandWord op len &&& 0x000000FF#32 = op.setWidth 32 := by
  apply BitVec.eq_of_getLsbD_eq
  intro i hi
  have hmask : (0x000000FF#32).getLsbD i = decide (i < 8) := by
    rw [show (0x000000FF#32) = (BitVec.allOnes 8).setWidth 32 by decide, BitVec.getLsbD_setWidth, BitVec.getLsbD_allOnes]
    simp [hi]
  rw [BitVec.getLsbD_and, hmask, commandWord, BitVec.getLsbD_append, BitVec.getLsbD_setWidth]
  by_cases h : i < 8
  · simp [h, hi]
  · simp [h, BitVec.getLsbD_of_ge op i (by omega)]

theorem init : Statement .init := ⟨rfl, by decide⟩

theorem reset : Statement .reset := ⟨rfl, by decide⟩

theorem drain : Statement .drain := ⟨rfl, by decide⟩

theorem start : Statement .start := ⟨rfl, by decide⟩

theorem endFrame : Statement .endFrame := ⟨rfl, by decide⟩

theorem escEnd : Statement .escEnd := ⟨rfl, by decide⟩

theorem escEsc : Statement .escEsc := ⟨rfl, by decide⟩

theorem esc : Statement .esc := ⟨rfl, by decide⟩

theorem process (len : Len) : Statement (.process len) := ⟨rfl, commandWord_and_opMask 0x03#8 len⟩

theorem encode (len : Len) : Statement (.encode len) := ⟨rfl, commandWord_and_opMask 0x10#8 len⟩

theorem skip (b : Byte) : Statement (.skip b) := ⟨rfl, BitVec.and_zero⟩

theorem badEsc (b : Byte) : Statement (.badEsc b) := ⟨rfl, BitVec.and_zero⟩

theorem data (b : Byte) : Statement (.data b) := ⟨rfl, BitVec.and_zero⟩

end Sys2Proof.Laws.TableRow
end

