-- ==== Sys2Proof/Tests/Slice0.lean ====
section
/-! SUPPORT. Tests and witnesses. Expected values are those of spec/95_test_vectors.md (T1, S1, P3, …), or are worked by hand from the rule named; none is the model's own answer. A witness_X shows a state and operands that meet the hypotheses of Obligations.X, clause by clause where it has several. -/

namespace Sys2Proof.Tests

open Sys2Proof Sys2Proof.Machine

/-! ## Small states -/

/-- A memory holding these bytes from address `a` on. -/
def bytesFrom : Nat → List Byte → Mem
  | _, [] => []
  | a, b :: bs => (a, b) :: bytesFrom (a + 1) bs

/-- The reset state with these bytes in IN_MEM, this word written to DEC_CMD, and this value on the tick port. -/
def commanded (bytes : List Byte) (w : Word) (tick : Nat) : State :=
  { State.reset with
    dec := { Decoder.reset with inMem := bytesFrom 0 bytes }
    inputs := [.access (.regWrite .decoder 0 0 4 w)]
    tick := tick }

/-- The decoder in a frame state, holding a partial payload. -/
def holding (s : State) (d : DState) (p : List Byte) : State :=
  s.setDec { s.dec with dstate := d, wp := p.length, outMem := bytesFrom 0 p }

/-- A one-byte window open on the byte `b`, in a frame state with a partial payload, in a buffer of `cap` bytes. -/
def onByte (cap : Nat) (d : DState) (p : List Byte) (b : Byte) : State :=
  { State.reset with
    cfg := { Config.standard with capacity := cap }
    dec := { Decoder.reset with
      dstate := d, wp := p.length, outMem := bytesFrom 0 p, inMem := [(0, b)]
      window := some { base := 0, len := 1, pos := 0 } } }

/-- The reset state with this CHUNK_SIZE, this payload in PAY_MEM and these inputs. -/
def sending (chunkSize : Nat) (payload : List Byte) (inputs : List Input) : State :=
  { State.reset with
    cfg := { Config.standard with chunkSize := chunkSize }
    enc := { Encoder.reset with payMem := bytesFrom 0 payload }
    inputs := inputs }

/-- What a test looks at: DSTATE, WP, LEFT_OFF, LEFT_LEN, RES. -/
def decoderView (r : StepResult) : Option (DState × Nat × Nat × Nat × Word) :=
  (nextOf r).map fun s => (s.dec.dstate, s.dec.wp, s.dec.leftOff, s.dec.leftLen, s.dec.res)

/-- The bytes of OUT_MEM. -/
def outView (r : StepResult) : Option Mem := (nextOf r).map fun s => s.dec.outMem

/-- The chunks presented, ENC_BUSY, ENC_RES, SEND_ERR. -/
def encoderView (r : StepResult) : Option (List (List Byte) × Bool × Bool × Nat) :=
  (nextOf r).map fun s => (s.sinkOut, s.enc.busy, s.enc.res, s.enc.sendErr)

/-- Whether a step stops with this fault. -/
def stopsWith (f : Fault) : StepResult → Bool
  | .next _ => false
  | .fault g => f == g
  | .refused _ => false

/-! ## Ill-formed terms -/

theorem test_illformed_skip : (Instr.skip 0xC0#8).wellFormed = false := by decide
theorem test_illformed_badEsc_delimiter : (Instr.badEsc 0xC0#8).wellFormed = false := by decide
theorem test_illformed_badEsc_end : (Instr.badEsc 0xDC#8).wellFormed = false := by decide
theorem test_illformed_badEsc_esc : (Instr.badEsc 0xDD#8).wellFormed = false := by decide
theorem test_illformed_data_delimiter : (Instr.data 0xC0#8).wellFormed = false := by decide
theorem test_illformed_data_escape : (Instr.data 0xDB#8).wellFormed = false := by decide
theorem test_wrong_state_start : Instr.start.readIn .inFrame = false := by decide
theorem test_wrong_state_esc : Instr.esc.readIn .inFrameEscaped = false := by decide

/-! ## Decoding: words from section 2 of the test vectors, bytes from its section 5 -/

theorem test_decode_init : decode .idle (.decCmd 0b00000000000000000000000000000001#32) = .ok .init := by decide
theorem test_decode_reset : decode .idle (.decCmd 0b00000000000000000000000000000010#32) = .ok .reset := by decide
theorem test_decode_process : decode .idle (.decCmd 0b00000000000000000000100100000011#32) = .ok (.process 9#24) := by decide
theorem test_decode_process_longest : decode .idle (.decCmd 0xFFFFFF03#32) = .ok (.process 0xFFFFFF#24) := by decide
theorem test_decode_drain : decode .idle (.decCmd 0b00000000000000000000000000000100#32) = .ok .drain := by decide
theorem test_decode_encode : decode .idle (.encCmd 0b00000000000000000000011000010000#32) = .ok (.encode 6#24) := by decide
theorem test_decode_start : decode .idle (.wire 0b11000000#8) = .ok .start := by decide
theorem test_decode_skip : decode .idle (.wire 0b11011011#8) = .ok (.skip 0b11011011#8) := by decide
theorem test_decode_end : decode .inFrameEscaped (.wire 0b11000000#8) = .ok .endFrame := by decide
theorem test_decode_escEnd : decode .inFrameEscaped (.wire 0b11011100#8) = .ok .escEnd := by decide
theorem test_decode_escEsc : decode .inFrameEscaped (.wire 0b11011101#8) = .ok .escEsc := by decide
theorem test_decode_badEsc : decode .inFrameEscaped (.wire 0b11011011#8) = .ok (.badEsc 0b11011011#8) := by decide
theorem test_decode_esc : decode .inFrame (.wire 0b11011011#8) = .ok .esc := by decide
theorem test_decode_data : decode .inFrame (.wire 0b11011100#8) = .ok (.data 0b11011100#8) := by decide
theorem test_reject_op : decode .idle (.decCmd 0x00000005#32) = .error .reservedOp := by decide
theorem test_reject_len : decode .idle (.decCmd 0x00000104#32) = .error .nonzeroLen := by decide
theorem test_reject_encode_word : decode .idle (.decCmd 0x00000010#32) = .error .reservedOp := by decide
theorem test_reject_process_word : decode .idle (.encCmd 0x00000003#32) = .error .reservedOp := by decide

/-- The table's numbering of bits: a command word as it stands, a wire byte in the DSTATE of log 5. -/
theorem test_table_words : decodeTableWord 32 0x503 = some (.process 5#24) ∧ decodeTableWord 32 0x110 = some (.encode 1#24)
    ∧ decodeTableWord 8 0xDD = some .escEsc ∧ decodeTableWord 32 0x104 = none := by decide

/-- The placed word is what the next step runs: an ENCODE of no bytes presents `C0 C0` (R93); an escaped 0xDD appends 0xDB (R83). -/
theorem test_placed_word : (encoderView (step (State.reset.withFetchWord 32 0x10))).map Prod.fst = some [[0xC0#8, 0xC0#8]]
    ∧ outView (step (State.reset.withFetchWord 8 0xDD)) = some [(0, 0xDB#8)] := by decide

/-! ## One step of each instruction -/

/-- T42: INIT leaves RES, OUT_MEM and LAST_T, and clears the frame state. -/
theorem test_init : decoderView (step (holding (commanded [] 0x00000001#32 0) .inFrame [0x01#8, 0x02#8]))
    = some (.idle, 0, 0, 0, 0#32) := by decide

/-- T43: RESET clears the leftover. -/
theorem test_reset_leftover : decoderView (exec .reset (State.reset.setDec { Decoder.reset with leftOff := 3, leftLen := 3, res := 1#32 }))
    = some (.idle, 0, 0, 0, 1#32) := by decide

/-- S2: `C0 01 02 03 DB DC 04 C0` gives FrameReady(5). -/
theorem test_process_frame :
    decoderView (step (commanded [0xC0#8, 0x01#8, 0x02#8, 0x03#8, 0xDB#8, 0xDC#8, 0x04#8, 0xC0#8] 0x00000803#32 0))
      = some (.idle, 5, 0, 0, 5#32) := by decide

/-- T10: a bad escape leaves the bytes after it as the leftover (3, 2). -/
theorem test_process_bad_escape :
    decoderView (step (commanded [0xC0#8, 0xDB#8, 0x05#8, 0x06#8, 0xC0#8] 0x00000503#32 0))
      = some (.idle, 0, 3, 2, 0xFFFFFFFE#32) := by decide

/-- T34: a DRAIN whose timeout fires still processes the saved leftover. -/
theorem test_drain_after_timeout :
    decoderView (exec .drain ((commanded [0xC0#8, 0x01#8, 0xC0#8, 0xC0#8, 0x05#8, 0xC0#8] 0#32 1000).setDec
      { Decoder.reset with
        wp := 1, leftOff := 3, leftLen := 3, res := 1#32, outMem := [(0, 0x01#8)]
        inMem := bytesFrom 0 [0xC0#8, 0x01#8, 0xC0#8, 0xC0#8, 0x05#8, 0xC0#8] }))
      = some (.idle, 1, 0, 0, 1#32) := by decide

/-- T35: an empty DRAIN writes RES alone. -/
theorem test_drain_empty : nextOf (exec .drain ((holding State.reset .inFrame [0x01#8]).setTick 900))
    = some ((holding State.reset .inFrame [0x01#8]).setTick 900) := by decide

/-- S3: with CHUNK_SIZE 11 the payload goes out as one chunk. -/
theorem test_encode_one_chunk :
    encoderView (step (sending 11 [0x01#8, 0xC0#8, 0xC0#8, 0x02#8, 0xDB#8, 0x03#8] [.access (.regWrite .encoder 0 0 4 0x00000610#32)]))
      = some ([[0xC0#8, 0x01#8, 0xDB#8, 0xDC#8, 0xDB#8, 0xDC#8, 0x02#8, 0xDB#8, 0xDD#8, 0x03#8, 0xC0#8]], true, false, 0) := by decide

/-- T52: with CHUNK_SIZE 3 the payload `C0` fills the scratch buffer, and a closing flush comes first. -/
theorem test_encode_closing_flush :
    encoderView (step (sending 3 [0xC0#8] [.access (.regWrite .encoder 0 0 4 0x00000110#32)]))
      = some ([[0xC0#8, 0xDB#8, 0xDC#8]], true, false, 0) := by decide

/-- R80: START clears WP and enters IN_FRAME. -/
theorem test_start : decoderView (step (State.reset.withFetchWord 8 0xC0)) = some (.inFrame, 0, 0, 0, 0#32) := by decide

/-- T5: in IDLE an escape byte is ignored. -/
theorem test_skip : decoderView (step (onByte 8 .idle [] 0xDB#8)) = some (.idle, 0, 0, 0, 0#32) := by decide

/-- T7: a delimiter after ESC ends the frame. -/
theorem test_end_escaped : decoderView (step (onByte 8 .inFrameEscaped [0x01#8] 0xC0#8)) = some (.idle, 1, 0, 0, 1#32) := by decide

/-- T8: a delimiter after ESC with WP = 0 restarts in IN_FRAME. -/
theorem test_end_restarts : decoderView (step (onByte 8 .inFrameEscaped [] 0xC0#8)) = some (.inFrame, 0, 0, 0, 0#32) := by decide

/-- T15: ESC_END appends 0xC0 at WP. -/
theorem test_escEnd : outView (step (onByte 8 .inFrameEscaped [0x01#8] 0xDC#8)) = some [(0, 0x01#8), (1, 0xC0#8)] := by decide

/-- T22: a decoded escape counts against CAPACITY. -/
theorem test_escEnd_overflow : decoderView (step (onByte 1 .inFrameEscaped [0x01#8] 0xDC#8))
    = some (.idle, 0, 0, 0, 0xFFFFFFFF#32) := by decide

/-- T1: ESC_ESC appends 0xDB. -/
theorem test_escEsc : outView (step (onByte 8 .inFrameEscaped [] 0xDD#8)) = some [(0, 0xDB#8)] := by decide

/-- T23: a bad escape at a full buffer reports InvalidEscapeSequence, and OUT_MEM keeps its bytes. -/
theorem test_badEsc_full : decoderView (step (onByte 1 .inFrameEscaped [0x01#8] 0x41#8)) = some (.idle, 0, 0, 0, 0xFFFFFFFE#32)
    ∧ outView (step (onByte 1 .inFrameEscaped [0x01#8] 0x41#8)) = some [(0, 0x01#8)] := by decide

/-- T24: at WP = CAPACITY an ESC appends nothing and does not overflow. -/
theorem test_esc_full : decoderView (step (onByte 1 .inFrame [0x01#8] 0xDB#8)) = some (.inFrameEscaped, 1, 0, 0, 0#32) := by decide

/-- T6: 0xDC without ESC is data. -/
theorem test_data : outView (step (onByte 8 .inFrame [] 0xDC#8)) = some [(0, 0xDC#8)] := by decide

/-- T27: the byte after a full buffer overflows; on the last byte of the window there is no leftover. -/
theorem test_data_overflow : decoderView (step (onByte 2 .inFrame [0x01#8, 0x02#8] 0x03#8))
    = some (.idle, 0, 0, 0, 0xFFFFFFFF#32) := by decide

/-! ## Beside the instructions -/

/-- T31, T30: a gap of 500 does not exceed the timeout, 501 does. T38: elapsed (4 - 250) mod 256 = 10. -/
theorem test_elapsed : timedOut Config.standard 500 0 = false ∧ timedOut Config.standard 501 0 = true
    ∧ elapsed 32 0x10 0xFFFFFF00 = 272 ∧ elapsed 8 4 250 = 10 := by decide

/-- T61: a failing first flush ends the ENCODE with the sink's value; T63: no more of the payload is sent. -/
theorem test_sink_failure : encoderView (runSteps 2 (sending 3 [0x01#8, 0x02#8]
    [.access (.regWrite .encoder 0 0 4 0x00000210#32), .sinkAnswer 1 (.fail 7)]))
      = some ([[0xC0#8, 0x01#8]], false, true, 7) := by decide

/-- T53: `C0 01 | 02 C0`. -/
theorem test_sink_ok : encoderView (runSteps 3 (sending 3 [0x01#8, 0x02#8]
    [.access (.regWrite .encoder 0 0 4 0x00000210#32), .sinkAnswer 1 .ok, .sinkAnswer 2 .ok]))
      = some ([[0xC0#8, 0x01#8], [0x02#8, 0xC0#8]], false, false, 0) := by decide

/-- T56: escape pairs are never split across chunks. -/
theorem test_chunks : chunksOf 3 [0xC0#8, 0xC0#8, 0xC0#8]
    = [[0xC0#8, 0xDB#8, 0xDC#8], [0xDB#8, 0xDC#8], [0xDB#8, 0xDC#8, 0xC0#8]] := by decide

/-- T45 to T49: host faults. -/
theorem test_host_faults :
    stopsWith .unwrittenRead (step (commanded [0xC0#8, 0x01#8] 0x00000303#32 0)) = true
    ∧ stopsWith .memRange (step (commanded [] 0x00010103#32 0)) = true
    ∧ stopsWith .leftoverNotDrained (exec (.process 3#24) (State.reset.setDec { Decoder.reset with leftOff := 3, leftLen := 3 })) = true
    ∧ stopsWith .memRange (step (State.reset.setInputs [.access (.memWrite .outMem 0 0#8)])) = true
    ∧ stopsWith .reservedCmd (step (commanded [] 0x00000104#32 0)) = true
    ∧ stopsWith .regAccess (step (State.reset.setInputs [.access (.regRead .decoder 0 0 4)])) = true := by decide

/-- T48: ENC_CMD written while busy. -/
theorem test_busy : stopsWith .busy (step ((sending 3 [0x01#8] [.access (.regWrite .encoder 0 0 4 0x00000110#32)]).setEnc
    { Encoder.reset with busy := true })) = true := by decide

/-! ## Witnesses -/

/-- The invariant's parts as one decidable proposition, for a state with no open window. -/
abbrev Checks (s : State) : Prop :=
  configValid s.cfg = true
  ∧ (s.dec.wp ≤ s.cfg.capacity ∧ allWritten s.dec.outMem 0 s.dec.wp = true ∧ s.dec.leftOff + s.dec.leftLen ≤ s.cfg.inMemSize
    ∧ (s.dec.leftLen = 0 → s.dec.leftOff = 0) ∧ allWritten s.dec.inMem s.dec.leftOff s.dec.leftLen = true
    ∧ s.dec.lastT < 2 ^ s.cfg.wTick ∧ (s.dec.res = 0#32 → s.dec.leftLen = 0)
    ∧ (s.dec.res = 0#32
      ∨ (1 ≤ s.dec.res.toNat ∧ s.dec.res.toNat ≤ s.cfg.capacity ∧ allWritten s.dec.outMem 0 s.dec.res.toNat = true)
      ∨ s.dec.res = s.cfg.errOverflow ∨ s.dec.res = s.cfg.errInvalidEscape)
    ∧ Memory.wf s.dec.inMem = true ∧ Memory.within s.cfg.inMemSize s.dec.inMem = true ∧ Memory.wf s.dec.outMem = true
    ∧ Memory.within s.cfg.capacity s.dec.outMem = true ∧ s.dec.window = none)
  ∧ ((s.enc.busy = true ↔ s.enc.wait ≠ none) ∧ s.enc.epos ≤ s.cfg.chunkSize ∧ s.enc.ej ≤ s.enc.len
    ∧ s.enc.len ≤ s.cfg.payMemSize ∧ (s.enc.busy = true → allWritten s.enc.payMem 0 s.enc.len = true)
    ∧ allWritten s.enc.scratch 0 s.enc.epos = true ∧ (s.enc.wait ≠ none → 1 ≤ s.enc.epos)
    ∧ (s.enc.wait = some .body → s.enc.ej < s.enc.len ∧ s.cfg.chunkSize ≤ s.enc.epos + 1)
    ∧ (s.enc.wait = some .closing → s.enc.ej = s.enc.len ∧ s.enc.epos = s.cfg.chunkSize)
    ∧ (s.enc.wait = some .final → s.enc.ej = s.enc.len) ∧ s.enc.sendErr < 2 ^ s.cfg.wErr
    ∧ Memory.wf s.enc.payMem = true ∧ Memory.within s.cfg.payMemSize s.enc.payMem = true
    ∧ Memory.wf s.enc.scratch = true ∧ Memory.within s.cfg.chunkSize s.enc.scratch = true)

theorem inv_of_checks {s : State} (h : Checks s) : s.Inv := by
  obtain ⟨v, ⟨a, b, c, d, e, f, g, i, j, k, l, m, n⟩, o, p, q, r, t, u, w, x, y, z, a', b', c', d', e'⟩ := h
  exact ⟨v, ⟨a, b, c, d, e, f, g, i, j, k, l, m, fun _ hw => by rw [n] at hw; cases hw⟩,
    ⟨o, p, q, r, t, u, w, x, y, z, a', b', c', d', e'⟩⟩

theorem next_of_isSome {r : StepResult} (h : (nextOf r).isSome = true) : ∃ t, r = .next t := by
  cases r with
  | next s => exact ⟨s, rfl⟩
  | fault f => cases h
  | refused f => cases h

/-- A state in the middle of a frame, with three bytes staged: one payload byte held, `02 C0 05` to come. -/
def midFrame : State := (holding (commanded [0x02#8, 0xC0#8, 0x05#8] 0x00000303#32 500) .inFrame [0x01#8]).setTick 500

theorem midFrame_inv : midFrame.Inv := inv_of_checks (by decide)

/-- A state with a leftover of two bytes, `05 C0`, after a frame of one byte. -/
def withLeftover : State :=
  (commanded [0xC0#8, 0x01#8, 0xC0#8, 0x05#8, 0xC0#8] 0x00000004#32 7).setDec
    { Decoder.reset with
      wp := 1, res := 1#32, leftOff := 3, leftLen := 2, outMem := [(0, 0x01#8)]
      inMem := bytesFrom 0 [0xC0#8, 0x01#8, 0xC0#8, 0x05#8, 0xC0#8] }

theorem withLeftover_inv : withLeftover.Inv := inv_of_checks (by decide)

/-- T65: an encoder that waits in a body flush with `C0 01` presented, and nothing more arriving but a tick. -/
def waiting : State :=
  { sending 3 [0x01#8, 0x02#8] [.tick 9] with
    enc := { Encoder.reset with
      busy := true, epos := 2, ej := 1, len := 2, wait := some .body
      payMem := bytesFrom 0 [0x01#8, 0x02#8], scratch := bytesFrom 0 [0xC0#8, 0x01#8] }
    sinkOut := [[0xC0#8, 0x01#8]] }

theorem waiting_inv : waiting.Inv := inv_of_checks (by decide)

/-- Section 0's start state. -/
theorem reset_inv : State.reset.Inv := inv_of_checks (by decide)

theorem witness_DecodeEncodeAgree :
    (Instr.badEsc 0xDB#8).wellFormed = true ∧ (Instr.badEsc 0xDB#8).readIn .inFrameEscaped = true
    ∧ (Instr.data 0xDC#8).wellFormed = true ∧ (Instr.data 0xDC#8).readIn .inFrame = true
    ∧ (Instr.process 0xFFFFFF#24).wellFormed = true ∧ (Instr.process 0xFFFFFF#24).readIn .idle = true := by decide

theorem witness_EveryWordHasOneMeaning : decode .inFrameEscaped (.wire 0xC0#8) = .ok .endFrame
    ∧ decode .inFrame (.encCmd 0xFFFFFF10#32) = .ok (.encode 0xFFFFFF#24) := by decide

theorem witness_ByteClassTable : (0xC1#8 : Byte) ≠ 0xC0#8 ∧ (0xDB#8 : Byte) ≠ 0xC0#8 ∧ (0xDB#8 : Byte) ≠ 0xDC#8 ∧ (0xDB#8 : Byte) ≠ 0xDD#8
    ∧ (0xDC#8 : Byte) ≠ 0xDB#8 := by decide

/-- The least OP above the commands, OP 0, and the least LEN above 0. -/
theorem witness_ReservedCommandsRefused : configValid (commanded [] 0x00000005#32 0).cfg = true
    ∧ betweenCommands (commanded [] 0x00000005#32 0)
    ∧ (commanded [] 0x00000005#32 0).inputs = .access (.regWrite .decoder 0 0 4 0x00000005#32) :: []
    ∧ (0x00000005#32 : Word).toNat % 256 ∉ [1, 2, 3, 4] ∧ (0x00000000#32 : Word).toNat % 256 ∉ [1, 2, 3, 4]
    ∧ (0x00000104#32 : Word).toNat % 256 ∈ [1, 2, 4] ∧ (0x00000104#32 : Word).toNat / 256 ≠ 0 := by
  unfold betweenCommands; decide

/-- The OPs beside ENCODE's. -/
theorem witness_ReservedCommandsRefused_encoder :
    betweenCommands (sending 3 [] [.access (.regWrite .encoder 0 0 4 0x0000000F#32)])
    ∧ (sending 3 [] [.access (.regWrite .encoder 0 0 4 0x0000000F#32)]).enc.busy = false
    ∧ (0x0000000F#32 : Word).toNat % 256 ≠ 16 ∧ (0x00000011#32 : Word).toNat % 256 ≠ 16 := by
  unfold betweenCommands; decide

theorem witness_StepRunsDecodedInstruction_decoder : configValid midFrame.cfg = true ∧ betweenCommands midFrame
    ∧ midFrame.inputs = [.access (.regWrite .decoder 0 0 4 0x00000303#32)]
    ∧ decode midFrame.dec.dstate (.decCmd 0x00000303#32) = .ok (.process 3#24) := by
  unfold betweenCommands; decide

theorem witness_StepRunsDecodedInstruction_encoder :
    betweenCommands (sending 3 [0x01#8] [.access (.regWrite .encoder 0 0 4 0x00000110#32)])
    ∧ decode .idle (.encCmd 0x00000110#32) = .ok (.encode 1#24) := by
  unfold betweenCommands; decide

theorem witness_StepRunsDecodedInstruction_wire : configValid (onByte 8 .inFrame [] 0xDB#8).cfg = true
    ∧ (onByte 8 .inFrame [] 0xDB#8).dec.window = some { base := 0, len := 1, pos := 0 }
    ∧ memRead (onByte 8 .inFrame [] 0xDB#8).dec.inMem 0 = some 0xDB#8
    ∧ decode (onByte 8 .inFrame [] 0xDB#8).dec.dstate (.wire 0xDB#8) = .ok .esc := by decide

/-- The first value outside each range of R7 to R13, and the last inside. -/
theorem witness_ConfigurationOutOfRangeRefused : ∀ c ∈ [
      { Config.standard with capacity := 0 }, { Config.standard with capacity := 2 ^ 31 },
      { Config.standard with chunkSize := 2 }, { Config.standard with chunkSize := 2 ^ 24 },
      { Config.standard with wTick := 0 }, { Config.standard with inactivityTimeout := 2 ^ 32 },
      { Config.standard with inMemSize := 0 }, { Config.standard with inMemSize := 2 ^ 24 },
      { Config.standard with payMemSize := 2 ^ 24 }, { Config.standard with errOverflow := 0#32 },
      { Config.standard with errInvalidEscape := 0x7FFFFFFF#32 }, { Config.standard with errOverflow := 0xFFFFFFFE#32 }],
    c.capacity = 0 ∨ 2 ^ 31 - 1 < c.capacity ∨ c.chunkSize < 3 ∨ 2 ^ 24 - 1 < c.chunkSize
      ∨ c.wTick = 0 ∨ 2 ^ c.wTick - 1 < c.inactivityTimeout ∨ c.inMemSize = 0 ∨ 2 ^ 24 - 1 < c.inMemSize
      ∨ 2 ^ 24 - 1 < c.payMemSize ∨ 0 ≤ c.errOverflow.toInt ∨ 0 ≤ c.errInvalidEscape.toInt
      ∨ c.errOverflow = c.errInvalidEscape := by decide

theorem test_configuration_last_inside : ∀ c ∈ [
      { Config.standard with capacity := 1 }, { Config.standard with capacity := 2 ^ 31 - 1 },
      { Config.standard with chunkSize := 3 }, { Config.standard with chunkSize := 2 ^ 24 - 1 },
      { Config.standard with wTick := 1, inactivityTimeout := 1 }, { Config.standard with inMemSize := 1 },
      { Config.standard with inMemSize := 2 ^ 24 - 1 }, { Config.standard with payMemSize := 0 },
      { Config.standard with payMemSize := 2 ^ 24 - 1 }, { Config.standard with errOverflow := 0x80000000#32 }],
    configValid c = true := by decide

theorem witness_ConfigurationAndOutputsAreKept :
    ∃ t, step (sending 3 [0x01#8] [.access (.regWrite .encoder 0 0 4 0x00000110#32)]) = .next t :=
  next_of_isSome (by decide)

theorem witness_CommandsAreAtomic : betweenCommands midFrame ∧ ∃ t, step midFrame = .next t :=
  ⟨by unfold betweenCommands; decide, next_of_isSome (by decide)⟩

theorem witness_BytewiseStepsGiveTheTransaction :
    configValid (midFrame.setInputs []).cfg = true ∧ (midFrame.setInputs []).inputs = [] := by decide

theorem witness_HardwareResetValues : configValid (waiting.setInputs [.hwReset]).cfg = true
    ∧ betweenCommands (waiting.setInputs [.hwReset]) ∧ (waiting.setInputs [.hwReset]).inputs = .hwReset :: [] := by
  unfold betweenCommands; decide

theorem witness_StepKeepsInvariant : midFrame.Inv ∧ ∃ t, step midFrame = .next t :=
  ⟨midFrame_inv, next_of_isSome (by decide)⟩

theorem witness_IdleBytesStartOrAreIgnored :
    (onByte 8 .idle [] 0xC0#8).dec.window = some { base := 0, len := 1, pos := 0 } := by decide

theorem witness_EndRestartsOrCompletesTheFrame :
    (onByte 8 .inFrame [] 0xC0#8).dec.window = some { base := 0, len := 1, pos := 0 }
    ∧ (onByte 8 .inFrame [] 0xC0#8).dec.wp = 0 ∧ 0 < (onByte 8 .inFrame [0x01#8] 0xC0#8).dec.wp := by decide

theorem witness_EscapeByteArmsTheEscape :
    (onByte 1 .inFrame [0x01#8] 0xDB#8).dec.window = some { base := 0, len := 1, pos := 0 } := by decide

/-- One byte below CAPACITY, and at CAPACITY. -/
theorem witness_EscapedSuccessorAppendsDecodedByte :
    (onByte 2 .inFrameEscaped [0x01#8] 0xDC#8).dec.window = some { base := 0, len := 1, pos := 0 }
    ∧ (onByte 2 .inFrameEscaped [0x01#8] 0xDC#8).dec.wp < (onByte 2 .inFrameEscaped [0x01#8] 0xDC#8).cfg.capacity
    ∧ (onByte 1 .inFrameEscaped [0x01#8] 0xDD#8).dec.window = some { base := 0, len := 1, pos := 0 }
    ∧ (onByte 1 .inFrameEscaped [0x01#8] 0xDD#8).dec.wp = (onByte 1 .inFrameEscaped [0x01#8] 0xDD#8).cfg.capacity := by decide

/-- One byte below CAPACITY, and at CAPACITY. -/
theorem witness_DataByteIsAppended :
    (onByte 1 .inFrame [] 0x41#8).dec.window = some { base := 0, len := 1, pos := 0 }
    ∧ (onByte 1 .inFrame [] 0x41#8).dec.wp < (onByte 1 .inFrame [] 0x41#8).cfg.capacity
    ∧ (onByte 1 .inFrame [0x01#8] 0x41#8).dec.window = some { base := 0, len := 1, pos := 0 }
    ∧ (onByte 1 .inFrame [0x01#8] 0x41#8).dec.wp = (onByte 1 .inFrame [0x01#8] 0x41#8).cfg.capacity := by decide

theorem witness_BadEscapeIsAnError :
    (onByte 1 .inFrameEscaped [0x01#8] 0x41#8).dec.window = some { base := 0, len := 1, pos := 0 } := by decide

theorem witness_AppendBeyondCapacityStops :
    (onByte 1 .inFrame [0x01#8, 0x02#8] 0x41#8).cfg.capacity < (onByte 1 .inFrame [0x01#8, 0x02#8] 0x41#8).dec.wp := by decide

/-- 257 bytes of a memory of 256; 256 bytes with a leftover; three bytes, the last unwritten (T46). -/
theorem witness_ProcessStopsOnBrokenHostDuty : withLeftover.cfg.inMemSize < (257#24 : Len).toNat
    ∧ (256#24 : Len).toNat ≤ withLeftover.cfg.inMemSize ∧ 0 < withLeftover.dec.leftLen
    ∧ (commanded [0xC0#8, 0x01#8] 0#32 0).dec.leftLen = 0 ∧ 2 < (3#24 : Len).toNat
    ∧ memRead (commanded [0xC0#8, 0x01#8] 0#32 0).dec.inMem 2 = none := by decide

/-- A gap of 500 and a gap of 501. -/
theorem witness_EmptyProcessRunsOnlyTheTimeoutTest : midFrame.dec.leftLen = 0
    ∧ elapsed midFrame.cfg.wTick (tickNow midFrame) midFrame.dec.lastT ≤ midFrame.cfg.inactivityTimeout
    ∧ midFrame.cfg.inactivityTimeout < elapsed midFrame.cfg.wTick (tickNow (midFrame.setTick 501)) midFrame.dec.lastT := by decide

theorem witness_EmptyDrainReturnsZero : midFrame.dec.leftLen = 0 := by decide

theorem witness_ProcessParsesTheChunk : midFrame.Inv ∧ midFrame.dec.leftLen = 0 ∧ (3#24 : Len).toNat ≤ midFrame.cfg.inMemSize
    ∧ bytesAt midFrame.dec.inMem 0 (3#24 : Len).toNat = some [0x02#8, 0xC0#8, 0x05#8]
    ∧ parserMatches midFrame.dec (.inFrame [0x01#8]) :=
  ⟨midFrame_inv, by decide, by decide, by decide, by unfold parserMatches; decide⟩

theorem witness_DrainParsesTheLeftover : withLeftover.Inv ∧ 0 < withLeftover.dec.leftLen
    ∧ leftoverIs withLeftover.dec [0x05#8, 0xC0#8] ∧ parserMatches withLeftover.dec .idle :=
  ⟨withLeftover_inv, by decide, by unfold leftoverIs; decide, by unfold parserMatches; decide⟩

/-- PROCESS 3 of `02 C0 05` leaves one byte. A DRAIN of `C0 05 C0` in a frame that holds a byte leaves two. -/
theorem witness_LeftoverIsASuffixOfTheInput :
    (∃ t, exec (.process 3#24) midFrame = .next t) ∧ (∃ t, exec .drain withLeftover = .next t)
    ∧ (nextOf (exec (.process 3#24) midFrame)).map (fun t => decide (0 < t.dec.leftLen)) = some true
    ∧ (nextOf (exec .drain (withLeftover.setDec { withLeftover.dec with dstate := .inFrame, leftOff := 2, leftLen := 3 }))).map
        (fun t => decide (0 < t.dec.leftLen)) = some true :=
  ⟨next_of_isSome (by decide), next_of_isSome (by decide), by decide, by decide⟩

theorem witness_NeedMoreDataLeavesNoLeftover : midFrame.Inv ∧ withLeftover.Inv
    ∧ (nextOf (exec (.process 1#24) midFrame)).map (fun t => t.dec.res) = some 0#32
    ∧ (nextOf (exec .drain withLeftover)).map (fun t => t.dec.res) = some 0#32 :=
  ⟨midFrame_inv, withLeftover_inv, by decide, by decide⟩

theorem witness_LastTickWrittenOnlyByProcessing : (∃ t, exec (.process 1#24) midFrame = .next t)
    ∧ (∃ t, exec .drain withLeftover = .next t) ∧ (∃ t, exec .drain midFrame = .next t) ∧ ∃ t, exec .init midFrame = .next t :=
  ⟨next_of_isSome (by decide), next_of_isSome (by decide), next_of_isSome (by decide), next_of_isSome (by decide)⟩

theorem witness_IdleTimeoutIsInvisible : (commanded [0x01#8, 0xC0#8] 0#32 501).Inv
    ∧ (commanded [0x01#8, 0xC0#8] 0#32 501).dec.dstate = .idle ∧ (commanded [0x01#8, 0xC0#8] 0#32 501).dec.leftLen = 0
    ∧ (∃ t, exec (.process 2#24) (commanded [0x01#8, 0xC0#8] 0#32 501) = .next t)
    ∧ (nextOf (exec (.process 2#24) (commanded [0x01#8, 0xC0#8] 0#32 501))).map (fun t => t.dec.dstate) = some .inFrame :=
  ⟨inv_of_checks (by decide), by decide, by decide, next_of_isSome (by decide), by decide⟩

/-- The DRAIN side, with a leftover, in IDLE; the tick is 7 and with LAST_T = 1000 the timeout fires. -/
theorem witness_IdleTimeoutIsInvisible_drain : withLeftover.Inv ∧ withLeftover.dec.dstate = .idle ∧ 0 < withLeftover.dec.leftLen
    ∧ (∃ t, exec .drain withLeftover = .next t) ∧ timedOut withLeftover.cfg (tickNow withLeftover) withLeftover.dec.lastT = false
    ∧ timedOut withLeftover.cfg (tickNow withLeftover) 1000 = true :=
  ⟨withLeftover_inv, by decide, by decide, next_of_isSome (by decide), by decide, by decide⟩

theorem witness_DelimitersCoalesce : (commanded [0xC0#8, 0xC0#8] 0#32 0).Inv
    ∧ (commanded [0xC0#8, 0xC0#8] 0#32 0).dec.leftLen = 0 ∧ 1 ≤ (2#24 : Len).toNat
    ∧ (2#24 : Len).toNat ≤ (commanded [0xC0#8, 0xC0#8] 0#32 0).cfg.inMemSize
    ∧ (∀ a, a < (2#24 : Len).toNat → memRead (commanded [0xC0#8, 0xC0#8] 0#32 0).dec.inMem a = some 0xC0#8)
    ∧ (commanded [0xC0#8, 0xC0#8] 0#32 0).dec.dstate = .idle :=
  ⟨inv_of_checks (by decide), by decide, by decide, by decide, by decide, by decide⟩

theorem witness_HostLoopEnds : State.reset.Inv ∧ betweenCommands State.reset ∧ State.reset.dec.leftLen = 0
    ∧ (∀ c ∈ [[0xC0#8, 0x01#8], [0xC0#8]], c.length ≤ State.reset.cfg.inMemSize)
    ∧ [[0xC0#8, 0x01#8], [0xC0#8]].length + [[0xC0#8, 0x01#8], [0xC0#8]].flatten.length ≤ [0, 1, 2, 500, 500].length
    ∧ (State.reset.dec.lastT :: [0, 1, 2, 500, 500]).Pairwise (fun earlier later =>
      timedOut State.reset.cfg (later % 2 ^ State.reset.cfg.wTick) (earlier % 2 ^ State.reset.cfg.wTick) = false) :=
  ⟨reset_inv, by unfold betweenCommands; decide, by decide, by decide, by decide, by decide⟩

/-- S1 in one chunk and in two: one event, FrameReady(3) with `01 02 03`. -/
theorem witness_ChunkBoundariesDoNotMatter : State.reset.Inv ∧ betweenCommands State.reset ∧ State.reset.dec.leftLen = 0
    ∧ [[0xC0#8, 0x01#8, 0x02#8, 0x03#8, 0xC0#8]].flatten = [[0xC0#8, 0x01#8], [0x02#8, 0x03#8, 0xC0#8]].flatten
    ∧ (hostLoop [[0xC0#8, 0x01#8, 0x02#8, 0x03#8, 0xC0#8]] [0, 1] State.reset).map Prod.fst
      = some [{ res := 3#32, payload := some [0x01#8, 0x02#8, 0x03#8] }]
    ∧ (hostLoop [[0xC0#8, 0x01#8], [0x02#8, 0x03#8, 0xC0#8]] [0, 1, 2] State.reset).map Prod.fst
      = some [{ res := 3#32, payload := some [0x01#8, 0x02#8, 0x03#8] }] :=
  ⟨reset_inv, by unfold betweenCommands; decide, by decide, by decide, by decide, by decide⟩

/-- P3's payload, no payload, and one byte more than CAPACITY. -/
theorem witness_DecodingAnEncodedPayload : State.reset.Inv ∧ betweenCommands State.reset ∧ State.reset.dec.leftLen = 0
    ∧ State.reset.dec.dstate = .idle
    ∧ [[0xC0#8, 0xDB#8, 0xDC#8], [0xDB#8, 0xDD#8, 0x7E#8, 0xC0#8]].flatten = frame [0xC0#8, 0xDB#8, 0x7E#8]
    ∧ (hostLoop [[0xC0#8, 0xDB#8, 0xDC#8], [0xDB#8, 0xDD#8, 0x7E#8, 0xC0#8]] [0, 1, 2] State.reset).isSome = true
    ∧ [[0xC0#8, 0xC0#8]].flatten = frame [] ∧ (hostLoop [[0xC0#8, 0xC0#8]] [0] State.reset).isSome = true
    ∧ State.reset.cfg.capacity < (List.replicate 9 (0x01#8 : Byte)).length
    ∧ (hostLoop [frame (List.replicate 9 0x01#8)] [0, 1] State.reset).isSome = true :=
  ⟨reset_inv, by unfold betweenCommands; decide, by decide, by decide, by decide, by decide, by decide, by decide, by decide, by decide⟩

theorem witness_EncodeStopsOnBrokenHostDuty : waiting.enc.busy = true
    ∧ (sending 3 [0x01#8] []).enc.busy = false ∧ (sending 3 [0x01#8] []).cfg.payMemSize < (257#24 : Len).toNat
    ∧ (2#24 : Len).toNat ≤ (sending 3 [0x01#8] []).cfg.payMemSize ∧ 1 < (2#24 : Len).toNat
    ∧ memRead (sending 3 [0x01#8] []).enc.payMem 1 = none := by decide

theorem witness_EncodePresentsTheFirstChunk : configValid (sending 3 [0xC0#8] []).cfg = true
    ∧ (sending 3 [0xC0#8] []).enc.busy = false ∧ (1#24 : Len).toNat ≤ (sending 3 [0xC0#8] []).cfg.payMemSize
    ∧ bytesAt (sending 3 [0xC0#8] []).enc.payMem 0 (1#24 : Len).toNat = some [0xC0#8] := by decide

/-- T53. -/
def sendTwo (answers : List Input) : State :=
  sending 3 [0x01#8, 0x02#8] (.access (.regWrite .encoder 0 0 4 (commandWord 0x10#8 2#24)) :: answers)

theorem witness_EncodeSendsTheWholeFrame :
    (sendTwo [.sinkAnswer 1 .ok, .sinkAnswer 2 .ok]).Inv ∧ betweenCommands (sendTwo [.sinkAnswer 1 .ok, .sinkAnswer 2 .ok])
    ∧ (sendTwo [.sinkAnswer 1 .ok, .sinkAnswer 2 .ok]).enc.busy = false
    ∧ (2#24 : Len).toNat ≤ (sendTwo [.sinkAnswer 1 .ok, .sinkAnswer 2 .ok]).cfg.payMemSize
    ∧ bytesAt (sendTwo [.sinkAnswer 1 .ok, .sinkAnswer 2 .ok]).enc.payMem 0 (2#24 : Len).toNat = some [0x01#8, 0x02#8]
    ∧ (sendTwo [.sinkAnswer 1 .ok, .sinkAnswer 2 .ok]).inputs
      = .access (.regWrite .encoder 0 0 4 (commandWord 0x10#8 2#24))
        :: (okAnswers (sendTwo [.sinkAnswer 1 .ok, .sinkAnswer 2 .ok]).sinkOut.length
            (chunksOf (sendTwo [.sinkAnswer 1 .ok, .sinkAnswer 2 .ok]).cfg.chunkSize [0x01#8, 0x02#8]).length ++ []) :=
  ⟨inv_of_checks (by decide), by unfold betweenCommands; decide, by decide, by decide, by decide, by decide⟩

/-- One ok answer among a poll of ENC_BUSY, a tick and an empty DRAIN. -/
def amongOthers : List Input :=
  [.access (.regRead .encoder 3 0 4), .tick 9, .sinkAnswer 1 .ok, .access (.regWrite .decoder 0 0 4 0x00000004#32)]

/-- sendTwo with those inputs and then one more. -/
def sendAmong (last : Input) : State := sendTwo (amongOthers ++ [last])

/-- T62: the second flush fails. -/
theorem witness_SinkFailureEndsTheEncode :
    (sendTwo [.sinkAnswer 1 .ok, .sinkAnswer 2 (.fail 5)]).Inv ∧ betweenCommands (sendTwo [.sinkAnswer 1 .ok, .sinkAnswer 2 (.fail 5)])
    ∧ bytesAt (sendTwo [.sinkAnswer 1 .ok, .sinkAnswer 2 (.fail 5)]).enc.payMem 0 (2#24 : Len).toNat = some [0x01#8, 0x02#8]
    ∧ 1 < (chunksOf (sendTwo [.sinkAnswer 1 .ok, .sinkAnswer 2 (.fail 5)]).cfg.chunkSize [0x01#8, 0x02#8]).length
    ∧ (sendTwo [.sinkAnswer 1 .ok, .sinkAnswer 2 (.fail 5)]).inputs
      = .access (.regWrite .encoder 0 0 4 (commandWord 0x10#8 2#24))
        :: (okAnswers (sendTwo [.sinkAnswer 1 .ok, .sinkAnswer 2 (.fail 5)]).sinkOut.length 1
            ++ .sinkAnswer ((sendTwo [.sinkAnswer 1 .ok, .sinkAnswer 2 (.fail 5)]).sinkOut.length + 1 + 1) (.fail 5) :: []) :=
  ⟨inv_of_checks (by decide), by unfold betweenCommands; decide, by decide, by decide, by decide⟩

/-- T58: the frame fits one chunk exactly. -/
theorem witness_ChunkLengths : 3 ≤ 5 ∧ (frame [0x01#8, 0xC0#8]).length ≤ 5 := by decide

theorem witness_SilentSinkLeavesTheEncoderWaiting : waiting.Inv ∧ waiting.enc.busy = true ∧ (∃ t, step waiting = .next t)
    ∧ (∀ k a rest, waiting.inputs = .sinkAnswer k a :: rest → k ≠ waiting.sinkOut.length)
    ∧ (∀ rest, waiting.inputs ≠ .hwReset :: rest) :=
  ⟨waiting_inv, by decide, next_of_isSome (by decide), fun k a rest h => by simp [waiting, sending] at h, fun rest h => by simp [waiting, sending] at h⟩

/-- No flush waits; and another one than the one answered. -/
theorem witness_StaleSinkAnswersAreIgnored : configValid waiting.cfg = true ∧ betweenCommands (waiting.setInputs [.sinkAnswer 2 .ok])
    ∧ (waiting.setInputs [.sinkAnswer 2 .ok]).inputs = .sinkAnswer 2 .ok :: [] ∧ 2 ≠ waiting.sinkOut.length
    ∧ State.reset.enc.wait = none := by
  unfold betweenCommands; decide

theorem witness_DecoderAndEncoderAreIndependent : (∀ len, Instr.drain ≠ .encode len) ∧ (∃ t, exec .drain withLeftover = .next t)
    ∧ ∃ t, exec (.encode 1#24) (sending 3 [0x01#8] []) = .next t :=
  ⟨fun _ => by simp, next_of_isSome (by decide), next_of_isSome (by decide)⟩

theorem witness_InstructionsWriteOnlyTheirMemory : (∃ t, exec (.process 3#24) midFrame = .next t)
    ∧ (∃ t, exec .reset midFrame = .next t) ∧ (∃ t, exec (.encode 1#24) (sending 3 [0x01#8] []) = .next t)
    ∧ memRead midFrame.dec.outMem 0 ≠ none ∧ memRead waiting.enc.scratch 1 ≠ none :=
  ⟨next_of_isSome (by decide), next_of_isSome (by decide), next_of_isSome (by decide), by decide, by decide⟩

theorem witness_InstancesDoNotMeet : [midFrame, waiting][1]? = some waiting ∧ ∃ q, platformStep 1 [midFrame, waiting] = .next q := by
  obtain ⟨t, ht⟩ := next_of_isSome (r := step waiting) (by decide)
  exact ⟨rfl, [midFrame, waiting].set 1 t, by simp [platformStep, ht]⟩

/-- Address 256 of 256; address 255 with a leftover, and with none. -/
theorem witness_HostWritesInputMemory : configValid withLeftover.cfg = true
    ∧ betweenCommands (withLeftover.setInputs [.access (.memWrite .inMem 255 0x01#8)])
    ∧ withLeftover.cfg.inMemSize ≤ 256 ∧ 255 < withLeftover.cfg.inMemSize ∧ 0 < withLeftover.dec.leftLen
    ∧ betweenCommands (midFrame.setInputs [.access (.memWrite .inMem 255 0x01#8)]) ∧ midFrame.dec.leftLen = 0 := by
  unfold betweenCommands; decide

theorem witness_HostWritesPayloadMemory : configValid waiting.cfg = true
    ∧ betweenCommands (waiting.setInputs [.access (.memWrite .payMem 255 0x01#8)])
    ∧ waiting.cfg.payMemSize ≤ 256 ∧ 255 < waiting.cfg.payMemSize ∧ waiting.enc.busy = true ∧ midFrame.enc.busy = false := by
  unfold betweenCommands; decide

/-- Address 8 of 8; address 7, never written; address 0, written. -/
theorem witness_HostReadsOutputMemory : configValid midFrame.cfg = true
    ∧ betweenCommands (midFrame.setInputs [.access (.memRead .outMem 7)])
    ∧ midFrame.cfg.capacity ≤ 8 ∧ 7 < midFrame.cfg.capacity ∧ memRead midFrame.dec.outMem 7 = none
    ∧ memRead midFrame.dec.outMem 0 = some 0x01#8 := by
  unfold betweenCommands; decide

/-- W_ERR = 33, the least above 32, and SEND_ERR read twice. -/
def wideError : State :=
  { State.reset with
    cfg := { Config.standard with wErr := 33 }
    inputs := [.access (.regRead .encoder 2 0 4), .access (.regRead .encoder 2 0 4)] }

theorem witness_HostReadsRegisters : configValid waiting.cfg = true
    ∧ betweenCommands (waiting.setInputs [.access (.regRead .encoder 2 0 4)]) ∧ waiting.cfg.wErr ≤ 32
    ∧ configValid wideError.cfg = true ∧ betweenCommands wideError ∧ 32 < wideError.cfg.wErr
    ∧ wideError.inputs = .access (.regRead .encoder 2 0 4) :: [.access (.regRead .encoder 2 0 4)] := by
  unfold betweenCommands; decide

/-- A command register read, a number beyond the table, a misaligned and a short access; a result register written. -/
theorem witness_OtherRegisterAccessesRefused :
    ∀ r ∈ [(Block.decoder, 0, 0, 4), (.decoder, 2, 0, 4), (.encoder, 4, 0, 4), (.encoder, 3, 1, 4), (.encoder, 3, 0, 2)],
      betweenCommands (midFrame.setInputs [.access (.regRead r.1 r.2.1 r.2.2.1 r.2.2.2)])
      ∧ ¬ (r.2.2.1 = 0 ∧ r.2.2.2 = 4
        ∧ (r.1 = .decoder ∧ r.2.1 = 1 ∨ r.1 = .encoder ∧ (r.2.1 = 1 ∨ r.2.1 = 2 ∨ r.2.1 = 3)))
      ∧ ¬ ((1 : Nat) = 0) := by
  unfold betweenCommands; decide

theorem witness_EncodeCommandWhileBusyRefused : configValid waiting.cfg = true ∧ waiting.enc.busy = true
    ∧ betweenCommands (waiting.setInputs [.access (.regWrite .encoder 0 0 4 0x00000110#32)]) := by
  unfold betweenCommands; decide

theorem witness_WaitingChangesNothing : configValid State.reset.cfg = true ∧ betweenCommands State.reset
    ∧ State.reset.inputs = [] ∧ betweenCommands waiting ∧ waiting.inputs = .tick 9 :: [] := by
  unfold betweenCommands; decide

/-- The windows of Config.standard, and the last byte or register of each. -/
theorem witness_BusAddressesReachTheirTarget :
    Config.standard.decBase + 2 * Config.standard.regStride ≤ Config.standard.encBase
    ∧ Config.standard.encBase + 4 * Config.standard.regStride ≤ Config.standard.inMemBase
    ∧ Config.standard.inMemBase + Config.standard.inMemSize ≤ Config.standard.outMemBase
    ∧ Config.standard.outMemBase + Config.standard.capacity ≤ Config.standard.payMemBase ∧ 4 ≤ Config.standard.regStride
    ∧ 1 < 2 ∧ 3 < 4 ∧ 255 < Config.standard.inMemSize ∧ 7 < Config.standard.capacity ∧ 255 < Config.standard.payMemSize := by decide

/-- The reset state on a bus with this binding, with RES = 0x11223344 and these inputs. -/
def onBus (width : Nat) (lanes : List Nat) (inputs : List Input) : State :=
  { State.reset with
    cfg := { Config.standard with busBinding := { width := width, lanes := lanes } }
    dec := { Decoder.reset with res := 0x11223344#32 }
    inputs := inputs }

/-- RES on a 16-bit bus with the high half first, on an 8-bit bus with byte 0 first, and whole (R47). -/
theorem test_bus_read :
    (nextOf (step (onBus 2 [2, 3, 0, 1] [.busRead 4 2 2]))).map State.hostOut = some [0x1122#32, 0x3344#32]
    ∧ (nextOf (step (onBus 1 [0, 1, 2, 3] [.busRead 4 1 4]))).map State.hostOut = some [0x44#32, 0x33#32, 0x22#32, 0x11#32]
    ∧ (nextOf (step (onBus 4 [0, 1, 2, 3] [.busRead 4 4 1]))).map State.hostOut = some [0x11223344#32] := by decide

/-- RESET, 0x00000002, on an 8-bit bus with byte 3 first; the word of other order is reserved (R63), and half of it partial (R48). -/
theorem test_bus_write :
    decoderView (step (holding (onBus 1 [3, 2, 1, 0] [.busWrite 0 1 [0#32, 0#32, 0#32, 2#32]]) .inFrame [0x01#8]))
      = some (.idle, 0, 0, 0, 0x11223344#32)
    ∧ stopsWith .reservedCmd (step (onBus 1 [3, 2, 1, 0] [.busWrite 0 1 [2#32, 0#32, 0#32, 0#32]])) = true
    ∧ stopsWith .regAccess (step (onBus 1 [3, 2, 1, 0] [.busWrite 0 1 [0#32, 2#32]])) = true := by decide

/-- A 16-bit bus that carries the high half first. -/
def halfBus (inputs : List Input) : State := onBus 2 [2, 3, 0, 1] inputs

/-- RES and the last encoder register; one transfer too few, and another width. -/
theorem witness_RegistersAreReachedThroughTheBinding :
    configValid (halfBus []).cfg = true ∧ betweenCommands (halfBus [.busRead 4 2 2])
    ∧ carriesWhole (halfBus []).cfg.busBinding = true
    ∧ busTarget (halfBus []).cfg 4 = some (.register .decoder 1 0)
    ∧ busTarget (halfBus []).cfg 0x10C = some (.register .encoder 3 0)
    ∧ 1 < transferCount (halfBus []).cfg.busBinding ∧ 1 < (halfBus []).cfg.busBinding.width
    ∧ 1 ≠ transferCount (halfBus []).cfg.busBinding ∧ 4 ≠ (halfBus []).cfg.busBinding.width := by
  unfold betweenCommands; decide

theorem witness_RegistersAreReachedThroughTheBinding_read :
    step { halfBus [] with inputs := .access (.regRead .decoder 1 0 4) :: [] }
      = .next { halfBus [] with inputs := [], hostOut := (halfBus []).hostOut ++ [0x11223344#32] } := rfl

/-- The narrowest and the widest bus. -/
theorem test_bindings_whole : carriesWhole (onBus 1 [3, 2, 1, 0] []).cfg.busBinding = true
    ∧ carriesWhole (onBus 4 [0, 1, 2, 3] []).cfg.busBinding = true
    ∧ carriesWhole (onBus 2 [0, 1, 1, 3] []).cfg.busBinding = false := by decide

/-- A read of RES, of a byte of OUT_MEM, of ENC_BUSY on the bus, and of SEND_ERR with W_ERR above 32, each twice. -/
theorem witness_HostReadsAreIdempotent :
    (∀ r ∈ [Input.access (.regRead .decoder 1 0 4), .access (.memRead .outMem 0), .busRead 0x10C 4 1],
      betweenCommands (midFrame.setInputs [r, r]) ∧ (nextOf (step (midFrame.setInputs [r, r]))).isSome = true)
    ∧ betweenCommands wideError ∧ (nextOf (step wideError)).isSome = true := by
  unfold betweenCommands; decide

/-- SCRATCH written at its first byte, IN_MEM read at its last. -/
theorem witness_OtherMemoryAccessesRefused : configValid waiting.cfg = true
    ∧ betweenCommands (waiting.setInputs [.access (.memWrite .scratch 0 0xC0#8)])
    ∧ (waiting.setInputs [.access (.memWrite .scratch 0 0xC0#8)]).inputs = .access (.memWrite .scratch 0 0xC0#8) :: []
    ∧ (waiting.setInputs [.access (.memRead .inMem 255)]).inputs = .access (.memRead .inMem 255) :: [] := by
  unfold betweenCommands; decide

/-- T53, first flush, with a chunk to come; the same encoder at its final flush, with none. -/
theorem witness_SinkAnswerMovesTheEncodeOn : waiting.Inv ∧ betweenCommands waiting ∧ waiting.enc.busy = true
    ∧ (waiting.setInputs [.sinkAnswer 1 .ok]).inputs = .sinkAnswer waiting.sinkOut.length .ok :: []
    ∧ chunksToCome waiting.cfg waiting.enc = [0x02#8, 0xC0#8] :: []
    ∧ (waiting.setEnc { waiting.enc with ej := 2, wait := some .final }).Inv
    ∧ chunksToCome waiting.cfg { waiting.enc with ej := 2, wait := some .final } = []
    ∧ (waiting.setInputs [.sinkAnswer 1 (.fail 7)]).inputs = .sinkAnswer waiting.sinkOut.length (.fail 7) :: [] :=
  ⟨waiting_inv, by unfold betweenCommands; decide, by decide, by decide, by decide, inv_of_checks (by decide), by decide, by decide⟩

/-- T53 with a poll of ENC_BUSY, a tick and an empty DRAIN among the answers, and then the last answer. -/
theorem witness_EncodeGoesOnAmongOtherInputs :
    (sendAmong (.sinkAnswer 2 .ok)).Inv ∧ betweenCommands (sendAmong (.sinkAnswer 2 .ok))
    ∧ (sendAmong (.sinkAnswer 2 .ok)).enc.busy = false
    ∧ (2#24 : Len).toNat ≤ (sendAmong (.sinkAnswer 2 .ok)).cfg.payMemSize
    ∧ bytesAt (sendAmong (.sinkAnswer 2 .ok)).enc.payMem 0 (2#24 : Len).toNat = some [0x01#8, 0x02#8]
    ∧ 1 + 1 = (chunksOf (sendAmong (.sinkAnswer 2 .ok)).cfg.chunkSize [0x01#8, 0x02#8]).length
    ∧ amongOthers.filter isSinkAnswer = okAnswers (sendAmong (.sinkAnswer 2 .ok)).sinkOut.length 1
    ∧ .hwReset ∉ amongOthers
    ∧ ∃ t, runSteps (amongOthers.length + 1) (sendAmong (.sinkAnswer 2 .ok)) = .next t :=
  ⟨inv_of_checks (by decide), by unfold betweenCommands; decide, by decide, by decide, by decide, by decide, by decide, by decide,
    next_of_isSome (by decide)⟩

/-- The same with a failing answer at the end (T62). -/
theorem witness_EncodeGoesOnAmongOtherInputs_fail :
    (sendAmong (.sinkAnswer 2 (.fail 5))).inputs
      = .access (.regWrite .encoder 0 0 4 (commandWord 0x10#8 2#24))
        :: (amongOthers ++ .sinkAnswer ((sendAmong (.sinkAnswer 2 (.fail 5))).sinkOut.length + 1 + 1) (.fail 5) :: [])
    ∧ ∃ t, runSteps (amongOthers.length + 1) (sendAmong (.sinkAnswer 2 (.fail 5))) = .next t :=
  ⟨by decide, next_of_isSome (by decide)⟩

end Sys2Proof.Tests
end

section
/-! The scope family (00_scope.md): modular time (R17), the two independent blocks (R6), and commands as atomic transactions
(R14, R49) together with their byte-by-byte reading (log 3). -/

namespace Sys2Proof.Machine

/-! ## Elapsed time -/

/-- Elapsed time before it is read as a natural number: the difference in the integers, reduced (R17). -/
theorem elapsed_cast (wTick now last : Nat) :
    (elapsed wTick now last : Int) = ((now : Int) - last) % ((2 ^ wTick : Nat) : Int) := by
  have hpos : 0 < 2 ^ wTick := Nat.two_pow_pos wTick
  exact Int.toNat_of_nonneg (Int.emod_nonneg _ (by omega))

theorem elapsed_lt (wTick now last : Nat) : elapsed wTick now last < 2 ^ wTick := by
  have hpos : 0 < 2 ^ wTick := Nat.two_pow_pos wTick
  have hlt := Int.emod_lt_of_pos ((now : Int) - last) (Int.natCast_pos.mpr hpos)
  rw [← elapsed_cast] at hlt
  exact Int.ofNat_lt.mp hlt

/-- Elapsed time brings `last` to `now`, modulo the width of the tick. -/
theorem last_add_elapsed_modEq (wTick now last : Nat) : last + elapsed wTick now last ≡ now [MOD 2 ^ wTick] := by
  have hdiff : (last : Int) + ((now : Int) - last) % ((2 ^ wTick : Nat) : Int)
      ≡ last + (now - last) [ZMOD ((2 ^ wTick : Nat) : Int)] := (Int.mod_modEq _ _).add_left _
  rw [add_sub_cancel, ← elapsed_cast, ← Int.natCast_add] at hdiff
  exact Int.natCast_modEq_iff.mp hdiff

/-- Whole turns of the tick counter do not show (R128). -/
theorem elapsed_add_turns (wTick now last k : Nat) : elapsed wTick (now + k * 2 ^ wTick) last = elapsed wTick now last := by
  have hturns : ((now + k * 2 ^ wTick : Nat) : Int) - last = now - last + k * ((2 ^ wTick : Nat) : Int) := by
    push_cast
    ring
  unfold elapsed
  rw [hturns, Int.add_mul_emod_self_right]

/-- Settles O23: elapsed time is the integer difference reduced modulo 2^W_TICK. -/
theorem elapsedIsModularDifference : Obligations.ElapsedIsModularDifference := fun wTick now last =>
  ⟨elapsed_lt wTick now last, last_add_elapsed_modEq wTick now last, elapsed_add_turns wTick now last⟩

/-! ## Sequencing -/

theorem andThen_ite (p : Prop) [Decidable p] (r r' : StepResult) (f : State → StepResult) :
    andThen (if p then r else r') f = if p then andThen r f else andThen r' f :=
  apply_ite (andThen · f) p r r'

/-! ## The decoder does not meet the encoder -/

theorem append_setEnc (b : Byte) (e : Encoder) (s : State) :
    append b (s.setEnc e) = andThen (append b s) fun t => .next (t.setEnc e) := by
  unfold append
  rw [andThen_ite]
  refine if_congr .rfl rfl ?_
  simp only [State.setEnc_dec, State.setEnc_cfg]
  cases storeByte s.cfg.capacity s.dec.outMem s.dec.wp b <;> rfl

theorem execEndFrame_setEnc (e : Encoder) (s : State) :
    execEndFrame (s.setEnc e) = andThen (execEndFrame s) fun t => .next (t.setEnc e) := by
  unfold execEndFrame
  rw [andThen_ite]
  exact if_congr .rfl rfl rfl

theorem openWindow_setEnc (base len t : Nat) (e : Encoder) (s : State) :
    openWindow base len t (s.setEnc e) = (openWindow base len t s).setEnc e := by
  rw [openWindow_eq, openWindow_eq]
  rfl

theorem processWindow_setEnc (base len t : Nat) (e : Encoder) (s : State) :
    processWindow base len t (s.setEnc e) = andThen (processWindow base len t s) fun u => .next (u.setEnc e) := by
  unfold processWindow
  rw [openWindow_setEnc, runWindow_setEnc]

theorem execProcess_setEnc (len : Len) (e : Encoder) (s : State) :
    execProcess len (s.setEnc e) = andThen (execProcess len s) fun t => .next (t.setEnc e) := by
  unfold execProcess
  simp only [andThen_ite]
  exact if_congr .rfl rfl (if_congr .rfl rfl (if_congr .rfl (processWindow_setEnc _ _ _ e s) rfl))

theorem execDrain_setEnc (e : Encoder) (s : State) :
    execDrain (s.setEnc e) = andThen (execDrain s) fun t => .next (t.setEnc e) := by
  unfold execDrain
  rw [andThen_ite]
  exact if_congr .rfl rfl (processWindow_setEnc _ _ _ e (clearLeft s))

/-- A decoder instruction runs the same whatever the encoder holds (R6). -/
theorem exec_setEnc {i : Instr} (hi : ∀ len, i ≠ .encode len) (e : Encoder) (s : State) :
    exec i (s.setEnc e) = andThen (exec i s) fun t => .next (t.setEnc e) := by
  cases i with
  | encode len => exact absurd rfl (hi len)
  | process len => exact execProcess_setEnc len e s
  | drain => exact execDrain_setEnc e s
  | endFrame => exact execEndFrame_setEnc e s
  | escEnd => exact append_setEnc _ e (s.setDec _)
  | escEsc => exact append_setEnc _ e (s.setDec _)
  | data b => exact append_setEnc b e s
  | init | reset | start | skip | badEsc | esc => rfl

/-- A decoder instruction that goes on changes the decoder alone (R6). -/
theorem exec_changes_decoder_alone {i : Instr} (hi : ∀ len, i ≠ .encode len) {s t : State} (h : exec i s = .next t) :
    t = s.setDec t.dec := by
  cases i with
  | encode len => exact absurd rfl (hi len)
  | process len =>
    obtain ⟨-, -, -, hrun⟩ := execProcess_cases h
    exact (processWindow_keeps hrun).1
  | drain =>
    rcases execDrain_cases h with ⟨-, rfl⟩ | ⟨-, hrun⟩
    · rfl
    · exact (processWindow_keeps hrun).1
  | endFrame =>
    simp only [exec, execEndFrame] at h
    split at h <;> cases h <;> rfl
  | escEnd => exact append_cfg (s := s.setDec (s.dec.enter .inFrame)) h
  | escEsc => exact append_cfg (s := s.setDec (s.dec.enter .inFrame)) h
  | data b => exact append_cfg h
  | init | reset | start | skip | badEsc | esc => cases h; rfl

theorem sameOutside_setDec (s : State) (d : Decoder) : sameOutside s (s.setDec d) := ⟨rfl, rfl, rfl, rfl, rfl⟩

/-! ## The encoder does not meet the decoder -/

theorem encodeRest_setDec (d : Decoder) (s : State) :
    encodeRest (s.setDec d) = andThen (encodeRest s) fun t => .next (t.setDec d) :=
  encodeBody_setDec _ d s

/-- ENCODE runs the same whatever the decoder holds (R6, R93). -/
theorem execEncode_setDec (len : Len) (d : Decoder) (s : State) :
    execEncode len (s.setDec d) = andThen (execEncode len s) fun t => .next (t.setDec d) := by
  have hbody : andThen (writeScratch [startEnd] ((s.setEnc (s.enc.begin (byteCount len))).setDec d)) encodeRest
      = andThen (andThen (writeScratch [startEnd] (s.setEnc (s.enc.begin (byteCount len)))) encodeRest)
          fun t => .next (t.setDec d) := by
    rw [writeScratch_setDec, andThen_assoc, andThen_assoc]
    congr 1
    exact funext (encodeRest_setDec d)
  unfold execEncode
  simp only [andThen_ite]
  exact if_congr .rfl rfl (if_congr .rfl rfl (if_congr .rfl hbody rfl))

/-- Settles O44: each instruction commutes with a change of the block it does not belong to, and its frame lemma says what it leaves. -/
theorem decoderAndEncoderAreIndependent : Obligations.DecoderAndEncoderAreIndependent := by
  refine fun i s => ⟨fun hi => ⟨fun e => exec_setEnc hi e s, fun t ht => ?_⟩, ?_⟩
  · rw [exec_changes_decoder_alone hi ht]
    exact ⟨rfl, rfl, sameOutside_setDec s _⟩
  · rintro ⟨len, rfl⟩
    refine ⟨fun d => execEncode_setDec len d s, fun t ht => ?_⟩
    have hkeeps := execEncode_keeps ht
    exact ⟨hkeeps.dec, hkeeps.outside⟩

/-! ## Commands as transactions -/

/-- A command begun with no window open leaves none open: PROCESS and a non-empty DRAIN close the one they open (R30). -/
theorem exec_command_betweenCommands {j : Instr}
    (hj : j = .init ∨ j = .reset ∨ (∃ len, j = .process len) ∨ j = .drain ∨ ∃ len, j = .encode len) {s t : State}
    (hs : betweenCommands s) (h : exec j s = .next t) : betweenCommands t := by
  rcases hj with rfl | rfl | ⟨len, rfl⟩ | rfl | ⟨len, rfl⟩
  · cases h; exact hs
  · cases h; exact hs
  · obtain ⟨-, -, -, hrun⟩ := execProcess_cases h
    exact processWindow_closes hrun
  · rcases execDrain_cases h with ⟨-, rfl⟩ | ⟨-, hrun⟩
    · exact hs
    · exact processWindow_closes hrun
  · exact (congrArg Decoder.window (execEncode_keeps h).dec).trans hs

theorem hostWriteIn_window {a : Nat} {b : Byte} {s t : State} (h : hostWriteIn a b s = .next t) :
    t.dec.window = s.dec.window := by
  unfold hostWriteIn at h
  split at h
  · cases h
  split at h <;> cases h
  rfl

theorem hostWritePay_dec {a : Nat} {b : Byte} {s t : State} (h : hostWritePay a b s = .next t) : t.dec = s.dec := by
  unfold hostWritePay at h
  split at h
  · cases h
  split at h <;> cases h
  rfl

theorem sinkAnswer_dec {k : Nat} {a : SinkAnswer} {s t : State} (h : sinkAnswer k a s = .next t) : t.dec = s.dec :=
  (sinkAnswer_keeps h).dec

/-- An input that issues no instruction opens no window. -/
theorem takeInput_done_betweenCommands {i : Input} {s t : State} (hs : betweenCommands s)
    (h : takeInput i s = .done (.next t)) : betweenCommands t := by
  rcases takeInput_done h with ⟨a, b, hin⟩ | ⟨a, b, hpay⟩ | ⟨ws, rfl⟩ | ⟨x, -, rfl⟩ | ⟨k, a, -, hsink⟩ | ⟨-, rfl⟩
  · exact (hostWriteIn_window hin).trans hs
  · exact (congrArg Decoder.window (hostWritePay_dec hpay)).trans hs
  · exact hs
  · exact hs
  · exact (congrArg Decoder.window (sinkAnswer_dec hsink)).trans hs
  · rfl

/-- Settles O9: with no window open a step waits, or takes an input, which runs a command or does its own work at once. -/
theorem commandsAreAtomic : Obligations.CommandsAreAtomic := by
  intro s t hs h
  obtain ⟨-, ⟨-, -, rfl⟩ | ⟨w, hw, -⟩ | ⟨i, rest, -, -, ⟨j, u, hrun, hexec⟩ | hdone⟩⟩ := step_cases h
  · exact hs
  · exact absurd (hs.symm.trans hw) (by simp)
  · obtain ⟨rfl, hj⟩ := takeInput_run hrun
    exact exec_command_betweenCommands (s := s.setInputs rest) hj hs hexec
  · exact takeInput_done_betweenCommands (s := s.setInputs rest) hs hdone

/-- With no input waiting, a step does to an open window what a turn of the byte loop does, and waits once it is closed; so steps
and turns agree one by one, whether they go on or stop (R79, R121). -/
theorem runSteps_eq_runWindow (n : Nat) : ∀ {s : State}, configValid s.cfg = true → s.inputs = [] →
    runSteps n s = runWindow n s := by
  induction n with
  | zero => intro s _ _; rfl
  | succ n ih =>
    intro s hc hi
    rw [runSteps_succ]
    cases hw : s.dec.window with
    | none => rw [step_of_nothing hc hw hi, andThen_next, ih hc hi, runWindow_closed hw, runWindow_closed hw]
    | some w =>
      rw [step_of_window hc hw, runWindow_succ hw]
      cases ht : windowStep w s with
      | fault f => rfl
      | refused r => rfl
      | next t =>
        have halone := (windowStep_loopKeeps ht).alone
        exact ih (by rw [halone]; exact hc) (by rw [halone]; exact hi)

/-- Settles O10: the transaction is the byte loop on the window it opens, and steps run that loop turn by turn. -/
theorem bytewiseStepsGiveTheTransaction : Obligations.BytewiseStepsGiveTheTransaction := by
  intro s base len t hc hi
  have hopen := openWindow_eq base len t s
  exact runSteps_eq_runWindow (len + 1) (by rw [hopen]; exact hc) (by rw [hopen]; exact hi)

end Sys2Proof.Machine
end

section
/-! The state family (10_state.md): what every step keeps (R24, R26, R27, R32, R39, R64), who writes the leftover and LAST_T (R26 to
R28), the values after hardware reset (R38), and the host's view of the registers (R36, R48). -/

namespace Sys2Proof.Machine

/-! ## The decoder's part of the invariant -/

/-- INIT and RESET keep the decoder's part (R71): what they clear is legal when clear. -/
theorem Decoder.Inv.resetEffect {c : Config} {d : Decoder} (h : d.Inv c) : d.resetEffect.Inv c :=
  { h with
    wp_le := Nat.zero_le _
    out_written := rfl
    left_le := Nat.zero_le _
    left_empty := fun _ => rfl
    left_written := rfl
    zero_left := fun _ => rfl
    window_legal := fun w hw =>
      have ⟨hpos, hin, hwritten, _⟩ := h.window_legal w hw
      ⟨hpos, hin, hwritten, rfl⟩ }

/-- The decoder after hardware reset meets the invariant, whatever the configuration (R38). -/
theorem Decoder.reset_inv (c : Config) : Decoder.reset.Inv c where
  wp_le := Nat.zero_le _
  out_written := rfl
  left_le := Nat.zero_le _
  left_empty := fun _ => rfl
  left_written := rfl
  lastT_lt := Nat.two_pow_pos _
  zero_left := fun _ => rfl
  res_legal := .inl rfl
  in_wf := rfl
  in_within := rfl
  out_wf := rfl
  out_within := rfl
  window_legal := nofun

/-- A byte written inside IN_MEM keeps the decoder's part: written bytes stay written (R41). -/
theorem Decoder.Inv.writeIn {c : Config} {d : Decoder} (h : d.Inv c) {a : Nat} (ha : a < c.inMemSize) (b : Byte) :
    Decoder.Inv c { d with inMem := memWrite d.inMem a b } :=
  { h with
    left_written := allWritten_memWrite h.left_written a b
    in_wf := Memory.wf_memWrite h.in_wf a b
    in_within := Memory.within_memWrite h.in_within ha b
    window_legal := fun w hw =>
      have ⟨hpos, hin, hwritten, hleft⟩ := h.window_legal w hw
      ⟨hpos, hin, allWritten_memWrite hwritten a b, hleft⟩ }

/-! ## The encoder's part of the invariant -/

/-- The encoder after hardware reset meets the invariant, whatever the configuration (R38). -/
theorem Encoder.reset_inv (c : Config) : Encoder.reset.Inv c where
  busy_iff := by simp [Encoder.reset]
  epos_le := Nat.zero_le _
  ej_le := Nat.le_refl _
  len_le := Nat.zero_le _
  pay_written := nofun
  scratch_written := rfl
  wait_some := fun h => absurd rfl h
  wait_body := nofun
  wait_closing := nofun
  wait_final := nofun
  sendErr_lt := Nat.two_pow_pos _
  pay_wf := rfl
  pay_within := rfl
  scratch_wf := rfl
  scratch_within := rfl

/-- An ENCODE that ends Ok keeps the encoder's part: nothing is asked of a flush where none waits (R95). -/
theorem Encoder.Inv.finishOk {c : Config} {e : Encoder} (h : e.Inv c) : e.finishOk.Inv c :=
  { h with
    busy_iff := by simp
    pay_written := nofun
    wait_some := fun hn => absurd rfl hn
    wait_body := nofun
    wait_closing := nofun
    wait_final := nofun }

/-- An ENCODE that fails keeps the encoder's part, where the error value has W_ERR bits (R33, R100). -/
theorem Encoder.Inv.finishErr {c : Config} {e : Encoder} (h : e.Inv c) {v : Nat} (hv : v < 2 ^ c.wErr) :
    (e.finishErr v).Inv c :=
  { h.finishOk with sendErr_lt := hv }

/-- A byte written inside PAY_MEM keeps the encoder's part (R45). -/
theorem Encoder.Inv.writePay {c : Config} {e : Encoder} (h : e.Inv c) {a : Nat} (ha : a < c.payMemSize) (b : Byte) :
    Encoder.Inv c { e with payMem := memWrite e.payMem a b } :=
  { h with
    pay_written := fun hb => allWritten_memWrite (h.pay_written hb) a b
    pay_wf := Memory.wf_memWrite h.pay_wf a b
    pay_within := Memory.within_memWrite h.pay_within ha b }

theorem errorValue_lt (c : Config) (e : Nat) : errorValue c e < 2 ^ c.wErr := Nat.mod_lt _ (Nat.two_pow_pos _)

/-- The room SCRATCH has at least, in a valid configuration (R8). -/
theorem three_le_chunkSize {c : Config} (h : configValid c = true) : 3 ≤ c.chunkSize := by
  obtain ⟨-, -, h3, -⟩ := configValid_ranges h
  exact h3

/-- An ENCODE up to its first flush keeps the encoder's part (R94, R95). -/
theorem execEncode_inv {len : Len} {s t : State} (hs : s.Inv) (h : execEncode len s = .next t) : t.enc.Inv s.cfg := by
  obtain ⟨hb, hl, payload, hp⟩ := execEncode_cases h
  obtain ⟨e, chunk, cs, hrun, -, hpres⟩ := execEncode_spec (three_le_chunkSize hs.valid) hb hl hp
  cases h.symm.trans hrun
  exact hpres.inv rfl hl (allWritten_iff_bytesAt.mpr ⟨payload, hp⟩) hs.enc.sendErr_lt hs.enc.pay_wf hs.enc.pay_within
    hs.enc.scratch_wf hs.enc.scratch_within

/-- What follows a successful flush keeps the encoder's part: the next chunk is presented, or the ENCODE ends (R95). -/
theorem afterFlush_inv {p : FlushPoint} {s t : State} (hs : s.Inv) (hp : s.enc.wait = some p)
    (h : afterFlush p s = .next t) : t.enc.Inv s.cfg := by
  have hbusy : s.enc.busy = true := hs.enc.busy_iff.mpr (by simp [hp])
  obtain ⟨cs, hafter⟩ := hs.enc.chunksAfter_exists hbusy
  cases cs with
  | nil =>
    cases hp.symm.trans (wait_of_chunksAfter_nil hafter)
    cases h
    exact hs.enc.finishOk
  | cons chunk cs =>
    obtain ⟨e, hrun, hpres⟩ := afterFlush_spec hp hafter (three_le_chunkSize hs.valid) hs.enc.len_le hs.enc.ej_le
    cases h.symm.trans hrun
    exact hpres.inv hbusy hs.enc.len_le (hs.enc.pay_written hbusy) hs.enc.sendErr_lt hs.enc.pay_wf hs.enc.pay_within
      hs.enc.scratch_wf hs.enc.scratch_within

/-- What an answer of the sink does: nothing where no flush waits for it; else the ENCODE goes on or ends (R99, R100, R121). -/
theorem sinkAnswer_cases {k : Nat} {a : SinkAnswer} {s t : State} (h : sinkAnswer k a s = .next t) :
    t = s
    ∨ (∃ p, s.enc.wait = some p ∧ a = .ok ∧ afterFlush p s = .next t)
    ∨ ∃ v, a = .fail v ∧ t = failEncode (errorValue s.cfg v) s := by
  unfold sinkAnswer at h
  split at h
  · cases h; exact .inl rfl
  · next p hp =>
    split at h
    · cases a with
      | ok => exact .inr (.inl ⟨p, hp, rfl, h⟩)
      | fail v => cases h; exact .inr (.inr ⟨v, rfl, rfl⟩)
    · cases h; exact .inl rfl

theorem sinkAnswer_inv {k : Nat} {a : SinkAnswer} {s t : State} (hs : s.Inv) (h : sinkAnswer k a s = .next t) :
    t.enc.Inv s.cfg := by
  rcases sinkAnswer_cases h with rfl | ⟨p, hp, -, hflush⟩ | ⟨v, -, rfl⟩
  · exact hs.enc
  · exact afterFlush_inv hs hp hflush
  · exact hs.enc.finishErr (errorValue_lt s.cfg v)

/-! ## The invariant across a step -/

theorem StretchKeeps.cfg {s t : State} (h : StretchKeeps s t) : t.cfg = s.cfg := h.outside.1

/-- The invariant, where neither block nor the configuration changed. -/
theorem State.Inv.ofSame {s t : State} (hs : s.Inv) (hc : t.cfg = s.cfg) (hd : t.dec = s.dec) (he : t.enc = s.enc) :
    t.Inv :=
  ⟨hc ▸ hs.valid, hc ▸ hd ▸ hs.dec, hc ▸ he ▸ hs.enc⟩

/-- The invariant, where the encoder alone changed and kept its own part. -/
theorem State.Inv.ofEnc {s t : State} (hs : s.Inv) (hc : t.cfg = s.cfg) (hd : t.dec = s.dec) (he : t.enc.Inv s.cfg) :
    t.Inv :=
  ⟨hc ▸ hs.valid, hc ▸ hd ▸ hs.dec, hc ▸ he⟩

/-- A host write to IN_MEM that goes on writes one byte inside it (R41). -/
theorem hostWriteIn_cases {a : Nat} {b : Byte} {s t : State} (h : hostWriteIn a b s = .next t) :
    a < s.cfg.inMemSize ∧ s.dec.leftLen = 0 ∧ t = s.setDec { s.dec with inMem := memWrite s.dec.inMem a b } := by
  unfold hostWriteIn at h
  split at h
  · cases h
  split at h
  · cases h
  · cases h; exact ⟨by omega, by omega, rfl⟩

/-- A host write to PAY_MEM that goes on writes one byte inside it (R45). -/
theorem hostWritePay_cases {a : Nat} {b : Byte} {s t : State} (h : hostWritePay a b s = .next t) :
    a < s.cfg.payMemSize ∧ s.enc.busy = false ∧ t = s.setEnc { s.enc with payMem := memWrite s.enc.payMem a b } := by
  unfold hostWritePay at h
  split at h
  · cases h
  split at h
  · cases h
  · next hle hb => cases h; exact ⟨by omega, Bool.eq_false_iff.mpr hb, rfl⟩

/-- Every command keeps the invariant. -/
theorem exec_command_inv {j : Instr}
    (hj : j = .init ∨ j = .reset ∨ (∃ len, j = .process len) ∨ j = .drain ∨ ∃ len, j = .encode len) {s t : State}
    (hs : s.Inv) (h : exec j s = .next t) : t.Inv := by
  rcases hj with rfl | rfl | ⟨len, rfl⟩ | rfl | ⟨len, rfl⟩
  · cases h; exact hs.ofDec rfl hs.dec.resetEffect
  · cases h; exact hs.ofDec rfl hs.dec.resetEffect
  · obtain ⟨halone, hinv⟩ := execProcess_inv hs h
    exact hs.ofDec halone hinv
  · obtain ⟨halone, hinv⟩ := execDrain_inv hs h
    exact hs.ofDec halone hinv
  · have hkeeps := execEncode_keeps h
    exact hs.ofEnc hkeeps.cfg hkeeps.dec (execEncode_inv hs h)

/-- Every input that issues no instruction keeps the invariant. -/
theorem takeInput_done_inv {i : Input} {s t : State} (hs : s.Inv) (h : takeInput i s = .done (.next t)) : t.Inv := by
  rcases takeInput_done h with ⟨a, b, hin⟩ | ⟨a, b, hpay⟩ | ⟨ws, rfl⟩ | ⟨x, -, rfl⟩ | ⟨k, a, -, hsink⟩ | ⟨-, rfl⟩
  · obtain ⟨ha, -, rfl⟩ := hostWriteIn_cases hin
    exact hs.ofDec rfl (hs.dec.writeIn ha b)
  · obtain ⟨ha, -, rfl⟩ := hostWritePay_cases hpay
    exact hs.ofEnc rfl rfl (hs.enc.writePay ha b)
  · exact hs.ofSame rfl rfl rfl
  · exact hs.ofSame rfl rfl rfl
  · exact hs.ofEnc (sinkAnswer_keeps hsink).cfg (sinkAnswer_dec hsink) (sinkAnswer_inv hs hsink)
  · exact ⟨hs.valid, Decoder.reset_inv _, Encoder.reset_inv _⟩

/-- Settles O13: a step waits, runs a turn of the byte loop, runs a command or does an input's own work, and each keeps the invariant. -/
theorem stepKeepsInvariant : Obligations.StepKeepsInvariant := by
  intro s t hs h
  obtain ⟨hc, ⟨-, -, rfl⟩ | ⟨w, hw, hturn⟩ | ⟨i, rest, -, -, ⟨j, u, hrun, hexec⟩ | hdone⟩⟩ := step_cases h
  · exact hs
  · obtain ⟨halone, hinv⟩ := windowStep_keeps hc hs.dec hw hturn
    exact hs.ofDec halone hinv
  · have hrest : (s.setInputs rest).Inv := hs.ofSame rfl rfl rfl
    obtain ⟨rfl, hj⟩ := takeInput_run hrun
    exact exec_command_inv hj hrest hexec
  · have hrest : (s.setInputs rest).Inv := hs.ofSame rfl rfl rfl
    exact takeInput_done_inv hrest hdone

/-! ## The leftover -/

/-- Settles O28: a transaction's leftover ends where its window ends: at L for PROCESS, at the old leftover's end for DRAIN. -/
theorem leftoverIsASuffixOfTheInput : Obligations.LeftoverIsASuffixOfTheInput := by
  refine fun s t => ⟨fun len h hleft => ?_, fun h hleft => ?_⟩
  · obtain ⟨-, hnone, -, hrun⟩ := execProcess_cases h
    have hend := (processWindow_leftoverEnds hnone hrun).2 hleft
    rwa [Nat.zero_add] at hend
  · rcases execDrain_cases h with ⟨hnone, rfl⟩ | ⟨-, hrun⟩
    · exact absurd hleft (Nat.not_lt.mpr (Nat.le_of_eq hnone))
    · exact (processWindow_leftoverEnds rfl hrun).2 hleft

/-- Settles O29: it is a clause of the invariant, which both commands keep. -/
theorem needMoreDataLeavesNoLeftover : Obligations.NeedMoreDataLeavesNoLeftover := by
  rintro s t len hs (h | h) hres
  · obtain ⟨-, hinv⟩ := execProcess_inv hs h
    exact hinv.zero_left hres
  · obtain ⟨-, hinv⟩ := execDrain_inv hs h
    exact hinv.zero_left hres

/-! ## LAST_T -/

/-- A transaction leaves in LAST_T the tick it was given (R78). -/
theorem processWindow_lastT {base len t : Nat} {s u : State} (h : processWindow base len t s = .next u) : u.dec.lastT = t := by
  obtain ⟨-, -, hT, -⟩ := processWindow_keeps h
  exact hT

/-- Settles O30: a transaction writes the tick it sampled; wire bytes, INIT, RESET, ENCODE and the empty DRAIN keep LAST_T. -/
theorem lastTickWrittenOnlyByProcessing : Obligations.LastTickWrittenOnlyByProcessing := by
  intro i s t h
  cases i with
  | process len =>
    obtain ⟨-, -, -, hrun⟩ := execProcess_cases h
    exact processWindow_lastT hrun
  | drain =>
    rcases execDrain_cases h with ⟨hnone, rfl⟩ | ⟨hleft, hrun⟩
    · exact (if_pos hnone).symm
    · exact (processWindow_lastT hrun).trans (if_neg (Nat.ne_of_gt hleft)).symm
  | encode len => exact congrArg Decoder.lastT (execEncode_keeps h).dec
  | endFrame =>
    simp only [exec, execEndFrame] at h
    split at h <;> cases h <;> simp
  | escEnd => exact (append_loopKeeps (s := s.setDec (s.dec.enter .inFrame)) h).lastT
  | escEsc => exact (append_loopKeeps (s := s.setDec (s.dec.enter .inFrame)) h).lastT
  | data b => exact (append_loopKeeps h).lastT
  | badEsc b => cases h; simp
  | init | reset | start | skip | esc => cases h; rfl

/-! ## Hardware reset -/

/-- A step between two commands on an input that issues no instruction does that input's work. -/
theorem step_of_done {s : State} {i : Input} {rest : List Input} {o : StepResult} (hc : configValid s.cfg = true)
    (hb : betweenCommands s) (hi : s.inputs = i :: rest) (h : takeInput i (s.setInputs rest) = .done o) : step s = o := by
  rw [step_of_input hc hb hi, h]

/-- Settles O11: the step is `hardwareReset`, whose decoder and encoder are the reset ones. -/
theorem hardwareResetValues : Obligations.HardwareResetValues := by
  intro s rest hc hb hi
  exact ⟨hardwareReset (s.setInputs rest), step_of_done hc hb hi rfl, rfl, rfl, rfl, rfl, rfl, rfl, fun _ => rfl, fun _ => rfl,
    rfl, rfl, rfl, rfl, rfl, fun _ => rfl, fun _ => rfl, rfl⟩

/-! ## The host's view of the registers -/

theorem wholeRegister_iff {offset size : Nat} : wholeRegister offset size = true ↔ offset = 0 ∧ size = 4 := by
  simp [wholeRegister]

/-- The registers do not depend on the inputs still to come. -/
theorem regValue_setInputs (blk : Block) (num : Nat) (s : State) (is : List Input) :
    regValue blk num (s.setInputs is) = regValue blk num s := rfl

/-- A whole read of a register that has a value returns it, and nothing else changes (R36, R49). -/
theorem step_of_regRead {s : State} {blk : Block} {num : Nat} {w : Word} {rest : List Input} (hc : configValid s.cfg = true)
    (hb : betweenCommands s) (hi : s.inputs = .access (.regRead blk num 0 4) :: rest) (hw : regValue blk num s = .ok w) :
    step s = .next ((s.setInputs rest).pushHost w) := by
  have hread : regRead blk num 0 4 (s.setInputs rest) = .next ((s.setInputs rest).pushHost w) := by
    rw [regRead, if_pos (by rfl), regValue_setInputs, hw, orFault_ok]
  exact step_of_done hc hb hi (congrArg Next.done hread)

theorem sendErrWord_of_le {s : State} (h : s.cfg.wErr ≤ 32) : sendErrWord s = BitVec.ofNat 32 s.enc.sendErr := if_pos h

theorem sendErrWord_of_gt {s : State} (h : 32 < s.cfg.wErr) : sendErrWord s = Config.freeWord s.draws :=
  if_neg (Nat.not_le.mpr h)

/-- Settles O50: each is a whole read of a register that has a value. -/
theorem hostReadsRegisters : Obligations.HostReadsRegisters := by
  intro s rest hc hb
  refine ⟨fun hi => ?_, fun hi => ?_, fun hi hw => ?_, fun hi hw => ?_, fun hi => ?_⟩
  · exact step_of_regRead hc hb hi rfl
  · exact step_of_regRead hc hb hi rfl
  · exact step_of_regRead hc hb hi (congrArg Except.ok (sendErrWord_of_le hw))
  · exact step_of_regRead hc hb hi (congrArg Except.ok (sendErrWord_of_gt hw))
  · exact step_of_regRead hc hb hi rfl

/-- A register with no readable value is refused (R36). -/
theorem regValue_refused {blk : Block} {num : Nat}
    (h : ¬ (blk = .decoder ∧ num = 1 ∨ blk = .encoder ∧ (num = 1 ∨ num = 2 ∨ num = 3))) (s : State) :
    regValue blk num s = .error .regAccess := by
  unfold regValue
  split <;> simp_all

/-- A read that is partial, misaligned or of an unreadable register is refused (R36, R48). -/
theorem regRead_refused {blk : Block} {num offset size : Nat}
    (h : ¬ (offset = 0 ∧ size = 4 ∧ (blk = .decoder ∧ num = 1 ∨ blk = .encoder ∧ (num = 1 ∨ num = 2 ∨ num = 3)))) (s : State) :
    regRead blk num offset size s = .fault .regAccess := by
  unfold regRead
  split
  · next hwhole =>
    obtain ⟨ho, hz⟩ := wholeRegister_iff.mp hwhole
    rw [regValue_refused (fun hr => h ⟨ho, hz, hr⟩), orFault_error]
  · rfl

/-- A write that is partial, misaligned or not of register 0 is refused (R36, R48). -/
theorem regWrite_refused {num offset size : Nat} (h : ¬ (offset = 0 ∧ size = 4 ∧ num = 0)) (blk : Block) (w : Word) (s : State) :
    regWrite blk num offset size w s = .done (.fault .regAccess) := by
  unfold regWrite
  split
  · next hwhole =>
    obtain ⟨ho, hz⟩ := wholeRegister_iff.mp hwhole
    split
    · exact absurd ⟨ho, hz, rfl⟩ h
    · exact absurd ⟨ho, hz, rfl⟩ h
    · rfl
  · rfl

/-- Settles O51: the two refusal lemmas, taken by a step. -/
theorem otherRegisterAccessesRefused : Obligations.OtherRegisterAccessesRefused := by
  intro s blk num offset size w rest hc hb
  exact ⟨fun hi h => step_of_done hc hb hi (congrArg Next.done (regRead_refused h _)),
    fun hi h => step_of_done hc hb hi (regWrite_refused h blk w _)⟩

end Sys2Proof.Machine
end

section
/-! The memory family (20_memory.md): which memory an instruction writes (R39 to R45), the host's byte accesses (R39 to R46), registers
reached through BUS_BINDING (R47, R48), reads without side effects (R49), and the address windows (R50). -/

namespace Sys2Proof.Machine

/-! ## What an instruction writes -/

/-- What every decoder instruction keeps of the decoder's memories: IN_MEM, and every written byte of OUT_MEM (R39, R40). -/
theorem exec_keeps_decoder_memories {i : Instr} (hi : ∀ len, i ≠ .encode len) {s t : State} (h : exec i s = .next t) :
    t.dec.inMem = s.dec.inMem ∧ ∀ a, memRead s.dec.outMem a ≠ none → memRead t.dec.outMem a ≠ none := by
  have of_loop {u : State} (hu : LoopKeeps s u) :
      u.dec.inMem = s.dec.inMem ∧ ∀ a, memRead s.dec.outMem a ≠ none → memRead u.dec.outMem a ≠ none := ⟨hu.inMem, hu.written⟩
  have henter : LoopKeeps s (s.setDec (s.dec.enter .inFrame)) := .of_dec rfl rfl rfl
  cases i with
  | encode len => exact absurd rfl (hi len)
  | process len =>
    obtain ⟨-, -, -, hrun⟩ := execProcess_cases h
    obtain ⟨-, hin, -, hwritten⟩ := processWindow_keeps hrun
    exact ⟨hin, hwritten⟩
  | drain =>
    rcases execDrain_cases h with ⟨-, rfl⟩ | ⟨-, hrun⟩
    · exact of_loop (.of_dec rfl rfl rfl)
    · obtain ⟨-, hin, -, hwritten⟩ := processWindow_keeps hrun
      exact ⟨hin, hwritten⟩
  | endFrame =>
    simp only [exec, execEndFrame] at h
    split at h <;> cases h
    · exact of_loop (.of_dec rfl rfl rfl)
    · exact of_loop (.of_dec (by simp) (by simp) (by simp))
  | escEnd => exact of_loop (henter.trans (append_loopKeeps h))
  | escEsc => exact of_loop (henter.trans (append_loopKeeps h))
  | data b => exact of_loop (append_loopKeeps h)
  | badEsc b => cases h; exact of_loop (.of_dec (by simp) (by simp) (by simp))
  | init | reset | start | skip | esc => cases h; exact of_loop (.of_dec rfl rfl rfl)

/-- Settles O45: ENCODE is a stretch of the encoder; any other instruction changes the decoder alone and keeps its memories' bytes. -/
theorem instructionsWriteOnlyTheirMemory : Obligations.InstructionsWriteOnlyTheirMemory := by
  intro i s t h
  by_cases hi : ∃ len, i = .encode len
  · obtain ⟨len, rfl⟩ := hi
    have hkeeps : StretchKeeps s t := execEncode_keeps h
    have hdec := hkeeps.dec
    exact ⟨congrArg Decoder.inMem hdec, hkeeps.payMem, fun _ => congrArg Decoder.outMem hdec,
      fun hne => absurd rfl (hne len), fun a ha => by rwa [hdec], hkeeps.written⟩
  · have hne : ∀ len, i ≠ .encode len := not_exists.mp hi
    obtain ⟨hin, hwritten⟩ := exec_keeps_decoder_memories hne h
    have henc : t.enc = s.enc := by rw [exec_changes_decoder_alone hne h, State.setDec_enc]
    refine ⟨hin, congrArg Encoder.payMem henc, ?_, fun _ => congrArg Encoder.scratch henc, hwritten, fun a ha => by rwa [henc]⟩
    rintro (rfl | rfl | hencode)
    · cases h; rfl
    · cases h; rfl
    · exact absurd hencode hi

/-- An append with WP beyond CAPACITY stops and writes nothing (log 15). -/
theorem append_of_beyond {b : Byte} {s : State} (h : s.cfg.capacity < s.dec.wp) : append b s = .fault .memRange := by
  rw [append, if_neg (Nat.ne_of_gt h), storeByte_of_le (Nat.le_of_lt h), orFault_error]

/-- Settles O21: each of the three is an append at the WP it finds. -/
theorem appendBeyondCapacityStops : Obligations.AppendBeyondCapacityStops := by
  rintro s i h (rfl | rfl | ⟨b, rfl⟩)
  · exact append_of_beyond (s := s.setDec (s.dec.enter .inFrame)) h
  · exact append_of_beyond (s := s.setDec (s.dec.enter .inFrame)) h
  · exact append_of_beyond h

/-! ## The host's byte accesses -/

/-- Settles O47: the branches of `hostWriteIn`, in the order of its tests. -/
theorem hostWritesInputMemory : Obligations.HostWritesInputMemory := by
  intro s a b rest hc hb hi
  have hstep {o : StepResult} (h : hostWriteIn a b (s.setInputs rest) = o) : step s = o :=
    step_of_done hc hb hi (congrArg Next.done h)
  refine ⟨fun hout => hstep (if_pos hout), fun hin hleft => hstep ?_, fun hin hleft => ?_⟩
  · exact (if_neg (Nat.not_le.mpr hin)).trans (if_pos hleft)
  · refine ⟨memWrite s.dec.inMem a b, hstep ?_, memRead_memWrite_same _ a b, fun k => memRead_memWrite_other _ b⟩
    exact (if_neg (Nat.not_le.mpr hin)).trans (if_neg (Nat.not_lt.mpr (Nat.le_of_eq hleft)))

/-- Settles O48: the branches of `hostWritePay`, in the order of its tests. -/
theorem hostWritesPayloadMemory : Obligations.HostWritesPayloadMemory := by
  intro s a b rest hc hb hi
  have hstep {o : StepResult} (h : hostWritePay a b (s.setInputs rest) = o) : step s = o :=
    step_of_done hc hb hi (congrArg Next.done h)
  refine ⟨fun hout => hstep (if_pos hout), fun hin hbusy => hstep ?_, fun hin hbusy => ?_⟩
  · exact (if_neg (Nat.not_le.mpr hin)).trans (if_pos hbusy)
  · refine ⟨memWrite s.enc.payMem a b, hstep ?_, memRead_memWrite_same _ a b, fun k => memRead_memWrite_other _ b⟩
    exact (if_neg (Nat.not_le.mpr hin)).trans (if_neg (Bool.eq_false_iff.mp hbusy))

theorem loadByte_of_le {size a : Nat} (h : size ≤ a) (m : Mem) : loadByte size m a = .error .memRange :=
  if_neg (Nat.not_lt.mpr h)

theorem loadByte_of_unwritten {size a : Nat} {m : Mem} (h : a < size) (hm : memRead m a = none) :
    loadByte size m a = .error .unwrittenRead := by
  rw [loadByte, if_pos h, hm]

/-- Settles O49: a read of OUT_MEM is `loadByte`, and a write of it is refused by name. -/
theorem hostReadsOutputMemory : Obligations.HostReadsOutputMemory := by
  refine fun s a rest hc hb => ⟨fun hi => ?_, fun b hi => step_of_done hc hb hi rfl⟩
  have hstep {r : Except Fault Byte} (h : loadByte s.cfg.capacity s.dec.outMem a = r) :
      step s = orFault r fun b => .next ((s.setInputs rest).pushHost (b.setWidth 32)) :=
    step_of_done hc hb hi (by rw [← h]; rfl)
  exact ⟨fun hout => hstep (loadByte_of_le hout _), fun hin hnone => hstep (loadByte_of_unwritten hin hnone),
    fun b hin hsome => hstep (loadByte_ok.mpr ⟨hin, hsome⟩)⟩

/-- Settles O57: each of the four accesses is refused by the memory's name. -/
theorem otherMemoryAccessesRefused : Obligations.OtherMemoryAccessesRefused := by
  rintro s a b rest hc hb (hi | hi | hi | hi)
  · exact step_of_done hc hb hi rfl
  · exact step_of_done hc hb hi rfl
  · exact step_of_done hc hb hi rfl
  · exact step_of_done hc hb hi rfl

/-! ## Address windows -/

theorem inRange_add {base len a : Nat} (h : a < len) : inRange base len (base + a) = true :=
  decide_eq_true ⟨Nat.le_add_right _ _, Nat.add_lt_add_left h _⟩

/-- An address of a window is in none that ends at or before its base. -/
theorem inRange_earlier {base len base' : Nat} (h : base + len ≤ base') (a : Nat) : inRange base len (base' + a) = false :=
  decide_eq_false fun ⟨_, hlt⟩ => Nat.not_lt.mpr (h.trans (Nat.le_add_right base' a)) hlt

/-- Register `a` stands `a` strides above its block's base (log 13). -/
theorem busRegister_place {c : Config} (h : 0 < c.regStride) (blk : Block) (base a : Nat) :
    busRegister c blk base (base + a * c.regStride) = .register blk a 0 := by
  rw [busRegister, Nat.add_sub_cancel_left, Nat.mul_div_cancel _ h, Nat.mul_mod_left]

/-- Settles O54: an address of one window is in no earlier one, so `busTarget` reaches its own. -/
theorem busAddressesReachTheirTarget : Obligations.BusAddressesReachTheirTarget := by
  intro c a hdec henc hin hout hstride
  have hpos : 0 < c.regStride := by omega
  have hplace {n : Nat} (ha : a < n) : a * c.regStride < n * c.regStride := Nat.mul_lt_mul_of_pos_right ha hpos
  refine ⟨fun ha => ?_, fun ha => ?_, fun ha => ?_, fun ha => ?_, fun ha => ?_⟩
  · rw [busTarget, if_pos (inRange_add (hplace ha)), busRegister_place hpos]
  · simp only [busTarget, inRange_earlier hdec, inRange_add (hplace ha), busRegister_place hpos, Bool.false_eq_true, if_false, if_true]
  · have hdec' : c.decBase + 2 * c.regStride ≤ c.inMemBase := by omega
    simp only [busTarget, inRange_earlier hdec', inRange_earlier henc, inRange_add ha, Nat.add_sub_cancel_left, Bool.false_eq_true,
      if_false, if_true]
  · have hdec' : c.decBase + 2 * c.regStride ≤ c.outMemBase := by omega
    have henc' : c.encBase + 4 * c.regStride ≤ c.outMemBase := by omega
    simp only [busTarget, inRange_earlier hdec', inRange_earlier henc', inRange_earlier hin, inRange_add ha,
      Nat.add_sub_cancel_left, Bool.false_eq_true, if_false, if_true]
  · have hdec' : c.decBase + 2 * c.regStride ≤ c.payMemBase := by omega
    have henc' : c.encBase + 4 * c.regStride ≤ c.payMemBase := by omega
    have hin' : c.inMemBase + c.inMemSize ≤ c.payMemBase := by omega
    simp only [busTarget, inRange_earlier hdec', inRange_earlier henc', inRange_earlier hin', inRange_earlier hout,
      inRange_add ha, Nat.add_sub_cancel_left, Bool.false_eq_true, if_false, if_true]

/-! ## Host reads -/

/-- The read `f` has one answer from `s`, a fault or the words it returns, whatever inputs are to come and whatever words earlier
reads returned; and it changes nothing but the words returned (R49). -/
def HasOneAnswer (f : State → StepResult) (s : State) : Prop :=
  ∃ answer : Except Fault (List Word), ∀ is out, f { s with inputs := is, hostOut := out }
    = orFault answer fun ws => .next { s with inputs := is, hostOut := out ++ ws }

theorem HasOneAnswer.of_fault {f : State → StepResult} {s : State} {e : Fault}
    (h : ∀ is out, f { s with inputs := is, hostOut := out } = .fault e) : HasOneAnswer f s := ⟨.error e, h⟩

/-- A read that goes on with a value found in `s`, and returns the words of that value. -/
theorem HasOneAnswer.of_value {α : Type} {f : State → StepResult} {s : State} {r : Except Fault α} {words : α → List Word}
    (h : ∀ is out, f { s with inputs := is, hostOut := out }
      = orFault r fun v => .next { s with inputs := is, hostOut := out ++ words v }) : HasOneAnswer f s :=
  ⟨r.map words, fun is out => (h is out).trans (by cases r <;> rfl)⟩

theorem regRead_hasOneAnswer (blk : Block) (num offset size : Nat) (s : State) :
    HasOneAnswer (regRead blk num offset size) s := by
  by_cases hw : wholeRegister offset size = true
  · exact .of_value (r := regValue blk num s) (words := fun w => [w]) fun _ _ => if_pos hw
  · exact .of_fault fun _ _ => if_neg hw

theorem memReadAccess_hasOneAnswer (m : MemName) (a : Nat) (s : State) : HasOneAnswer (memReadAccess m a) s := by
  cases m with
  | outMem =>
    exact .of_value (r := loadByte s.cfg.capacity s.dec.outMem a) (words := fun b => [b.setWidth 32]) fun _ _ => rfl
  | inMem | payMem | scratch => exact .of_fault fun _ _ => rfl

/-- A bus read that makes a whole access returns the transfers of the register's value (R47). -/
theorem busRead_whole {s : State} {addr width count num offset : Nat} {blk : Block}
    (ht : busTarget s.cfg addr = some (.register blk num offset))
    (hw : wholeRegister offset (accessSize s.cfg.busBinding width count) = true) :
    busRead addr width count s
      = orFault (regValue blk num s) fun w => .next (s.pushHostAll (transfersOf s.cfg.busBinding w)) := by
  simp only [busRead, ht, hw, if_true]

/-- A bus read that makes a partial access is refused (R48). -/
theorem busRead_partial {s : State} {addr width count num offset : Nat} {blk : Block}
    (ht : busTarget s.cfg addr = some (.register blk num offset))
    (hw : wholeRegister offset (accessSize s.cfg.busBinding width count) = false) :
    busRead addr width count s = .fault .regAccess := by
  simp only [busRead, ht, hw, Bool.false_eq_true, if_false]

/-- A bus read of a memory byte, in one transfer of one byte, is the host's read of that byte (R50). -/
theorem busRead_byte {s : State} {addr width count a : Nat} {m : MemName} (ht : busTarget s.cfg addr = some (.byte m a))
    (hone : width = 1 ∧ count = 1) : busRead addr width count s = memReadAccess m a s := by
  simp only [busRead, ht, if_pos hone]

/-- Any other bus read of a memory byte is refused (log 13). -/
theorem busRead_byte_refused {s : State} {addr width count a : Nat} {m : MemName}
    (ht : busTarget s.cfg addr = some (.byte m a)) (hone : ¬ (width = 1 ∧ count = 1)) :
    busRead addr width count s = .fault .memRange := by
  simp only [busRead, ht, if_neg hone]

theorem busRead_hasOneAnswer (addr width count : Nat) (s : State) : HasOneAnswer (busRead addr width count) s := by
  cases ht : busTarget s.cfg addr with
  | none => exact .of_fault (e := .memRange) fun _ _ => by simp only [busRead, ht]
  | some target =>
    cases target with
    | register blk num offset =>
      cases hw : wholeRegister offset (accessSize s.cfg.busBinding width count) with
      | true =>
        exact .of_value (r := regValue blk num s) (words := transfersOf s.cfg.busBinding) fun _ _ => busRead_whole ht hw
      | false => exact .of_fault fun _ _ => busRead_partial ht hw
    | byte m a =>
      by_cases hone : width = 1 ∧ count = 1
      · obtain ⟨answer, h⟩ := memReadAccess_hasOneAnswer m a s
        refine ⟨answer, fun is out => ?_⟩
        rw [← h is out]
        exact busRead_byte ht hone
      · exact .of_fault fun _ _ => busRead_byte_refused ht hone

/-- Two reads one after the other, of a read that has one answer and goes on, return the same words and change nothing else. -/
theorem HasOneAnswer.read_twice {f : State → StepResult} {s t : State} {r : Input} {rest : List Input} (hf : HasOneAnswer f s)
    (hr : ∀ u, takeInput r u = .done (f u)) (hb : betweenCommands s) (hi : s.inputs = r :: r :: rest) (h : step s = .next t) :
    ∃ ws, t = { s with inputs := r :: rest, hostOut := s.hostOut ++ ws }
      ∧ step t = .next { s with inputs := rest, hostOut := s.hostOut ++ ws ++ ws } := by
  obtain ⟨hc, -⟩ := step_cases h
  obtain ⟨answer, hf⟩ := hf
  have hfirst : step s = f (s.setInputs (r :: rest)) := step_of_done hc hb hi (hr _)
  rw [h] at hfirst
  obtain ⟨ws, rfl, ht⟩ := orFault_eq_next.mp ((hf _ _).symm.trans hfirst.symm)
  cases ht
  have hsecond : step { s with inputs := r :: rest, hostOut := s.hostOut ++ ws }
      = f { s with inputs := rest, hostOut := s.hostOut ++ ws } := step_of_done hc hb rfl (hr _)
  exact ⟨ws, rfl, hsecond.trans (hf _ _)⟩

/-- Settles O56: each of the three host reads has one answer. -/
theorem hostReadsAreIdempotent : Obligations.HostReadsAreIdempotent := by
  rintro s t r rest hb hi (⟨blk, num, offset, size, rfl⟩ | ⟨m, a, rfl⟩ | ⟨addr, width, count, rfl⟩) h
  · exact (regRead_hasOneAnswer blk num offset size s).read_twice (fun _ => rfl) hb hi h
  · exact (memReadAccess_hasOneAnswer m a s).read_twice (fun _ => rfl) hb hi h
  · exact (busRead_hasOneAnswer addr width count s).read_twice (fun _ => rfl) hb hi h

/-! ## Registers through BUS_BINDING -/

section
variable {b : BusBinding}

theorem map_byteOf_length (hb : carriesWhole b = true) (w : Word) :
    (b.lanes.map (byteOf w)).length = transferCount b * b.width := by
  obtain ⟨-, -, hfour, hlanes, -⟩ := carriesWhole_cases hb
  rw [List.length_map, hlanes, hfour]

/-- Lane `l` of transfer `j` carries the register byte the binding names there (R47). -/
theorem transfersOf_lane (hb : carriesWhole b = true) (w : Word) {j l : Nat} (hj : j < transferCount b) (hl : l < b.width) :
    (transfersOf b w)[j]?.map (byteOf · l) = b.lanes[j * b.width + l]?.map (byteOf w) := by
  obtain ⟨hwidth, -, -, -, -⟩ := carriesWhole_cases hb
  rw [transfersOf, laneWords_lane b.width hwidth _ hj hl (map_byteOf_length hb w).ge, List.getElem?_map]

/-- The transfers of a word make that word again: no byte is lost (R47). -/
theorem wordOf_transfersOf (hb : carriesWhole b = true) (w : Word) : wordOf b (transfersOf b w) = w := by
  obtain ⟨hwidth, -, -, -, hall⟩ := carriesWhole_cases hb
  rw [wordOf, transfersOf, transferBytes_laneWords b.width hwidth _ (map_byteOf_length hb w)]
  exact bytes_make_word w b.lanes hall

theorem transfersOf_length (w : Word) : (transfersOf b w).length = transferCount b := laneWords_length _ _ _

theorem accessSize_whole (hb : carriesWhole b = true) : accessSize b b.width (transferCount b) = 4 := by
  simp [accessSize, hb]

theorem accessSize_partial {width count : Nat} (h : width ≠ b.width ∨ count ≠ transferCount b) :
    accessSize b width count = 0 := by
  rcases h with h | h <;> simp [accessSize, h]

end

/-- A bus write at a register's address is a register write, of the value its transfers carry (R47, R50). -/
theorem takeInput_busWrite_register {s : State} {addr num offset : Nat} {blk : Block}
    (ht : busTarget s.cfg addr = some (.register blk num offset)) (width : Nat) (ts : List Word) :
    takeInput (.busWrite addr width ts) s
      = regWrite blk num offset (accessSize s.cfg.busBinding width ts.length) (wordOf s.cfg.busBinding ts) s := by
  simp only [takeInput, busWrite, ht]

/-- Two inputs that are taken alike make the same step. -/
theorem step_input_congr {s : State} {i j : Input} {rest : List Input} (hc : configValid s.cfg = true) (hb : betweenCommands s)
    (hi : s.inputs = i :: rest) (h : takeInput i (s.setInputs rest) = takeInput j (s.setInputs rest)) :
    step s = step { s with inputs := j :: rest } := by
  rw [step_of_input hc hb hi, h]
  exact (step_of_input (s := s.setInputs (j :: rest)) hc hb rfl).symm

/-- A whole read that returned the word `v` found `v` in the register. -/
theorem regValue_of_step {s : State} {blk : Block} {num : Nat} {v : Word} {rest : List Input} (hc : configValid s.cfg = true)
    (hb : betweenCommands s) (h : step { s with inputs := .access (.regRead blk num 0 4) :: rest }
      = .next { s with inputs := rest, hostOut := s.hostOut ++ [v] }) : regValue blk num s = .ok v := by
  have hread : step { s with inputs := .access (.regRead blk num 0 4) :: rest } = regRead blk num 0 4 (s.setInputs rest) :=
    step_of_done (s := s.setInputs _) hc hb rfl rfl
  obtain ⟨w, hw, ht⟩ := orFault_eq_next.mp (hread.symm.trans h)
  have hout : s.hostOut ++ [w] = s.hostOut ++ [v] := congrArg State.hostOut (Host.Outcome.next.inj ht)
  rw [← List.singleton_inj.mp (List.append_cancel_left hout)]
  exact hw

/-- Settles O55: the lanes and the round trip of the binding, and the bus access that each size of it makes. -/
theorem registersAreReachedThroughTheBinding : Obligations.RegistersAreReachedThroughTheBinding := by
  intro s addr num blk rest hc hb hwhole ht
  have hrefused {i : Input} (hi : s.inputs = i :: rest) (h : takeInput i (s.setInputs rest) = .done (.fault .regAccess)) :
      step s = .fault .regAccess := step_of_done hc hb hi h
  refine ⟨fun w j l => transfersOf_lane hwhole w, wordOf_transfersOf hwhole, fun w hi => step_input_congr hc hb hi ?_,
    fun v hi hv => ?_, fun width count ts hpartial hlen => ⟨fun hi => hrefused hi ?_, fun hi => hrefused hi ?_⟩⟩
  · rw [takeInput_busWrite_register (s := s.setInputs rest) ht, transfersOf_length]
    simp only [State.setInputs_cfg, accessSize_whole hwhole, wordOf_transfersOf hwhole, takeInput, hostAccess]
  · have hread := busRead_whole (s := s.setInputs rest) (width := s.cfg.busBinding.width)
      (count := transferCount s.cfg.busBinding) ht (by simp [accessSize_whole hwhole, wholeRegister])
    rw [regValue_setInputs, regValue_of_step hc hb hv, orFault_ok] at hread
    exact step_of_done hc hb hi (congrArg Next.done hread)
  · exact congrArg Next.done (busRead_partial (s := s.setInputs rest) ht (by simp [accessSize_partial hpartial, wholeRegister]))
  · rw [takeInput_busWrite_register (s := s.setInputs rest) ht, hlen]
    exact regWrite_refused (by simp [accessSize_partial hpartial]) blk _ _

end Sys2Proof.Machine
end

section
/-! The encoding family (30_encoding.md): the chunks of a payload as its frame (R55, R56, R104), the byte classes row by row (R57),
command words written out (R60, R61), and a block that waits (R67, R121). -/

namespace Sys2Proof.Machine

/-! ## The frame of a payload -/

/-- Cutting loses no byte: joined, the chunks are what stood in SCRATCH, the payload escaped, and the closing delimiter. -/
theorem cutBody_flatten (chunkSize : Nat) (cur payload : List Byte) :
    (cutBody chunkSize cur payload).flatten = cur ++ payload.flatMap escape ++ [startEnd] := by
  induction payload generalizing cur with
  | nil =>
    unfold cutBody
    split <;> simp
  | cons b bs ih =>
    unfold cutBody
    split <;> simp [ih]

/-- A byte that `esc` replaces: one of the two reserved values that R55 names. -/
def isEscaped (b : Byte) : Bool := b == startEnd || b == escapeByte

/-- R55: `esc` gives two bytes for a reserved value and one for any other. -/
theorem escape_length_eq (b : Byte) : (escape b).length = 1 + if isEscaped b then 1 else 0 := by
  by_cases hc : b = startEnd
  · simp [escape, isEscaped, hc]
  · by_cases hd : b = escapeByte
    · simp [escape, isEscaped, hd]
    · simp [escape, isEscaped, hc, hd]

theorem flatMap_escape_length (payload : List Byte) :
    (payload.flatMap escape).length = payload.length + payload.countP isEscaped := by
  induction payload with
  | nil => rfl
  | cons b bs ih =>
    rw [List.flatMap_cons, List.length_append, escape_length_eq, ih, List.length_cons, List.countP_cons]
    omega

theorem frame_length (payload : List Byte) : (frame payload).length = 2 + payload.length + payload.countP isEscaped := by
  simp only [frame, List.length_append, List.length_singleton, flatMap_escape_length]
  omega

/-- Settles O40: cutting starts with the opening delimiter in SCRATCH and loses no byte. -/
theorem chunksJoinToTheFrame : Obligations.ChunksJoinToTheFrame := by
  intro chunkSize payload
  exact ⟨cutBody_flatten chunkSize [startEnd] payload, frame_length payload⟩

/-! ## Byte classes -/

/-- IDLE's rows of R57. -/
theorem decodeWire_idle (b : Byte) : decodeWire .idle b = if b = startEnd then .start else .skip b := by
  by_cases h : b = startEnd <;> simp [decodeWire, wireClass, wireInstr, h]

/-- IN_FRAME's rows of R57. -/
theorem decodeWire_inFrame (b : Byte) :
    decodeWire .inFrame b = if b = startEnd then .endFrame else if b = escapeByte then .esc else .data b := by
  by_cases h : b = startEnd
  · simp [decodeWire, wireClass, wireInstr, h]
  · by_cases h' : b = escapeByte <;> simp [decodeWire, wireClass, wireInstr, h, h']

/-- IN_FRAME_ESCAPED's rows of R57. -/
theorem decodeWire_inFrameEscaped (b : Byte) :
    decodeWire .inFrameEscaped b
      = if b = startEnd then .endFrame
        else if b = escapedStartEnd then .escEnd
        else if b = escapedEscape then .escEsc
        else .badEsc b := by
  by_cases h : b = startEnd
  · simp [decodeWire, wireClass, wireInstr, h]
  · by_cases h' : b = escapedStartEnd
    · simp [decodeWire, wireClass, wireInstr, h']
    · by_cases h'' : b = escapedEscape <;> simp [decodeWire, wireClass, wireInstr, h, h', h'']

/-- Settles O3: each row is a branch of its state's table. -/
theorem byteClassTable : Obligations.ByteClassTable := by
  refine ⟨?idleDelimiter, ?idleOther, ?frameDelimiter, ?escapedDelimiter, ?escEnd, ?escEsc, ?badEsc, ?esc, ?data⟩
  case idleDelimiter => exact decodeWire_idle startEnd
  case idleOther =>
    intro b hb
    rw [decodeWire_idle, if_neg hb]
  case frameDelimiter => exact decodeWire_inFrame startEnd
  case escapedDelimiter => exact decodeWire_inFrameEscaped startEnd
  case escEnd => exact decodeWire_inFrameEscaped escapedStartEnd
  case escEsc => exact decodeWire_inFrameEscaped escapedEscape
  case badEsc =>
    intro b hend hescEnd hescEsc
    rw [decodeWire_inFrameEscaped, if_neg hend, if_neg hescEnd, if_neg hescEsc]
  case esc => exact decodeWire_inFrame escapeByte
  case data =>
    intro b hend hesc
    rw [decodeWire_inFrame, if_neg hend, if_neg hesc]

/-! ## Command words -/

/-- R61: what a word written to DEC_CMD decodes to, by its two fields. -/
theorem decode_decCmd_commandWord (d : DState) (op : Byte) (len : Len) :
    decode d (.decCmd (commandWord op len))
      = if op = 0x01#8 then wantZeroLen (commandWord op len) .init
        else if op = 0x02#8 then wantZeroLen (commandWord op len) .reset
        else if op = 0x03#8 then .ok (.process len)
        else if op = 0x04#8 then wantZeroLen (commandWord op len) .drain
        else .error .reservedOp := by
  simp only [decode, decodeDecCmd, opField_commandWord, lenField_commandWord]

/-- R61: what a word written to ENC_CMD decodes to, by its two fields. -/
theorem decode_encCmd_commandWord (d : DState) (op : Byte) (len : Len) :
    decode d (.encCmd (commandWord op len)) = if op = 0x10#8 then .ok (.encode len) else .error .reservedOp := by
  simp only [decode, decodeEncCmd, opField_commandWord, lenField_commandWord]

/-- Settles O4: the words are `{LEN, OP}` of R60 with the OPs of R61, and the bytes are rows of R57. -/
theorem writtenOutWordsDecode : Obligations.WrittenOutWordsDecode := by
  refine ⟨?init, ?reset, ?process, ?drain, ?encode, ?esc, ?data⟩
  case init => exact decode_decCmd_commandWord .idle 0x01#8 0#24
  case reset => exact decode_decCmd_commandWord .idle 0x02#8 0#24
  case process => exact decode_decCmd_commandWord .idle 0x03#8 5#24
  case drain => exact decode_decCmd_commandWord .idle 0x04#8 0#24
  case encode => exact decode_encCmd_commandWord .idle 0x10#8 6#24
  case esc => exact congrArg Except.ok (decodeWire_inFrame escapeByte)
  case data => exact congrArg Except.ok (decodeWire_inFrame escapedStartEnd)

/-! ## Waiting -/

/-- Settles O53: a step with nothing to take waits, and a tick input issues no instruction. -/
theorem waitingChangesNothing : Obligations.WaitingChangesNothing := by
  intro s hc hb
  exact ⟨step_of_nothing hc hb, fun _ _ hi => step_of_done hc hb hi rfl⟩

end Sys2Proof.Machine
end

section
/-! The decoder family (40_decoder.md): the effect of each wire byte (R80 to R86), the commands INIT, RESET, PROCESS and DRAIN (R71
to R79) as a parser of their bytes, and the host's loop over them (R89, R90). -/

namespace Sys2Proof.Machine

/-! ## Control commands -/

/-- Settles O14: both commands are the reset effect. -/
theorem initAndResetClearFrameState : Obligations.InitAndResetClearFrameState := fun _ => ⟨rfl, rfl⟩

/-! ## Wire bytes -/

/-- A byte consumed under an open window moves the cursor on by one, and does no more (R30). -/
theorem consume_of_window {s : State} {w : Window} (hw : s.dec.window = some w) :
    consume s = { s with dec := { s.dec with window := some { w with pos := w.pos + 1 } } } := by
  rw [consume, Decoder.advance, hw, Option.map_some]
  rfl

/-- Settles O15: a delimiter clears WP and enters the frame, any other byte moves the cursor alone. -/
theorem idleBytesStartOrAreIgnored : Obligations.IdleBytesStartOrAreIgnored := fun s _ hw =>
  ⟨congrArg Host.Outcome.next (consume_of_window (s := s.setDec { s.dec with dstate := .inFrame, wp := 0 }) hw),
    fun _ => congrArg Host.Outcome.next (consume_of_window hw)⟩

/-- Settles O17: ESC only enters IN_FRAME_ESCAPED and moves the cursor. -/
theorem escapeByteArmsTheEscape : Obligations.EscapeByteArmsTheEscape := fun s _ hw =>
  congrArg Host.Outcome.next (consume_of_window (s := s.setDec (s.dec.enter .inFrameEscaped)) hw)

/-- Settles O16: END tests WP; an empty frame is entered again, and a complete one sets the leftover and ends the transaction. -/
theorem endRestartsOrCompletesTheFrame : Obligations.EndRestartsOrCompletesTheFrame := by
  refine fun s w hw => ⟨fun hempty => (if_pos hempty).trans ?_, fun hfull => (if_neg (Nat.ne_of_gt hfull)).trans ?_⟩
  · exact congrArg Host.Outcome.next (consume_of_window (s := s.setDec (s.dec.enter .inFrame)) hw)
  · exact congrArg (fun d => Host.Outcome.next (s.setDec d)) (Decoder.setLeft_finish (s.dec.enter .idle) w hw _)

/-- A decoder error under an open window, field by field (R109). -/
theorem raiseError_of_window {s : State} {w : Window} (hw : s.dec.window = some w) (r : FrameResult) :
    raiseError r s = { s with dec := { s.dec with
      dstate := .idle
      wp := 0
      leftOff := if w.pos + 1 < w.len then w.base + w.pos + 1 else 0
      leftLen := w.len - (w.pos + 1)
      res := resultWord s.cfg r
      window := none } } :=
  congrArg s.setDec (Decoder.setLeft_finish s.dec.resetEffect w hw _)

/-- Settles O20: BAD_ESC is a decoder error, whatever WP is. -/
theorem badEscapeIsAnError : Obligations.BadEscapeIsAnError := fun _ _ _ hw =>
  congrArg _ (raiseError_of_window hw .invalidEscape)

/-- Below CAPACITY an append under an open window writes OUT_MEM at WP, moves WP and the cursor on, and does no more (R86). -/
theorem append_of_room_window {s : State} {w : Window} (hw : s.dec.window = some w) (hroom : s.dec.wp < s.cfg.capacity)
    (b : Byte) : append b s = .next { s with dec := { s.dec with
      outMem := memWrite s.dec.outMem s.dec.wp b
      wp := s.dec.wp + 1
      window := some { w with pos := w.pos + 1 } } } :=
  (append_of_room hroom).trans (congrArg Host.Outcome.next
    (consume_of_window (s := s.setDec (s.dec.appended (memWrite s.dec.outMem s.dec.wp b))) hw))

/-- Settles O19: DATA is the append of its byte. -/
theorem dataByteIsAppended : Obligations.DataByteIsAppended := by
  refine fun s w b hw => ⟨fun hroom => ?_, fun hfull => ?_⟩
  · exact ⟨_, append_of_room_window hw hroom b, memRead_memWrite_same _ _ b, fun a => memRead_memWrite_other _ b⟩
  · exact (append_of_full hfull).trans (congrArg _ (raiseError_of_window hw .overflow))

/-- Settles O18: both successors enter IN_FRAME and then do what DATA does with the decoded byte. -/
theorem escapedSuccessorAppendsDecodedByte : Obligations.EscapedSuccessorAppendsDecodedByte := by
  intro s w i d hw hi
  have hdata := dataByteIsAppended (s.setDec (s.dec.enter .inFrame)) w d hw
  rcases hi with ⟨rfl, rfl⟩ | ⟨rfl, rfl⟩ <;> exact hdata

/-! ## PROCESS and DRAIN -/

/-- A PROCESS under its three duties is a transaction on its window (R74). -/
theorem execProcess_of_duties {s : State} {len : Len} (hlen : len.toNat ≤ s.cfg.inMemSize) (hleft : s.dec.leftLen = 0)
    (hwritten : allWritten s.dec.inMem 0 len.toNat = true) :
    execProcess len s = processWindow 0 len.toNat (tickNow s) s :=
  (if_neg (Nat.not_lt.mpr hlen)).trans ((if_neg (Nat.not_lt.mpr hleft.le)).trans (if_pos hwritten))

/-- A DRAIN of a leftover is a transaction on it (R75). -/
theorem execDrain_of_leftover {s : State} (hleft : 0 < s.dec.leftLen) :
    execDrain s = processWindow s.dec.leftOff s.dec.leftLen (tickNow s) (clearLeft s) :=
  if_neg (Nat.ne_of_gt hleft)

/-- Settles O22: the branches of `execProcess`, in the order of its tests. -/
theorem processStopsOnBrokenHostDuty : Obligations.ProcessStopsOnBrokenHostDuty := by
  refine fun s len => ⟨fun hlong => if_pos hlong, fun hlen hleft => ?_, fun hlen hleft hunwritten => ?_⟩
  · exact (if_neg (Nat.not_lt.mpr hlen)).trans (if_pos hleft)
  · have hall : ¬ allWritten s.dec.inMem 0 len.toNat = true := by
      obtain ⟨a, ha, hnone⟩ := hunwritten
      intro hall
      have hsome := allWritten_iff.mp hall a ha
      rw [Nat.zero_add, hnone] at hsome
      exact Bool.noConfusion hsome
    exact (if_neg (Nat.not_lt.mpr hlen)).trans ((if_neg (Nat.not_lt.mpr hleft.le)).trans (if_neg hall))

/-- Settles O25: an empty leftover takes DRAIN's first branch. -/
theorem emptyDrainReturnsZero : Obligations.EmptyDrainReturnsZero := fun _ hleft => if_pos hleft

/-- A transaction on no bytes ends as it opens: the timeout test, LAST_T, and NeedMoreData (R79). -/
theorem processWindow_of_no_bytes (base t : Nat) (s : State) :
    processWindow base 0 t s = .next (endTransaction .needMoreData (openWindow base 0 t s)) := by
  have hopen : (openWindow base 0 t s).dec.window = some ⟨base, 0, 0⟩ := by rw [openWindow_eq]; rfl
  rw [processWindow, runWindow_succ hopen, windowStep_exhausted (Nat.le_refl _), andThen_next, runWindow]

/-- Settles O24: the two cases are the two outcomes of the timeout test. -/
theorem emptyProcessRunsOnlyTheTimeoutTest : Obligations.EmptyProcessRunsOnlyTheTimeoutTest := by
  intro s hleft
  have hrun : exec (.process 0#24) s = .next (endTransaction .needMoreData (openWindow 0 0 (tickNow s) s)) :=
    (execProcess_of_duties (len := 0#24) (Nat.zero_le _) hleft rfl).trans (processWindow_of_no_bytes 0 (tickNow s) s)
  rw [hrun, openWindow_eq]
  refine ⟨fun hin => ?_, fun hout => ?_⟩
  · rw [if_neg (by simpa [timedOut] using hin)]
    rfl
  · rw [if_pos (by simpa [timedOut] using hout)]
    rfl

/-- What the parser holds shows in DSTATE, WP and OUT_MEM alone. -/
theorem parserMatches_congr {d d' : Decoder} (hstate : d'.dstate = d.dstate) (hwp : d'.wp = d.wp)
    (hout : d'.outMem = d.outMem) {st : Parser} : parserMatches d' st ↔ parserMatches d st := by
  cases st <;> simp only [parserMatches, hstate, hwp, hout]

/-- A transaction on a written window refines the parser: besides the registers of the parse, a leftover ends where the window ends
(R79), and WP stands in IDLE after NeedMoreData (R25). -/
theorem processWindow_refines {s : State} {base len t : Nat} {bs : List Byte} {st : Parser} (hvalid : configValid s.cfg = true)
    (hinv : s.dec.Inv s.cfg) (hleft : s.dec.leftLen = 0) (hin : base + len ≤ s.cfg.inMemSize)
    (hbytes : bytesAt s.dec.inMem base len = some bs) (hst : parserMatches s.dec st) (ht : t < 2 ^ s.cfg.wTick) :
    ∃ d, processWindow base len t s = .next (s.setDec d)
      ∧ parseResult s.cfg d (parse s.cfg.capacity (if timedOut s.cfg t s.dec.lastT then .idle else st) bs)
      ∧ d.outMem = storeAll s.dec.outMem
          (parseStores s.cfg.capacity (if timedOut s.cfg t s.dec.lastT then .idle else st) bs)
      ∧ d.leftOff = (if d.leftLen = 0 then 0 else base + len - d.leftLen)
      ∧ (d.res = 0#32 → d.dstate = .idle → d.wp = if timedOut s.cfg t s.dec.lastT then 0 else s.dec.wp)
      ∧ d.lastT = t ∧ d.inMem = s.dec.inMem ∧ d.window = none := by
  have hwritten := allWritten_iff_bytesAt.mpr ⟨bs, hbytes⟩
  obtain ⟨d, hrun, hparse, hout, hlast, hmem, hclosed⟩ := processWindow_parses hinv.wp_le hin hbytes hleft hst
  have hd : d.Inv s.cfg := (processWindow_inv hvalid hinv hleft hin hwritten ht hrun).2
  have hends : 0 < d.leftLen → d.leftOff + d.leftLen = base + len := (processWindow_leftoverEnds hleft hrun).2
  refine ⟨d, hrun, hparse, hout, ?_, processWindow_idleWp hvalid hinv hleft hin hwritten ht hrun, hlast, hmem, hclosed⟩
  split
  · next hempty => exact hd.left_empty hempty
  · next hsome => exact Nat.eq_sub_of_add_eq (hends (Nat.pos_of_ne_zero hsome))

/-- Settles O26: PROCESS is a transaction on the chunk. -/
theorem processParsesTheChunk : Obligations.ProcessParsesTheChunk := by
  intro s len bs st hs hleft hlen hbytes hst
  have hrun := execProcess_of_duties hlen hleft (allWritten_iff_bytesAt.mpr ⟨bs, hbytes⟩)
  obtain ⟨d, hd⟩ := processWindow_refines hs.valid hs.dec hleft (base := 0) ((Nat.zero_add _).symm ▸ hlen) hbytes hst
    (tickNow_lt s)
  rw [Nat.zero_add, ← hrun] at hd
  exact ⟨d, hd⟩

/-- Settles O27: DRAIN is a transaction on the leftover, which is cleared before it. -/
theorem drainParsesTheLeftover : Obligations.DrainParsesTheLeftover := by
  intro s bs st hs hleft ⟨_, hbytes⟩ hst
  obtain ⟨d, hd⟩ := processWindow_refines (s := clearLeft s) hs.valid (clearLeft_inv (s := s) hs.dec) rfl hs.dec.left_le hbytes
    ((parserMatches_congr rfl rfl rfl).mpr hst) (tickNow_lt s)
  rw [← execDrain_of_leftover hleft] at hd
  exact ⟨d, hd⟩

/-! ## A run of delimiters -/

/-- The parser holds no payload byte. -/
def holdsNoPayload : Parser → Prop
  | .idle => True
  | .inFrame p => p = []
  | .escaped p => p = []

/-- In IDLE, or with WP = 0, the decoder holds a parser state without payload. -/
theorem parserMatches_of_no_payload {d : Decoder} (h : d.dstate = .idle ∨ d.wp = 0) :
    ∃ st, parserMatches d st ∧ holdsNoPayload st := by
  cases hd : d.dstate with
  | idle => exact ⟨.idle, hd, trivial⟩
  | inFrame =>
    have hwp : d.wp = 0 := h.resolve_left (by simp [hd])
    exact ⟨.inFrame [], ⟨hd, hwp, by rw [hwp]; rfl⟩, rfl⟩
  | inFrameEscaped =>
    have hwp : d.wp = 0 := h.resolve_left (by simp [hd])
    exact ⟨.escaped [], ⟨hd, hwp, by rw [hwp]; rfl⟩, rfl⟩

/-- A delimiter met without payload begins an empty frame and appends nothing (R80, R81). -/
theorem parse_delimiter (capacity : Nat) {st : Parser} (h : holdsNoPayload st) (bs : List Byte) :
    parse capacity st (startEnd :: bs) = parse capacity (.inFrame []) bs
      ∧ parseStores capacity st (startEnd :: bs) = parseStores capacity (.inFrame []) bs := by
  cases st with
  | idle => exact ⟨rfl, rfl⟩
  | inFrame p => cases h; exact ⟨rfl, rfl⟩
  | escaped p => cases h; exact ⟨rfl, rfl⟩

/-- One or more delimiters begin one empty frame and append nothing (R91). -/
theorem parse_delimiters (capacity n : Nat) : ∀ {st : Parser}, holdsNoPayload st →
    parse capacity st (List.replicate (n + 1) startEnd) = .more (.inFrame [])
      ∧ parseStores capacity st (List.replicate (n + 1) startEnd) = [] := by
  induction n with
  | zero => exact fun h => parse_delimiter capacity h []
  | succ n ih =>
    intro st h
    obtain ⟨hparse, hstores⟩ := parse_delimiter capacity h (List.replicate (n + 1) startEnd)
    obtain ⟨hmore, hnone⟩ := ih (st := .inFrame []) rfl
    exact ⟨hparse.trans hmore, hstores.trans hnone⟩

/-- Settles O32: the chunk is a run of delimiters, so the parse of O26 gives every field. -/
theorem delimitersCoalesce : Obligations.DelimitersCoalesce := by
  intro s len hs hleft hpos hlen hdelims hnone
  obtain ⟨st, hst, hempty⟩ := parserMatches_of_no_payload hnone
  have hbytes : bytesAt s.dec.inMem 0 len.toNat = some (List.replicate len.toNat startEnd) :=
    bytesAt_iff.mpr ⟨List.length_replicate, fun k hk => by
      rw [Nat.zero_add, List.getElem_replicate]
      exact hdelims k (by simpa using hk)⟩
  obtain ⟨d, hrun, hparse, hout, hoff, -, hlast, hmem, hclosed⟩ := processParsesTheChunk s len _ st hs hleft hlen hbytes hst
  have hstart : holdsNoPayload (if timedOut s.cfg (tickNow s) s.dec.lastT then .idle else st) := by
    split
    · trivial
    · exact hempty
  obtain ⟨n, hn⟩ := Nat.exists_eq_succ_of_ne_zero (Nat.ne_of_gt hpos)
  obtain ⟨hmore, hstores⟩ := parse_delimiters s.cfg.capacity n hstart
  rw [hn, hmore] at hparse
  rw [hn, hstores] at hout
  obtain ⟨⟨hstate, hwp, -⟩, ⟨hlen0, -⟩, hres⟩ := hparse
  have hoff0 : d.leftOff = 0 := hoff.trans (if_pos hlen0)
  have hd : Decoder.mk d.dstate d.wp d.leftOff d.leftLen d.lastT d.res d.inMem d.outMem d.window
      = ⟨.inFrame, 0, 0, 0, tickNow s, 0#32, s.dec.inMem, s.dec.outMem, none⟩ := by
    rw [hstate, hwp, hoff0, hlen0, hlast, hres, hmem, hout, hclosed]
    rfl
  exact hrun.trans (congrArg (fun d => Host.Outcome.next { s with dec := d }) hd)

/-! ## A timeout in IDLE -/

/-- The state with another WP. -/
def State.withWp (x : Nat) (s : State) : State := s.setDec { s.dec with wp := x }

/-- A turn of the loop in IDLE does not read WP: a delimiter writes it, any other turn keeps DSTATE and WP (R25, R80). -/
theorem windowStep_withWp {x : Nat} {w : Window} {s t : State} (hidle : s.dec.dstate = .idle) (ht : windowStep w s = .next t) :
    windowStep w (s.withWp x) = .next t ∨ t.dec.dstate = .idle ∧ windowStep w (s.withWp x) = .next (t.withWp x) := by
  by_cases hp : w.pos < w.len
  · have hturn (u : State) : windowStep w u = orFault (windowByte w u) fun b => interpretByte b u := if_pos hp
    rw [hturn] at ht ⊢
    obtain ⟨b, hb, ht⟩ := orFault_eq_next.mp ht
    have hb' : windowByte w (s.withWp x) = .ok b := hb
    rw [interpretByte_idle hidle] at ht
    rw [hb', orFault_ok, interpretByte_idle (s := s.withWp x) hidle]
    split at ht
    · next hdelim => exact .inl ((if_pos hdelim).trans ht)
    · next hother => cases ht; exact .inr ⟨hidle, if_neg hother⟩
  · have hturn (u : State) : windowStep w u = .next (endTransaction .needMoreData u) := if_neg hp
    rw [hturn] at ht ⊢
    cases ht
    exact .inr ⟨hidle, rfl⟩

/-- From IDLE the loop ends the same whatever WP is, but that WP shows where it never left IDLE. -/
theorem runWindow_withWp {x : Nat} (n : Nat) : ∀ {s t : State}, s.dec.dstate = .idle → runWindow n s = .next t →
    runWindow n (s.withWp x) = .next t ∨ t.dec.dstate = .idle ∧ runWindow n (s.withWp x) = .next (t.withWp x) := by
  induction n with
  | zero => intro s t hidle ht; cases ht; exact .inr ⟨hidle, rfl⟩
  | succ n ih =>
    intro s t hidle ht
    cases hw : s.dec.window with
    | none =>
      rw [runWindow_closed hw] at ht
      cases ht
      exact .inr ⟨hidle, runWindow_closed (s := s.withWp x) hw⟩
    | some w =>
      rw [runWindow_succ hw] at ht
      rw [runWindow_succ (s := s.withWp x) hw]
      obtain ⟨u, hu, ht⟩ := andThen_eq_next.mp ht
      rcases windowStep_withWp hidle hu with hsame | ⟨hidle', hdiffer⟩
      · rw [hsame]
        exact .inl ht
      · rw [hdiffer]
        exact ih hidle' ht

/-- In IDLE with no leftover the reset effect changes WP alone (R71). -/
theorem Decoder.resetEffect_of_idle {d : Decoder} (hidle : d.dstate = .idle) (hoff : d.leftOff = 0) (hlen : d.leftLen = 0) :
    d.resetEffect = { d with wp := 0 } := by
  cases d
  simp_all [Decoder.resetEffect]

/-- In IDLE with no leftover the timeout test before a transaction shows in WP alone (R77). -/
theorem openWindow_of_idle {s : State} (hidle : s.dec.dstate = .idle) (hoff : s.dec.leftOff = 0) (hlen : s.dec.leftLen = 0)
    (base len t : Nat) : ∃ x, openWindow base len t s = (s.setDec (s.dec.openAt base len t)).withWp x := by
  rw [openWindow_eq, Decoder.resetEffect_of_idle hidle hoff hlen]
  split
  · exact ⟨0, rfl⟩
  · exact ⟨s.dec.wp, rfl⟩

/-- In IDLE with no leftover a transaction does not depend on LAST_T, but that WP shows where it never left IDLE (R123). -/
theorem processWindow_setLastT {s t : State} (hidle : s.dec.dstate = .idle) (hoff : s.dec.leftOff = 0)
    (hlen : s.dec.leftLen = 0) {base len now : Nat} (x : Nat) (ht : processWindow base len now s = .next t) :
    ∃ u, processWindow base len now (s.setDec { s.dec with lastT := x }) = .next u ∧ u.withWp t.dec.wp = t
      ∧ (t.dec.dstate ≠ .idle → u = t) := by
  obtain ⟨y, hy⟩ := openWindow_of_idle hidle hoff hlen base len now
  obtain ⟨z, hz⟩ := openWindow_of_idle (s := s.setDec { s.dec with lastT := x }) hidle hoff hlen base len now
  have hopen : openWindow base len now (s.setDec { s.dec with lastT := x }) = (openWindow base len now s).withWp z := by
    rw [hz, hy]
    rfl
  have hidle' : (openWindow base len now s).dec.dstate = .idle := by rw [hy]; exact hidle
  rw [processWindow, hopen]
  rcases runWindow_withWp (len + 1) hidle' ht with hsame | ⟨hstays, hdiffer⟩
  · exact ⟨t, hsame, rfl, fun _ => rfl⟩
  · exact ⟨_, hdiffer, rfl, fun hleaves => absurd hstays hleaves⟩

/-- Settles O31: both commands are a transaction that begins in IDLE with no leftover. -/
theorem idleTimeoutIsInvisible : Obligations.IdleTimeoutIsInvisible := by
  rintro s t i x hs hidle (⟨len, rfl⟩ | ⟨rfl, hleft⟩) ht
  · obtain ⟨hlen, hleft, hwritten, hrun⟩ := execProcess_cases ht
    obtain ⟨u, hu, hwp⟩ := processWindow_setLastT hidle (hs.dec.left_empty hleft) hleft x hrun
    exact ⟨u, (execProcess_of_duties (s := s.setDec { s.dec with lastT := x }) hlen hleft hwritten).trans hu, hwp⟩
  · obtain ⟨u, hu, hwp⟩ := processWindow_setLastT (s := clearLeft s) hidle rfl rfl x
      ((execDrain_of_leftover hleft).symm.trans ht)
    exact ⟨u, (execDrain_of_leftover (s := s.setDec { s.dec with lastT := x }) hleft).trans hu, hwp⟩

/-! ## The host's loop, turn by turn -/

theorem nextOf_eq_some {o : StepResult} {s : State} : nextOf o = some s ↔ o = .next s := by
  cases o <;> simp [nextOf]

/-- The host stops draining at a result of 0 (R89). -/
theorem drainLoop_of_zero {s : State} (hzero : s.dec.res = 0#32) (ts : List Nat) : drainLoop ts s = some ([], ts, s) := by
  cases ts <;> exact if_pos hzero

/-- At a result that is not 0 the host drains, with the next tick, and goes on (R89). -/
theorem drainLoop_of_result {s : State} (hne : s.dec.res ≠ 0#32) {ts : List Nat} {r : List HostEvent × List Nat × State} :
    drainLoop ts s = some r ↔ ∃ t rest, ts = t :: rest
      ∧ (s.dec.leftLen ≠ 0 → timedOut s.cfg (tickNow (s.setTick t)) s.dec.lastT = false)
      ∧ ∃ u r', exec .drain (s.setTick t) = .next u ∧ drainLoop rest u = some r' ∧ (eventOf u ++ r'.1, r'.2) = r := by
  cases ts with
  | nil => simp [drainLoop, hne]
  | cons t rest =>
    rw [drainLoop, if_neg hne]
    constructor
    · intro h
      split at h
      · cases h
      next hin =>
      split at h
      · cases h
      next u hu =>
      split at h
      · cases h
      next es ts' v hv =>
      exact ⟨t, rest, rfl, fun hleft => by simpa [hleft] using hin, u, _, nextOf_eq_some.mp hu, hv, Option.some.inj h⟩
    · rintro ⟨_, _, ⟨⟩, hin, u, r', hu, hr, rfl⟩
      rw [if_neg (fun h => by simp [hin h.1] at h), nextOf_eq_some.mpr hu]
      simp only [hr]

/-- A chunk is staged, processed with the next tick and drained, and the host goes on to the next (R89). -/
theorem hostLoop_cons {c : List Byte} {cs : List (List Byte)} {ts : List Nat} {s : State} {r : List HostEvent × State} :
    hostLoop (c :: cs) ts s = some r ↔ ∃ t rest u v q r', ts = t :: rest ∧ stageChunk c 0 s = some u
      ∧ timedOut u.cfg (tickNow (u.setTick t)) u.dec.lastT = false
      ∧ exec (.process (BitVec.ofNat 24 c.length)) (u.setTick t) = .next v
      ∧ drainLoop rest v = some q ∧ hostLoop cs q.2.1 q.2.2 = some r' ∧ (eventOf v ++ q.1 ++ r'.1, r'.2) = r := by
  cases ts with
  | nil => simp [hostLoop]
  | cons t rest =>
    rw [hostLoop]
    constructor
    · intro h
      split at h
      · cases h
      next u hu =>
      split at h
      · cases h
      next hin =>
      split at h
      · cases h
      next v hv =>
      split at h
      · cases h
      next es ts' x hx =>
      split at h
      · cases h
      next es' y hy =>
      exact ⟨t, rest, u, v, _, _, rfl, hu, by simpa using hin, nextOf_eq_some.mp hv, hx, hy, Option.some.inj h⟩
    · rintro ⟨_, _, u, v, q, r', ⟨⟩, hu, hin, hv, hq, hr, rfl⟩
      rw [hu]
      simp only [hin, nextOf_eq_some.mpr hv, hq, hr]
      rfl

/-! ## The events of the host's loop -/

/-- Between two chunks: no transaction open, no leftover, and the decoder holds what the parser holds. -/
structure RestsIn (s : State) (st : Parser) : Prop where
  inv : s.Inv
  closed : betweenCommands s
  no_left : s.dec.leftLen = 0
  holds : parserMatches s.dec st

/-- The frame state a decoder of the invariant holds (R23, R44). -/
theorem parserMatches_exists {c : Config} {d : Decoder} (h : d.Inv c) : ∃ st, parserMatches d st := by
  obtain ⟨p, hp⟩ := allWritten_iff_bytesAt.mp h.out_written
  have hlen : d.wp = p.length := (bytesAt_length hp).symm
  cases hd : d.dstate with
  | idle => exact ⟨.idle, hd⟩
  | inFrame => exact ⟨.inFrame p, hd, hlen, hp⟩
  | inFrameEscaped => exact ⟨.escaped p, hd, hlen, hp⟩

theorem State.Inv.setTick {s : State} (h : s.Inv) (t : Nat) : (s.setTick t).Inv := ⟨h.valid, h.dec, h.enc⟩

theorem Delivers.setTick {s : State} {st : Parser} {es : List HostEvent} (h : Delivers s st es) (t : Nat) :
    Delivers (s.setTick t) st es :=
  ⟨h.inv.setTick t, h.closed, h.pending⟩

/-- A result of 0 leaves nothing to come (R27). -/
theorem Delivers.rests {s : State} {st : Parser} {es : List HostEvent} (h : Delivers s st es) (hzero : s.dec.res = 0#32) :
    es = [] ∧ RestsIn s st := by
  rcases h.pending with ⟨-, hleft, hst, hes⟩ | ⟨hne, -⟩
  · exact ⟨hes, h.inv, h.closed, hleft, hst⟩
  · exact absurd hzero hne

/-- One DRAIN of the host's loop: the next event is delivered, and LAST_T stays or takes the tick given. -/
theorem Delivers.drain {s : State} {st : Parser} {es : List HostEvent} (h : Delivers s st es) (hne : s.dec.res ≠ 0#32) {t : Nat}
    (hin : s.dec.leftLen ≠ 0 → timedOut s.cfg (tickNow (s.setTick t)) s.dec.lastT = false) :
    ∃ u es', exec .drain (s.setTick t) = .next u ∧ es = eventOf u ++ es' ∧ Delivers u st es' ∧ u.cfg = s.cfg
      ∧ (u.dec.res ≠ 0#32 → u.dec.leftLen < s.dec.leftLen)
      ∧ (u.dec.lastT = s.dec.lastT ∨ u.dec.lastT = t % 2 ^ s.cfg.wTick) := by
  obtain ⟨u, es', hrun, hu, hes, hdelivers, hless, hlast⟩ := drain_delivers (h.setTick t) hne hin
  refine ⟨u, es', hrun, hes, hdelivers, by rw [hu]; rfl, hless, ?_⟩
  split at hlast
  · exact .inl hlast
  · exact .inr hlast

/-- Draining to a result of 0 shows all events still to come, and leaves none (R89). -/
theorem drainLoop_delivers {st : Parser} (ts : List Nat) : ∀ {s : State} {es : List HostEvent}
    {r : List HostEvent × List Nat × State}, Delivers s st es → drainLoop ts s = some r →
    r.1 = es ∧ RestsIn r.2.2 st ∧ r.2.2.cfg = s.cfg := by
  have ends {ts : List Nat} {s : State} {es : List HostEvent} {r : List HostEvent × List Nat × State} (h : Delivers s st es)
      (hzero : s.dec.res = 0#32) (hr : drainLoop ts s = some r) : r.1 = es ∧ RestsIn r.2.2 st ∧ r.2.2.cfg = s.cfg := by
    obtain ⟨rfl, hrests⟩ := h.rests hzero
    cases (drainLoop_of_zero hzero ts).symm.trans hr
    exact ⟨rfl, hrests, rfl⟩
  induction ts with
  | nil =>
    intro s es r h hr
    by_cases hzero : s.dec.res = 0#32
    · exact ends h hzero hr
    · obtain ⟨_, _, hnil, -⟩ := (drainLoop_of_result hzero).mp hr
      cases hnil
  | cons t rest ih =>
    intro s es r h hr
    by_cases hzero : s.dec.res = 0#32
    · exact ends h hzero hr
    · obtain ⟨_, _, ⟨⟩, hin, u, r', hu, hr', rfl⟩ := (drainLoop_of_result hzero).mp hr
      obtain ⟨_, es', hrun, rfl, hdelivers, hcfg, -, -⟩ := h.drain hzero hin
      cases hu.symm.trans hrun
      obtain ⟨rfl, hrests, hcfg'⟩ := ih hdelivers hr'
      exact ⟨rfl, hrests, hcfg'.trans hcfg⟩

/-- A chunk that was staged lies within IN_MEM (R41). -/
theorem stageChunk_fits (bs : List Byte) : ∀ {a : Nat} {s u : State}, a ≤ s.cfg.inMemSize → stageChunk bs a s = some u →
    a + bs.length ≤ s.cfg.inMemSize := by
  induction bs with
  | nil => exact fun ha _ => ha
  | cons b bs ih =>
    intro a s u ha h
    rw [stageChunk] at h
    split at h
    next t ht =>
      obtain ⟨hroom, -, ht⟩ := hostWriteIn_cases (nextOf_eq_some.mp ht)
      have hcfg : t.cfg = s.cfg := by rw [ht]; rfl
      have hrest := ih (s := t) (by rwa [hcfg]) h
      rwa [hcfg, Nat.add_assoc, Nat.add_comm 1] at hrest
    next => cases h

/-- A chunk that fits IN_MEM is staged, and nothing but IN_MEM changes (R41). -/
theorem RestsIn.stage {s : State} {st : Parser} (h : RestsIn s st) {c : List Byte} (hfits : c.length ≤ s.cfg.inMemSize) :
    ∃ u, stageChunk c 0 s = some u ∧ RestsIn u st ∧ bytesAt u.dec.inMem 0 c.length = some c ∧ u.cfg = s.cfg
      ∧ u.dec.lastT = s.dec.lastT := by
  obtain ⟨m, hrun, hinv, hbytes, -⟩ := stageChunk_spec c (a := 0) h.inv h.no_left h.closed ((Nat.zero_add _).symm ▸ hfits)
  exact ⟨_, hrun, ⟨hinv, h.closed, h.no_left, (parserMatches_congr rfl rfl rfl).mpr h.holds⟩, hbytes, rfl, rfl⟩

/-- One PROCESS of the host's loop: the chunk's first event is delivered, and LAST_T takes the tick given. -/
theorem RestsIn.process {s : State} {st : Parser} (h : RestsIn s st) {c : List Byte} (hfits : c.length ≤ s.cfg.inMemSize)
    (hbytes : bytesAt s.dec.inMem 0 c.length = some c) {t : Nat}
    (hin : timedOut s.cfg (tickNow (s.setTick t)) s.dec.lastT = false) :
    ∃ v es, exec (.process (BitVec.ofNat 24 c.length)) (s.setTick t) = .next v
      ∧ (feedAll s.cfg st c).2 = eventOf v ++ es ∧ Delivers v (feedAll s.cfg st c).1 es ∧ v.cfg = s.cfg
      ∧ (v.dec.res ≠ 0#32 → v.dec.leftLen < c.length) ∧ v.dec.lastT = t % 2 ^ s.cfg.wTick := by
  have hlen : (BitVec.ofNat 24 c.length).toNat = c.length := by
    obtain ⟨-, -, -, -, hsize, -⟩ := configValid_ranges h.inv.valid
    rw [BitVec.toNat_ofNat]
    exact Nat.mod_eq_of_lt (by omega)
  obtain ⟨v, es, hrun, hv, hevents, hdelivers, hless, hlast⟩ := process_delivers (s := s.setTick t)
    (len := BitVec.ofNat 24 c.length) (h.inv.setTick t) h.no_left (hlen.le.trans hfits) (by rw [hlen]; exact hbytes) h.holds hin
  exact ⟨v, es, hrun, hevents, hdelivers, by rw [hv]; rfl, hless, hlast⟩

/-- The host's loop shows the events of the byte stream, wherever the chunks begin, and ends where the stream ends (R90). -/
theorem hostLoop_feeds (chunks : List (List Byte)) : ∀ {s : State} {st : Parser} {ts : List Nat} {r : List HostEvent × State},
    RestsIn s st → hostLoop chunks ts s = some r →
    r.1 = (feedAll s.cfg st chunks.flatten).2 ∧ RestsIn r.2 (feedAll s.cfg st chunks.flatten).1 := by
  induction chunks with
  | nil => intro s st ts r h hr; cases hr; exact ⟨rfl, h⟩
  | cons c cs ih =>
    intro s st ts r h hr
    obtain ⟨t, rest, u, v, q, r', rfl, hu, hin, hv, hq, hr', rfl⟩ := hostLoop_cons.mp hr
    have hfits : c.length ≤ s.cfg.inMemSize := Nat.zero_add c.length ▸ stageChunk_fits c (Nat.zero_le _) hu
    obtain ⟨_, hu', hstaged, hbytes, hcu, -⟩ := h.stage hfits
    cases hu.symm.trans hu'
    obtain ⟨_, es, hv', hevents, hdelivers, hcv, -, -⟩ := hstaged.process (hcu ▸ hfits) hbytes hin
    cases hv.symm.trans hv'
    obtain ⟨rfl, hrests, hcq⟩ := drainLoop_delivers rest hdelivers hq
    obtain ⟨hes', hrests'⟩ := ih hrests hr'
    rw [hcq, hcv, hcu] at hes' hrests'
    rw [hcu] at hevents
    rw [List.flatten_cons, feedAll_append]
    exact ⟨by rw [hes', hevents], hrests'⟩

/-- Settles O34: either chunking shows the events of the one byte stream. -/
theorem chunkBoundariesDoNotMatter : Obligations.ChunkBoundariesDoNotMatter := by
  intro s t u chunks chunks' ts ts' es es' hs hclosed hleft hstream hrun hrun'
  obtain ⟨st, hst⟩ := parserMatches_exists hs.dec
  have hrests : RestsIn s st := ⟨hs, hclosed, hleft, hst⟩
  have hes := (hostLoop_feeds chunks hrests hrun).1
  have hes' := (hostLoop_feeds chunks' hrests hrun').1
  rw [← hstream] at hes'
  exact hes.trans hes'.symm

/-! ## The host's loop ends -/

/-- Each tick is within the timeout of LAST_T and of every earlier one. -/
def InTime (s : State) (ts : List Nat) : Prop :=
  (s.dec.lastT :: ts).Pairwise
    (fun earlier later => timedOut s.cfg (later % 2 ^ s.cfg.wTick) (earlier % 2 ^ s.cfg.wTick) = false)

/-- The next tick fires no timeout. -/
theorem InTime.now {s : State} {t : Nat} {rest : List Nat} (h : InTime s (t :: rest)) (hlast : s.dec.lastT < 2 ^ s.cfg.wTick) :
    timedOut s.cfg (tickNow (s.setTick t)) s.dec.lastT = false := by
  have hnow := (List.pairwise_cons.mp h).1 t List.mem_cons_self
  rwa [Nat.mod_eq_of_lt hlast] at hnow

/-- After a command at the next tick the later ticks are still in time. -/
theorem InTime.next {s u : State} {t : Nat} {rest : List Nat} (h : InTime s (t :: rest)) (hcfg : u.cfg = s.cfg)
    (hlast : u.dec.lastT = s.dec.lastT ∨ u.dec.lastT = t % 2 ^ s.cfg.wTick) : InTime u rest := by
  obtain ⟨hfirst, htail⟩ := List.pairwise_cons.mp h
  obtain ⟨hsecond, hrest⟩ := List.pairwise_cons.mp htail
  unfold InTime
  rw [hcfg]
  refine List.pairwise_cons.mpr ⟨fun later hlater => ?_, hrest⟩
  rcases hlast with hkept | htaken
  · rw [hkept]
    exact hfirst later (List.mem_cons_of_mem t hlater)
  · rw [htaken, Nat.mod_mod]
    exact hsecond later hlater

/-- Draining ends within as many ticks as there are bytes left and one more: each DRAIN but the last shortens the leftover (R88). -/
theorem drainLoop_ends {st : Parser} (n : Nat) : ∀ {s : State} {es : List HostEvent} {ts : List Nat}, Delivers s st es →
    InTime s ts → (s.dec.res ≠ 0#32 → s.dec.leftLen < n) → n ≤ ts.length →
    ∃ r, drainLoop ts s = some r ∧ InTime r.2.2 r.2.1 ∧ ts.length ≤ r.2.1.length + n := by
  induction n with
  | zero =>
    intro s es ts _ htime hbound _
    have hzero : s.dec.res = 0#32 := by_contra fun hne => Nat.not_lt_zero _ (hbound hne)
    exact ⟨_, drainLoop_of_zero hzero ts, htime, Nat.le_refl _⟩
  | succ n ih =>
    intro s es ts h htime hbound henough
    by_cases hzero : s.dec.res = 0#32
    · exact ⟨_, drainLoop_of_zero hzero ts, htime, Nat.le_add_right _ _⟩
    · obtain ⟨t, rest, rfl⟩ := List.exists_cons_of_length_pos (Nat.lt_of_lt_of_le (Nat.succ_pos n) henough)
      have hin : s.dec.leftLen ≠ 0 → timedOut s.cfg (tickNow (s.setTick t)) s.dec.lastT = false :=
        fun _ => htime.now h.inv.dec.lastT_lt
      obtain ⟨u, es', hrun, -, hdelivers, hcfg, hless, hlast⟩ := h.drain hzero hin
      have hbound' : u.dec.res ≠ 0#32 → u.dec.leftLen < n := fun hne =>
        Nat.lt_of_lt_of_le (hless hne) (Nat.le_of_lt_succ (hbound hzero))
      obtain ⟨r, hr, htime', hused⟩ := ih hdelivers (htime.next hcfg hlast) hbound' (Nat.le_of_succ_le_succ henough)
      exact ⟨_, (drainLoop_of_result hzero).mpr ⟨t, rest, rfl, hin, u, r, hrun, hr, rfl⟩, htime', Nat.succ_le_succ hused⟩

/-- The host's loop ends within one tick for each chunk and one for each byte (R89). -/
theorem hostLoop_ends (chunks : List (List Byte)) : ∀ {s : State} {st : Parser} {ts : List Nat}, RestsIn s st →
    (∀ c ∈ chunks, c.length ≤ s.cfg.inMemSize) → InTime s ts → chunks.length + chunks.flatten.length ≤ ts.length →
    ∃ r, hostLoop chunks ts s = some r := by
  induction chunks with
  | nil => exact fun _ _ _ _ => ⟨_, rfl⟩
  | cons c cs ih =>
    intro s st ts h hfits htime henough
    simp only [List.length_cons, List.flatten_cons, List.length_append] at henough
    obtain ⟨t, rest, rfl⟩ := List.exists_cons_of_length_pos (show 0 < ts.length by omega)
    rw [List.length_cons] at henough
    obtain ⟨hfit, hfits'⟩ := List.forall_mem_cons.mp hfits
    obtain ⟨u, hu, hstaged, hbytes, hcu, hlu⟩ := h.stage hfit
    have htimeu : InTime u (t :: rest) := by
      unfold InTime
      rwa [hcu, hlu]
    have hin : timedOut u.cfg (tickNow (u.setTick t)) u.dec.lastT = false := htimeu.now hstaged.inv.dec.lastT_lt
    obtain ⟨v, es, hv, -, hdelivers, hcv, hless, hlv⟩ := hstaged.process (hcu ▸ hfit) hbytes hin
    have htimev : InTime v rest := htimeu.next hcv (.inr hlv)
    obtain ⟨q, hq, htimeq, hused⟩ := drainLoop_ends c.length hdelivers htimev hless (by omega)
    obtain ⟨-, hrests, hcq⟩ := drainLoop_delivers rest hdelivers hq
    have hcfg : q.2.2.cfg = s.cfg := hcq.trans (hcv.trans hcu)
    obtain ⟨r, hr⟩ := ih hrests (hcfg.symm ▸ hfits') htimeq (by omega)
    exact ⟨_, hostLoop_cons.mpr ⟨t, rest, u, v, q, r, rfl, hu, hin, hv, hq, hr, rfl⟩⟩

/-- Settles O33: the loop ends, and ends without a leftover as every run of it does. -/
theorem hostLoopEnds : Obligations.HostLoopEnds := by
  intro s chunks ts hs hclosed hleft hfits henough htime
  obtain ⟨st, hst⟩ := parserMatches_exists hs.dec
  have hrests : RestsIn s st := ⟨hs, hclosed, hleft, hst⟩
  obtain ⟨⟨es, t⟩, hrun⟩ := hostLoop_ends chunks hrests hfits htime henough
  exact ⟨es, t, hrun, (hostLoop_feeds chunks hrests hrun).2.no_left⟩

end Sys2Proof.Machine
end

section
/-! The encoder family (41_encoder.md): reserved and untimely command words (R63, R101), the tests of ENCODE (R93), the cut of a frame
into chunks (R105), an ENCODE from its command write to its last answer, with or without other inputs between (R94 to R102, R104),
and the round trip through the decoder (R106). -/

namespace Sys2Proof.Machine

/-! ## Decoding a frame -/

/-- A replaced byte fed to a parser in a frame is undone: it appends what it stands for (R55, R83, R85). -/
theorem feedAll_escape (c : Config) (p : List Byte) (b : Byte) : feedAll c (.inFrame p) (escape b) = feedAppend c p b := by
  by_cases hdelim : b = startEnd
  · simp [escape, feedAll, feed, hdelim]
  · by_cases hesc : b = escapeByte
    · simp [escape, feedAll, feed, hesc]
    · simp [escape, feedAll, feed, hdelim, hesc]

/-- No delimiter stands inside a frame (R55). -/
theorem startEnd_notMem_escape (b : Byte) : startEnd ∉ escape b := by
  by_cases hdelim : b = startEnd
  · simp [escape, hdelim, escapeByte_ne_startEnd.symm, escapedStartEnd_ne_startEnd.symm]
  · by_cases hesc : b = escapeByte
    · simp [escape, hesc, escapeByte_ne_startEnd.symm, escapedEscape_ne_startEnd.symm]
    · simp [escape, hdelim, hesc, Ne.symm hdelim]

/-- In IDLE bytes without a delimiter are skipped (R80). -/
theorem feedAll_idle (c : Config) {bs : List Byte} (h : startEnd ∉ bs) : feedAll c .idle bs = (.idle, []) := by
  induction bs with
  | nil => rfl
  | cons b bs ih =>
    rw [List.mem_cons, not_or] at h
    obtain ⟨hb, hbs⟩ := h
    simp only [feedAll, feed, if_neg (Ne.symm hb), ih hbs, List.append_nil]

/-- An escaped payload that fits is appended byte by byte, without an event. -/
theorem feedAll_payload_fits (c : Config) (payload : List Byte) : ∀ {p : List Byte}, p.length + payload.length ≤ c.capacity →
    feedAll c (.inFrame p) (payload.flatMap escape) = (.inFrame (p ++ payload), []) := by
  induction payload with
  | nil => intro p _; simp [feedAll]
  | cons b bs ih =>
    intro p hfits
    rw [List.length_cons] at hfits
    have hroom : p.length ≠ c.capacity := by omega
    rw [List.flatMap_cons, feedAll_append, feedAll_escape, feedAppend, if_neg hroom, ih (by simp; omega)]
    simp

/-- An escaped payload that does not fit gives Overflow, once, and its other bytes are skipped (R86, R80). -/
theorem feedAll_payload_overflows (c : Config) (payload : List Byte) : ∀ {p : List Byte}, p.length ≤ c.capacity →
    c.capacity < p.length + payload.length →
    feedAll c (.inFrame p) (payload.flatMap escape) = (.idle, [errorEvent c.errOverflow]) := by
  induction payload with
  | nil => exact fun hp hover => absurd hover (Nat.not_lt.mpr hp)
  | cons b bs ih =>
    intro p hp hover
    rw [List.length_cons] at hover
    rw [List.flatMap_cons, feedAll_append, feedAll_escape, feedAppend]
    by_cases hfull : p.length = c.capacity
    · have hskip : startEnd ∉ bs.flatMap escape := by simp [startEnd_notMem_escape]
      rw [if_pos hfull, feedAll_idle c hskip]
      rfl
    · rw [if_neg hfull, ih (by simp; omega) (by simp; omega)]
      rfl

/-- The opening delimiter of a frame, met without payload, begins the frame (R80, R81). -/
theorem feed_delimiter (c : Config) {st : Parser} (h : holdsNoPayload st) : feed c st startEnd = (.inFrame [], []) := by
  cases st with
  | idle => rfl
  | inFrame p => cases h; rfl
  | escaped p => cases h; rfl

/-- A frame fed to a parser without payload: the escaped payload, and then the closing delimiter. -/
theorem feedAll_frame (c : Config) {st : Parser} (h : holdsNoPayload st) (payload : List Byte) :
    feedAll c st (frame payload)
      = ((feed c (feedAll c (.inFrame []) (payload.flatMap escape)).1 startEnd).1,
        (feedAll c (.inFrame []) (payload.flatMap escape)).2
          ++ (feed c (feedAll c (.inFrame []) (payload.flatMap escape)).1 startEnd).2) := by
  rw [frame, feedAll_append, feedAll_append]
  simp [feedAll, feed_delimiter c h]

/-- A frame of a payload that fits gives its payload, but an empty one restarts the frame (R81, R106). -/
theorem feedAll_frame_fits (c : Config) {st : Parser} (h : holdsNoPayload st) {payload : List Byte}
    (hfits : payload.length ≤ c.capacity) : feedAll c st (frame payload) = feedEnd payload := by
  rw [feedAll_frame c h, feedAll_payload_fits c payload (by simpa using hfits)]
  simp [feed]

/-- A frame of a payload that does not fit gives Overflow and nothing else (R106). -/
theorem feedAll_frame_overflows (c : Config) {st : Parser} (h : holdsNoPayload st) {payload : List Byte}
    (hover : c.capacity < payload.length) : (feedAll c st (frame payload)).2 = [errorEvent c.errOverflow] := by
  rw [feedAll_frame c h, feedAll_payload_overflows c payload (Nat.zero_le _) (by simpa using hover)]
  rfl

/-- Settles O35: the host's loop shows what the frame gives when fed to a parser without payload, and ends as that parser ends. -/
theorem decodingAnEncodedPayload : Obligations.DecodingAnEncodedPayload := by
  intro s t payload chunks ts es hs hclosed hleft hnone hstream hrun
  obtain ⟨st, hst, hempty⟩ := parserMatches_of_no_payload hnone
  obtain ⟨hes, hrests⟩ := hostLoop_feeds chunks ⟨hs, hclosed, hleft, hst⟩ hrun
  rw [hstream] at hes hrests
  refine ⟨hrests.no_left, fun hpos hfits => ?_, fun hnil => ?_, fun hover => ?_⟩
  · have hne : payload ≠ [] := List.length_pos_iff.mp hpos
    rw [feedAll_frame_fits s.cfg hempty hfits, feedEnd, if_neg hne] at hes hrests
    exact ⟨hes, hrests.holds⟩
  · subst hnil
    rw [feedAll_frame_fits s.cfg hempty (Nat.zero_le _)] at hes hrests
    obtain ⟨hstate, hwp, -⟩ := hrests.holds
    exact ⟨hes, hstate, hwp⟩
  · rw [feedAll_frame_overflows s.cfg hempty hover] at hes
    exact hes

/-! ## A waiting ENCODE and its answers -/

/-- A running ENCODE between two commands: it waits in a flush, and these chunks are to come once that flush succeeds (R95, R99). -/
structure Sending (s : State) (cs : List (List Byte)) : Prop where
  inv : s.Inv
  closed : betweenCommands s
  busy : s.enc.busy = true
  to_come : chunksAfter s.cfg s.enc cs

/-- An encoder with chunks to come waits. -/
theorem wait_of_chunksAfter {c : Config} {e : Encoder} {cs : List (List Byte)} (h : chunksAfter c e cs) : e.wait ≠ none := by
  intro hnone
  rw [chunksAfter, hnone] at h
  exact h

/-- Every running ENCODE of the invariant is one that sends the chunks to come. -/
theorem Sending.of_busy {s : State} (hs : s.Inv) (hclosed : betweenCommands s) (hbusy : s.enc.busy = true) :
    Sending s (chunksToCome s.cfg s.enc) := by
  obtain ⟨cs, hcs⟩ := hs.enc.chunksAfter_exists hbusy
  rw [chunksToCome_of_after hcs]
  exact ⟨hs, hclosed, hbusy, hcs⟩

/-- `ok` to the waiting flush (R95, log 7). -/
theorem sinkAnswer_ok {s : State} {p : FlushPoint} (hp : s.enc.wait = some p) :
    sinkAnswer s.sinkOut.length .ok s = afterFlush p s := by
  unfold sinkAnswer
  rw [hp]
  exact if_pos rfl

/-- `fail(v)` to the waiting flush (R100, log 7). -/
theorem sinkAnswer_fail {s : State} {p : FlushPoint} (hp : s.enc.wait = some p) (v : Nat) :
    sinkAnswer s.sinkOut.length (.fail v) s = .next (failEncode (errorValue s.cfg v) s) := by
  unfold sinkAnswer
  rw [hp]
  exact if_pos rfl

/-- An answer to another flush is ignored (log 7). -/
theorem sinkAnswer_of_other {s : State} {k : Nat} (hk : k ≠ s.sinkOut.length) (a : SinkAnswer) : sinkAnswer k a s = .next s := by
  unfold sinkAnswer
  split
  · rfl
  · exact if_neg hk

/-- The state after an ENCODE took its inputs up to `rest` and presented these chunks, with nothing else outside the encoder moved. -/
def State.presented (s : State) (rest : List Input) (e : Encoder) (cs : List (List Byte)) : State :=
  { s with enc := e, inputs := rest, sinkOut := s.sinkOut ++ cs }

@[simp] theorem State.presented_sinkOut (s : State) (rest : List Input) (e : Encoder) (cs : List (List Byte)) :
    (s.presented rest e cs).sinkOut = s.sinkOut ++ cs := rfl

theorem State.presented_nothing {s : State} {rest : List Input} (hi : s.inputs = rest) : s.presented rest s.enc [] = s := by
  rw [State.presented, List.append_nil, ← hi]

theorem State.presented_presented (s : State) (rest rest' : List Input) (e e' : Encoder) (cs cs' : List (List Byte)) :
    (s.presented rest e cs).presented rest' e' cs' = s.presented rest' e' (cs ++ cs') := by
  simp only [State.presented, List.append_assoc]

theorem EncodeKeeps.of_resume {e f : Encoder} (h : EncodeKeeps e.resume f) : EncodeKeeps e f :=
  ⟨h.busy, h.res, h.sendErr, h.len, h.payMem⟩

/-- `ok` with chunks to come: the next of them is presented and stands in SCRATCH (R95, R99). -/
theorem Sending.step_ok {s : State} {c : List Byte} {cs : List (List Byte)} (h : Sending s (c :: cs)) {rest : List Input}
    (hi : s.inputs = .sinkAnswer s.sinkOut.length .ok :: rest) :
    ∃ e, step s = .next (s.presented rest e [c]) ∧ Sending (s.presented rest e [c]) cs ∧ ScratchHolds s.cfg e c
      ∧ EncodeKeeps s.enc e := by
  obtain ⟨p, hp⟩ := Option.ne_none_iff_exists'.mp (wait_of_chunksAfter h.to_come)
  obtain ⟨e, hrun, hpres⟩ := afterFlush_spec (s := s.setInputs rest) hp h.to_come (three_le_chunkSize h.inv.valid)
    h.inv.enc.len_le h.inv.enc.ej_le
  have hanswer : sinkAnswer s.sinkOut.length .ok (s.setInputs rest) = .next (s.presented rest e [c]) :=
    (sinkAnswer_ok (s := s.setInputs rest) hp).trans hrun
  have hstep := step_of_done h.inv.valid h.closed hi (congrArg Next.done hanswer)
  have hkeeps : EncodeKeeps s.enc e := .of_resume hpres.keeps
  exact ⟨e, hstep, ⟨stepKeepsInvariant _ _ h.inv hstep, h.closed, hkeeps.busy.trans h.busy, hpres.after⟩, hpres.holds, hkeeps⟩

/-- `ok` with no chunk to come: the ENCODE ends Ok (R95). -/
theorem Sending.step_last {s : State} (h : Sending s []) {rest : List Input}
    (hi : s.inputs = .sinkAnswer s.sinkOut.length .ok :: rest) :
    step s = .next { s with inputs := rest, enc := s.enc.finishOk } :=
  step_of_done h.inv.valid h.closed hi
    (congrArg Next.done (sinkAnswer_ok (s := s.setInputs rest) (wait_of_chunksAfter_nil h.to_come)))

/-- `fail(v)`: the ENCODE ends with the sink's value (R100). -/
theorem Sending.step_fail {s : State} {cs : List (List Byte)} (h : Sending s cs) {v : Nat} {rest : List Input}
    (hi : s.inputs = .sinkAnswer s.sinkOut.length (.fail v) :: rest) :
    step s = .next { s with inputs := rest, enc := s.enc.finishErr (v % 2 ^ s.cfg.wErr), draws := s.draws + 1 } := by
  obtain ⟨p, hp⟩ := Option.ne_none_iff_exists'.mp (wait_of_chunksAfter h.to_come)
  exact step_of_done h.inv.valid h.closed hi (congrArg Next.done (sinkAnswer_fail (s := s.setInputs rest) hp v))

/-- Settles O58: a running ENCODE sends the chunks to come, and each of the three answers has its lemma. -/
theorem sinkAnswerMovesTheEncodeOn : Obligations.SinkAnswerMovesTheEncodeOn := by
  intro s rest hs hclosed hbusy
  have hsending := Sending.of_busy hs hclosed hbusy
  refine ⟨fun hi => ⟨fun chunk later hcs => ?_, fun hcs => ?_⟩, fun v hi => hsending.step_fail hi⟩
  · rw [hcs] at hsending
    obtain ⟨e, hstep, hnext, hholds, hkeeps⟩ := hsending.step_ok hi
    exact ⟨e, hstep, hnext.busy, chunksToCome_of_after hnext.to_come, hholds.count, hholds.bytes, hkeeps.len, hkeeps.payMem,
      hkeeps.res, hkeeps.sendErr⟩
  · rw [hcs] at hsending
    exact hsending.step_last hi

/-! ## The start of an ENCODE -/

/-- Settles O37: the first stretch is `execEncode_spec`, which begins with EPOS at 0. -/
theorem encodePresentsTheFirstChunk : Obligations.EncodePresentsTheFirstChunk := by
  intro s len payload hvalid hidle hfits hpayload
  obtain ⟨e, chunk, cs, hrun, hcut, hpres⟩ := execEncode_spec (three_le_chunkSize hvalid) hidle hfits hpayload
  have hbeyond := hpres.scratch.beyond
  refine ⟨e, chunk, hrun, ?_, hpres.keeps.busy, wait_of_chunksAfter hpres.after, hpres.keeps.len, hpres.holds.count,
    hpres.holds.bytes, fun a ha => hbeyond a (Nat.zero_le a) ha, hpres.keeps.payMem, hpres.keeps.res, hpres.keeps.sendErr⟩
  rw [hcut]
  exact congrArg _ (chunksToCome_of_after hpres.after).symm

/-- An idle encoder with the payload of an ENCODE written: the host's duties at ENCODE (R93, R101). -/
structure ReadyFor (s : State) (len : Len) (payload : List Byte) : Prop where
  inv : s.Inv
  closed : betweenCommands s
  idle : s.enc.busy = false
  fits : len.toNat ≤ s.cfg.payMemSize
  written : bytesAt s.enc.payMem 0 len.toNat = some payload

/-- A step between two commands on an input that issues an instruction runs it. -/
theorem step_of_run {s u : State} {i : Input} {rest : List Input} {j : Instr} (hc : configValid s.cfg = true)
    (hb : betweenCommands s) (hi : s.inputs = i :: rest) (h : takeInput i (s.setInputs rest) = .run j u) : step s = exec j u := by
  rw [step_of_input hc hb hi, h]

/-- A word with ENCODE's OP issues ENCODE (R35, R61). -/
theorem writeEncCmd_encode {w : Word} (h : opField w = 0x10#8) (s : State) : writeEncCmd w s = .run (.encode (lenField w)) s := by
  rw [writeEncCmd, decode, decodeEncCmd, if_pos h]

/-- Any other word is reserved, and its write stops (R63, R101). -/
theorem writeEncCmd_reserved {w : Word} (h : opField w ≠ 0x10#8) (s : State) :
    writeEncCmd w s = .done (.fault (if s.enc.busy then .busy else .reservedCmd)) := by
  rw [writeEncCmd, decode, decodeEncCmd, if_neg h]

/-- A write of the ENCODE word runs ENCODE (R35, R61). -/
theorem step_of_encode {s : State} {len : Len} {rest : List Input} (hc : configValid s.cfg = true) (hb : betweenCommands s)
    (hi : s.inputs = .access (.regWrite .encoder 0 0 4 (commandWord 0x10#8 len)) :: rest) :
    step s = execEncode len (s.setInputs rest) := by
  have hwrite := writeEncCmd_encode (opField_commandWord 0x10#8 len) (s.setInputs rest)
  rw [lenField_commandWord] at hwrite
  exact step_of_run hc hb hi hwrite

/-- The ENCODE write presents the first chunk, and the others are to come (R93 to R99). -/
theorem ReadyFor.step_encode {s : State} {len : Len} {payload : List Byte} (h : ReadyFor s len payload) {rest : List Input}
    (hi : s.inputs = .access (.regWrite .encoder 0 0 4 (commandWord 0x10#8 len)) :: rest) :
    ∃ e chunk cs, step s = .next (s.presented rest e [chunk]) ∧ chunksOf s.cfg.chunkSize payload = chunk :: cs
      ∧ Sending (s.presented rest e [chunk]) cs ∧ EncodeKeeps (s.enc.begin len.toNat) e := by
  obtain ⟨e, chunk, cs, hrun, hcut, hpres⟩ := execEncode_spec (s := s.setInputs rest) (three_le_chunkSize h.inv.valid) h.idle
    h.fits h.written
  have hstep := (step_of_encode h.inv.valid h.closed hi).trans hrun
  exact ⟨e, chunk, cs, hstep, hcut, ⟨stepKeepsInvariant _ _ h.inv hstep, h.closed, hpres.keeps.busy, hpres.after⟩, hpres.keeps⟩

/-! ## Answers one after another -/

/-- The last of several `ok` answers. -/
theorem okAnswers_succ (n k : Nat) : okAnswers n (k + 1) = okAnswers n k ++ [.sinkAnswer (n + k + 1) .ok] := by
  induction k generalizing n with
  | zero => rfl
  | succ k ih =>
    rw [okAnswers, ih (n + 1), okAnswers, List.cons_append, Nat.add_right_comm n 1 k]
    rfl

/-- As many `ok` answers as there are chunks to come present them, one after another (R99). -/
theorem Sending.run_oks (k : Nat) : ∀ {s : State} {cs : List (List Byte)} {n : Nat} {rest : List Input}, Sending s cs →
    s.sinkOut.length = n + 1 → s.inputs = okAnswers n k ++ rest → k ≤ cs.length →
    ∃ e, runSteps k s = .next (s.presented rest e (cs.take k)) ∧ Sending (s.presented rest e (cs.take k)) (cs.drop k)
      ∧ EncodeKeeps s.enc e := by
  induction k with
  | zero =>
    intro s cs n rest h _ hi _
    have hsame : s.presented rest s.enc (cs.take 0) = s := State.presented_nothing hi
    exact ⟨s.enc, by rw [hsame, runSteps_zero], by rw [hsame]; exact h, .refl _⟩
  | succ k ih =>
    intro s cs n rest h hn hi hk
    obtain ⟨c, cs, rfl⟩ := List.exists_cons_of_length_pos (Nat.lt_of_lt_of_le (Nat.succ_pos k) hk)
    rw [okAnswers, ← hn] at hi
    obtain ⟨e, hstep, hnext, -, hkeeps⟩ := h.step_ok hi
    obtain ⟨e', hrun, hlast, hkeeps'⟩ := ih hnext (n := n + 1) (by simp [hn]) (by rw [← hn]; rfl)
      (Nat.le_of_succ_le_succ hk)
    rw [State.presented_presented] at hrun hlast
    exact ⟨e', by rw [runSteps_succ, hstep, andThen_next, hrun]; rfl, hlast, hkeeps.trans hkeeps'⟩

/-- An ENCODE write and `j` answers `ok` present the first `j + 1` chunks (R93 to R99). -/
theorem ReadyFor.run_oks {s : State} {len : Len} {payload : List Byte} (h : ReadyFor s len payload) {j : Nat} {rest : List Input}
    (hj : j < (chunksOf s.cfg.chunkSize payload).length)
    (hi : s.inputs = .access (.regWrite .encoder 0 0 4 (commandWord 0x10#8 len)) :: (okAnswers s.sinkOut.length j ++ rest)) :
    ∃ e, runSteps (j + 1) s = .next (s.presented rest e ((chunksOf s.cfg.chunkSize payload).take (j + 1)))
      ∧ Sending (s.presented rest e ((chunksOf s.cfg.chunkSize payload).take (j + 1)))
          ((chunksOf s.cfg.chunkSize payload).drop (j + 1))
      ∧ EncodeKeeps (s.enc.begin len.toNat) e := by
  obtain ⟨e, chunk, cs, hstep, hcut, hsending, hkeeps⟩ := h.step_encode hi
  rw [hcut] at hj ⊢
  obtain ⟨e', hrun, hlast, hkeeps'⟩ := hsending.run_oks j (n := s.sinkOut.length) (by simp) rfl
    (Nat.le_of_lt_succ hj)
  rw [State.presented_presented] at hrun hlast
  exact ⟨e', by rw [runSteps_succ, hstep, andThen_next, hrun]; rfl, hlast, hkeeps.trans hkeeps'⟩

/-- A run of one step more. -/
theorem runSteps_then_step {n : Nat} {s t : State} (h : runSteps n s = .next t) {u : State} (hu : step t = .next u) :
    runSteps (n + 1) s = .next u := by
  rw [runSteps_add, h, andThen_next, runSteps_succ, hu, andThen_next, runSteps_zero]

/-- A cut has at least one chunk: the frame is not empty. -/
theorem chunksOf_length_pos (chunkSize : Nat) (payload : List Byte) : 0 < (chunksOf chunkSize payload).length := by
  refine List.length_pos_iff.mpr fun hnil => ?_
  have hjoin := cutBody_flatten chunkSize [startEnd] payload
  rw [← chunksOf, hnil] at hjoin
  simp at hjoin

/-- Settles O38: every `ok` but the last presents a chunk, and the last ends the ENCODE. -/
theorem encodeSendsTheWholeFrame : Obligations.EncodeSendsTheWholeFrame := by
  intro s len payload rest hs hclosed hidle hfits hpayload hi
  obtain ⟨j, hj⟩ := Nat.exists_eq_add_one_of_ne_zero (Nat.ne_of_gt (chunksOf_length_pos s.cfg.chunkSize payload))
  rw [hj, okAnswers_succ, List.append_assoc] at hi
  obtain ⟨e, hrun, hsending, hkeeps⟩ := ReadyFor.run_oks ⟨hs, hclosed, hidle, hfits, hpayload⟩ (by omega) hi
  rw [← hj, List.take_length] at hrun hsending
  rw [List.drop_length] at hsending
  have hlast := hsending.step_last (rest := rest) (by simp [State.presented, hj, Nat.add_assoc])
  exact ⟨e.finishOk, runSteps_then_step hrun hlast, rfl, rfl, hkeeps.sendErr, hkeeps.payMem⟩

/-- Settles O39: `j` answers `ok` present `j + 1` chunks, and the failing answer ends the ENCODE. -/
theorem sinkFailureEndsTheEncode : Obligations.SinkFailureEndsTheEncode := by
  intro s len payload j v rest hs hclosed hidle hfits hpayload hj hi
  obtain ⟨e, hrun, hsending, hkeeps⟩ := ReadyFor.run_oks ⟨hs, hclosed, hidle, hfits, hpayload⟩ hj hi
  have hnumber : (s.sinkOut ++ (chunksOf s.cfg.chunkSize payload).take (j + 1)).length = s.sinkOut.length + j + 1 := by
    rw [List.length_append, List.length_take, Nat.min_eq_left hj, Nat.add_assoc]
  have hfail := hsending.step_fail (v := v) (rest := rest) (by rw [State.presented_sinkOut, hnumber]; rfl)
  exact ⟨e.finishErr (v % 2 ^ s.cfg.wErr), runSteps_then_step hrun hfail, rfl, rfl, rfl, hkeeps.payMem⟩

/-! ## Other inputs between the answers -/

/-- A step that leaves the encoder waiting: it is as it was, the sink was presented nothing, and no other input was taken. -/
structure LeavesEncoder (s t : State) : Prop where
  enc : t.enc = s.enc
  sinkOut : t.sinkOut = s.sinkOut
  inputs : t.inputs = s.inputs
  cfg : t.cfg = s.cfg

theorem LeavesEncoder.of_dec {s t : State} (h : t = s.setDec t.dec) : LeavesEncoder s t := by
  rw [h]
  exact ⟨rfl, rfl, rfl, rfl⟩

/-- While an ENCODE runs every command that goes on is the decoder's: another ENCODE stops (R101). -/
theorem exec_leavesEncoder {j : Instr} {s t : State} (hbusy : s.enc.busy = true) (h : exec j s = .next t) : LeavesEncoder s t := by
  refine .of_dec (exec_changes_decoder_alone (fun len hj => ?_) h)
  subst hj
  obtain ⟨hidle, -⟩ := execEncode_cases h
  rw [hbusy] at hidle
  cases hidle

/-- While an ENCODE runs an input's own work leaves the encoder waiting, but for the awaited answer and a hardware reset (R102). -/
theorem takeInput_leavesEncoder {i : Input} {s t : State} (hbusy : s.enc.busy = true)
    (hanswer : ∀ k a, i = .sinkAnswer k a → k ≠ s.sinkOut.length) (hreset : i ≠ .hwReset)
    (h : takeInput i s = .done (.next t)) : LeavesEncoder s t := by
  rcases takeInput_done h with ⟨a, b, hin⟩ | ⟨a, b, hpay⟩ | ⟨ws, rfl⟩ | ⟨x, -, rfl⟩ | ⟨k, a, hi, hsink⟩ | ⟨hi, -⟩
  · obtain ⟨-, -, rfl⟩ := hostWriteIn_cases hin
    exact .of_dec rfl
  · obtain ⟨-, hidle, -⟩ := hostWritePay_cases hpay
    rw [hbusy] at hidle
    cases hidle
  · exact ⟨rfl, rfl, rfl, rfl⟩
  · exact ⟨rfl, rfl, rfl, rfl⟩
  · rw [sinkAnswer_of_other (hanswer k a hi)] at hsink
    cases hsink
    exact ⟨rfl, rfl, rfl, rfl⟩
  · exact absurd hi hreset

/-- A step on such an input takes it and leaves the encoder waiting. -/
theorem step_leavesEncoder {s t : State} {i : Input} {rest : List Input} (hbusy : s.enc.busy = true) (hclosed : betweenCommands s)
    (hi : s.inputs = i :: rest) (hanswer : ∀ k a, i = .sinkAnswer k a → k ≠ s.sinkOut.length) (hreset : i ≠ .hwReset)
    (h : step s = .next t) : LeavesEncoder (s.setInputs rest) t := by
  rw [step_of_input (step_cases h).1 hclosed hi] at h
  split at h
  · next j u hrun =>
    obtain ⟨rfl, -⟩ := takeInput_run hrun
    exact exec_leavesEncoder hbusy h
  · next o hdone =>
    subst h
    exact takeInput_leavesEncoder hbusy hanswer hreset hdone

/-- Settles O42: a turn of the byte loop changes the decoder alone, and an input other than the two leaves the encoder waiting. -/
theorem silentSinkLeavesTheEncoderWaiting : Obligations.SilentSinkLeavesTheEncoderWaiting := by
  intro s t _ hbusy h hanswer hreset
  obtain ⟨-, ⟨-, -, rfl⟩ | ⟨w, -, hturn⟩ | ⟨i, rest, hclosed, hi, -⟩⟩ := step_cases h
  · exact ⟨rfl, rfl⟩
  · have hleaves : LeavesEncoder s t := .of_dec (windowStep_loopKeeps hturn).alone
    exact ⟨hleaves.enc, hleaves.sinkOut⟩
  · have hleaves := step_leavesEncoder hbusy hclosed hi (fun k a hia => hanswer k a rest (hia ▸ hi))
      (fun hir => hreset rest (hir ▸ hi)) h
    exact ⟨hleaves.enc, hleaves.sinkOut⟩

/-- An ENCODE that ran on from `s` to `t`: these chunks were presented on the way, and these are still to come. -/
structure RunsOn (s t : State) (sent left : List (List Byte)) : Prop where
  sending : Sending t left
  cfg : t.cfg = s.cfg
  sinkOut : t.sinkOut = s.sinkOut ++ sent
  keeps : EncodeKeeps s.enc t.enc

theorem RunsOn.refl {s : State} {cs : List (List Byte)} (h : Sending s cs) : RunsOn s s [] cs :=
  ⟨h, rfl, (List.append_nil _).symm, .refl _⟩

theorem RunsOn.trans {s t u : State} {sent sent' mid left : List (List Byte)} (h : RunsOn s t sent mid) (h' : RunsOn t u sent' left) :
    RunsOn s u (sent ++ sent') left :=
  ⟨h'.sending, h'.cfg.trans h.cfg, by rw [h'.sinkOut, h.sinkOut, List.append_assoc], h.keeps.trans h'.keeps⟩

/-- An input that is neither an answer nor a hardware reset, taken while an ENCODE runs. -/
theorem Sending.step_other {s t : State} {cs : List (List Byte)} (h : Sending s cs) {i : Input} {rest : List Input}
    (hi : s.inputs = i :: rest) (hanswer : isSinkAnswer i = false) (hreset : i ≠ .hwReset) (hstep : step s = .next t) :
    RunsOn s t [] cs ∧ t.inputs = rest := by
  have hleaves := step_leavesEncoder h.busy h.closed hi (fun k a hia => by rw [hia] at hanswer; cases hanswer) hreset hstep
  have hto_come : chunksAfter t.cfg t.enc cs := by
    rw [hleaves.cfg, hleaves.enc]
    exact h.to_come
  have hsending : Sending t cs := ⟨stepKeepsInvariant _ _ h.inv hstep, commandsAreAtomic _ _ h.closed hstep,
    (congrArg Encoder.busy hleaves.enc).trans h.busy, hto_come⟩
  exact ⟨⟨hsending, hleaves.cfg, hleaves.sinkOut.trans (List.append_nil _).symm, by rw [hleaves.enc]; exact .refl _⟩, hleaves.inputs⟩

/-- The answers among some inputs being `ok` to the flushes in order, the ENCODE goes on through them, if none of them stops. -/
theorem Sending.run_among (between : List Input) : ∀ {s t : State} {cs : List (List Byte)} {n k : Nat} {rest : List Input},
    Sending s cs → s.sinkOut.length = n + 1 → s.inputs = between ++ rest → between.filter isSinkAnswer = okAnswers n k →
    .hwReset ∉ between → k ≤ cs.length → runSteps between.length s = .next t →
    RunsOn s t (cs.take k) (cs.drop k) ∧ t.inputs = rest := by
  induction between with
  | nil =>
    intro s t cs n k rest h _ hi hanswers _ _ hrun
    cases hrun
    cases k with
    | zero => exact ⟨.refl h, hi⟩
    | succ k => cases hanswers
  | cons i between ih =>
    intro s t cs n k rest h hn hi hanswers hreset hk hrun
    rw [List.mem_cons, not_or] at hreset
    obtain ⟨u, hstep, hrun⟩ := andThen_eq_next.mp hrun
    by_cases hia : isSinkAnswer i = true
    · rw [List.filter_cons_of_pos hia] at hanswers
      cases k with
      | zero => cases hanswers
      | succ k =>
        obtain ⟨rfl, hlater⟩ := List.cons.inj hanswers
        obtain ⟨c, cs, rfl⟩ := List.exists_cons_of_length_pos (Nat.lt_of_lt_of_le (Nat.succ_pos k) hk)
        rw [← hn] at hi
        obtain ⟨e, hstep', hsending, -, hkeeps⟩ := h.step_ok hi
        cases hstep.symm.trans hstep'
        obtain ⟨hruns, hinputs⟩ := ih hsending (n := n + 1) (by simp [hn]) rfl hlater hreset.2
          (Nat.le_of_succ_le_succ hk) hrun
        have hfirst : RunsOn s (s.presented (between ++ rest) e [c]) [c] cs := ⟨hsending, rfl, rfl, hkeeps⟩
        exact ⟨hfirst.trans hruns, hinputs⟩
    · rw [List.filter_cons_of_neg hia] at hanswers
      obtain ⟨hfirst, hinputs⟩ := h.step_other hi (Bool.eq_false_iff.mpr hia) (Ne.symm hreset.1) hstep
      have hn' : u.sinkOut.length = n + 1 := by rw [hfirst.sinkOut, List.append_nil, hn]
      obtain ⟨hruns, hrest⟩ := ih hfirst.sending hn' hinputs hanswers hreset.2 hk hrun
      exact ⟨hfirst.trans hruns, hrest⟩

/-- Settles O59: the ENCODE write presents the first chunk, the inputs between are run through, and then each answer has its lemma. -/
theorem encodeGoesOnAmongOtherInputs : Obligations.EncodeGoesOnAmongOtherInputs := by
  intro s t len payload between rest k hs hclosed hidle hfits hpayload hk hi hanswers hreset hrun
  obtain ⟨u, hstep, hrun⟩ := andThen_eq_next.mp hrun
  obtain ⟨e, chunk, cs, hstep', hcut, hsending, hkeeps⟩ := ReadyFor.step_encode ⟨hs, hclosed, hidle, hfits, hpayload⟩ hi
  cases hstep.symm.trans hstep'
  rw [hcut] at hk ⊢
  have hk' : k ≤ cs.length := Nat.le_of_lt_succ hk
  obtain ⟨hruns, hinputs⟩ := hsending.run_among between (n := s.sinkOut.length) (by simp) rfl hanswers hreset
    hk' hrun
  have hkept := hkeeps.trans hruns.keeps
  have hcfg : t.cfg = s.cfg := hruns.cfg
  have hsink : t.sinkOut = s.sinkOut ++ (chunk :: cs).take (k + 1) := by
    rw [hruns.sinkOut, State.presented_sinkOut, List.append_assoc]
    rfl
  have hnumber : s.sinkOut.length + k + 1 = t.sinkOut.length := by
    rw [hsink, List.length_append, List.length_take, Nat.min_eq_left hk, Nat.add_assoc]
  refine ⟨hruns.sending.busy, hinputs, hcfg, hsink, chunksToCome_of_after hruns.sending.to_come, hkept.payMem, hkept.res,
    hkept.sendErr, fun v after hfail => ?_, fun after hlast hok => ?_⟩
  · rw [hnumber, ← hinputs] at hfail
    rw [← hcfg]
    exact hruns.sending.step_fail hfail
  · rw [hnumber, ← hinputs] at hok
    have hnone : cs.drop k = [] := List.drop_of_length_le (Nat.le_of_succ_le_succ (Nat.le_of_eq hlast.symm))
    have hdone := hruns.sending
    rw [hnone] at hdone
    exact hdone.step_last hok

/-! ## How long the chunks are -/

/-- The lengths of R105: every chunk but the last is full but for at most one byte, and the last is not empty. -/
def CutLengths (chunkSize : Nat) (cs : List (List Byte)) : Prop :=
  ∃ front last, cs = front ++ [last] ∧ (∀ c ∈ front, c.length = chunkSize - 1 ∨ c.length = chunkSize)
    ∧ 1 ≤ last.length ∧ last.length ≤ chunkSize

theorem CutLengths.last {chunkSize : Nat} {c : List Byte} (hpos : 1 ≤ c.length) (hle : c.length ≤ chunkSize) :
    CutLengths chunkSize [c] :=
  ⟨[], c, rfl, by simp, hpos, hle⟩

theorem CutLengths.cons {chunkSize : Nat} {c : List Byte} {cs : List (List Byte)}
    (hc : c.length = chunkSize - 1 ∨ c.length = chunkSize) (h : CutLengths chunkSize cs) : CutLengths chunkSize (c :: cs) := by
  obtain ⟨front, last, rfl, hfront, hpos, hle⟩ := h
  exact ⟨c :: front, last, rfl, List.forall_mem_cons.mpr ⟨hc, hfront⟩, hpos, hle⟩

/-- The cut flushes only where SCRATCH has no room for two bytes, or for one at the end (R96, R97). -/
theorem cutBody_lengths {chunkSize : Nat} (h3 : 3 ≤ chunkSize) (payload : List Byte) : ∀ {cur : List Byte}, 1 ≤ cur.length →
    cur.length ≤ chunkSize → CutLengths chunkSize (cutBody chunkSize cur payload) := by
  induction payload with
  | nil =>
    intro cur hpos hle
    rw [cutBody]
    split
    · exact .cons (.inr (by omega)) (.last (Nat.le_refl 1) (by simp; omega))
    · exact .last (by simp) (by simp; omega)
  | cons b bs ih =>
    intro cur hpos hle
    obtain ⟨hone, htwo⟩ := escape_length b
    rw [cutBody]
    split
    · exact .cons (by omega) (ih hone (by omega))
    · exact ih (by simp; omega) (by simp; omega)

/-- What fits one chunk with its closing delimiter is one chunk (R105). -/
theorem cutBody_of_fits {chunkSize : Nat} (payload : List Byte) : ∀ {cur : List Byte},
    (cur ++ payload.flatMap escape ++ [startEnd]).length ≤ chunkSize →
    cutBody chunkSize cur payload = [cur ++ payload.flatMap escape ++ [startEnd]] := by
  induction payload with
  | nil =>
    intro cur hfits
    simp only [List.flatMap_nil, List.append_nil, List.length_append, List.length_singleton] at hfits ⊢
    rw [cutBody, if_neg (by omega)]
  | cons b bs ih =>
    intro cur hfits
    rw [List.flatMap_cons, ← List.append_assoc] at hfits ⊢
    have hroom : ¬ chunkSize - cur.length < 2 := by
      have hone := (escape_length b).1
      simp only [List.length_append, List.length_singleton] at hfits
      omega
    rw [cutBody, if_neg hroom, ih hfits]

/-- Settles O41: cutting starts with the opening delimiter in SCRATCH. -/
theorem chunkLengths : Obligations.ChunkLengths := by
  intro chunkSize payload h3
  obtain ⟨front, last, hcut, hfront, hpos, hle⟩ := cutBody_lengths h3 payload (cur := [startEnd]) (Nat.le_refl 1) (by simp; omega)
  exact ⟨front, last, hcut, hfront, hpos, hle, cutBody_of_fits payload⟩

/-! ## Stops -/

/-- ENCODE while another runs (R101). -/
theorem execEncode_of_busy {s : State} (hbusy : s.enc.busy = true) (len : Len) : execEncode len s = .fault .busy := if_pos hbusy

/-- Settles O36: the branches of `execEncode`, in the order of its tests. -/
theorem encodeStopsOnBrokenHostDuty : Obligations.EncodeStopsOnBrokenHostDuty := by
  refine fun s len => ⟨fun hbusy => execEncode_of_busy hbusy len, fun hidle hlong => ?_, fun hidle hlen hunwritten => ?_⟩
  · exact (if_neg (Bool.eq_false_iff.mp hidle)).trans (if_pos hlong)
  · have hall : ¬ allWritten s.enc.payMem 0 len.toNat = true := by
      obtain ⟨a, ha, hnone⟩ := hunwritten
      intro hall
      have hsome := allWritten_iff.mp hall a ha
      rw [Nat.zero_add, hnone] at hsome
      cases hsome
    exact (if_neg (Bool.eq_false_iff.mp hidle)).trans ((if_neg (Nat.not_lt.mpr hlen)).trans (if_neg hall))

/-- Settles O52: the word is ENCODE, which stops, or reserved, and then the write stops. -/
theorem encodeCommandWhileBusyRefused : Obligations.EncodeCommandWhileBusyRefused := by
  intro s w rest hc hb hbusy hi
  by_cases hop : opField w = 0x10#8
  · exact (step_of_run hc hb hi (writeEncCmd_encode hop _)).trans (execEncode_of_busy (s := s.setInputs rest) hbusy _)
  · have hstep := step_of_done hc hb hi (writeEncCmd_reserved hop (s.setInputs rest))
    rwa [State.setInputs_enc, hbusy, if_pos rfl] at hstep

/-- OP as arithmetic on the word (R60). -/
theorem opField_eq_iff {w : Word} {op : Byte} : opField w = op ↔ w.toNat % 256 = op.toNat := by
  rw [← opField_toNat, BitVec.toNat_inj]

theorem lenField_eq_zero_iff {w : Word} : lenField w = 0#24 ↔ w.toNat / 256 = 0 := by
  rw [← lenField_toNat, ← BitVec.toNat_inj]
  rfl

/-- The words that R63 reserves at DEC_CMD. -/
theorem decodeDecCmd_reserved {w : Word}
    (h : w.toNat % 256 ∉ [1, 2, 3, 4] ∨ (w.toNat % 256 ∈ [1, 2, 4] ∧ w.toNat / 256 ≠ 0)) :
    ∃ r, decodeDecCmd w = .error r := by
  rcases h with hop | ⟨hop, hlen⟩
  · simp only [List.mem_cons, List.not_mem_nil, or_false, not_or] at hop
    obtain ⟨hinit, hreset, hprocess, hdrain⟩ := hop
    exact ⟨.reservedOp, by simp [decodeDecCmd, opField_eq_iff, hinit, hreset, hprocess, hdrain]⟩
  · have hne : lenField w ≠ 0#24 := mt lenField_eq_zero_iff.mp hlen
    simp only [List.mem_cons, List.not_mem_nil, or_false] at hop
    rcases hop with hinit | hreset | hdrain
    · exact ⟨.nonzeroLen, by simp [decodeDecCmd, wantZeroLen, opField_eq_iff, hinit, hne]⟩
    · exact ⟨.nonzeroLen, by simp [decodeDecCmd, wantZeroLen, opField_eq_iff, hreset, hne]⟩
    · exact ⟨.nonzeroLen, by simp [decodeDecCmd, wantZeroLen, opField_eq_iff, hdrain, hne]⟩

/-- Settles O5: a reserved word decodes to no command, so its write stops. -/
theorem reservedCommandsRefused : Obligations.ReservedCommandsRefused := by
  intro s w rest hc hb
  refine ⟨fun hi hreserved => ?_, fun hi hidle hop => ?_⟩
  · obtain ⟨r, hr⟩ := decodeDecCmd_reserved hreserved
    have hwrite : writeDecCmd w (s.setInputs rest) = .done (.fault .reservedCmd) := by simp only [writeDecCmd, decode, hr]
    exact step_of_done hc hb hi hwrite
  · have hne : opField w ≠ 0x10#8 := fun h => hop (opField_eq_iff.mp h)
    have hstep := step_of_done hc hb hi (writeEncCmd_reserved hne (s.setInputs rest))
    rwa [State.setInputs_enc, hidle, if_neg Bool.false_ne_true] at hstep

end Sys2Proof.Machine
end

section
/-! The exceptions family (60_exceptions.md): a configuration out of range has no machine (R114), and the instances of a platform
do not meet (R119). -/

namespace Sys2Proof.Machine

/-! ## Configurations out of range -/

/-- The ranges of R7 to R13, the error codes read as signed words as the spec reads them. -/
theorem configValid_iff {c : Config} :
    configValid c = true ↔
      (1 ≤ c.capacity ∧ c.capacity ≤ 2 ^ 31 - 1) ∧ (3 ≤ c.chunkSize ∧ c.chunkSize ≤ 2 ^ 24 - 1)
        ∧ (1 ≤ c.wTick ∧ c.inactivityTimeout ≤ 2 ^ c.wTick - 1) ∧ (1 ≤ c.inMemSize ∧ c.inMemSize ≤ 2 ^ 24 - 1)
        ∧ c.payMemSize ≤ 2 ^ 24 - 1
        ∧ c.errOverflow.toInt < 0 ∧ c.errInvalidEscape.toInt < 0 ∧ c.errOverflow ≠ c.errInvalidEscape := by
  simp only [configValid, Bool.and_eq_true, decide_eq_true_eq, bne_iff_ne, BitVec.msb_eq_toInt, and_assoc]

theorem step_of_badConfiguration {s : State} (hc : ¬ configValid s.cfg = true) : step s = .refused .badConfiguration := if_neg hc

/-- Settles O7: `configValid_iff` rules out equal error codes, and each other broken range by arithmetic. -/
theorem configurationOutOfRangeRefused : Obligations.ConfigurationOutOfRangeRefused := by
  intro s hbroken
  refine step_of_badConfiguration fun hc => ?_
  obtain ⟨hcap, hchunk, htick, hin, hpay, hover, hescape, hdistinct⟩ := configValid_iff.mp hc
  simp only [hdistinct, or_false] at hbroken
  omega

/-! ## The instances of a platform -/

/-- A step of instance `n` is that instance's own step, and puts its next state in place `n`. -/
theorem platformStep_next {p q : Platform} {n : Nat} {s : State} (hs : p[n]? = some s) (h : platformStep n p = .next q) :
    ∃ t, step s = .next t ∧ q = p.set n t := by
  simp only [platformStep, hs] at h
  cases hstep : step s with
  | next t =>
    simp only [hstep] at h
    cases h
    exact ⟨t, rfl, rfl⟩
  | fault f => simp [hstep] at h
  | refused r => simp [hstep] at h

/-- Settles O46: the list with place `n` replaced holds the new state there and the old ones elsewhere. -/
theorem instancesDoNotMeet : Obligations.InstancesDoNotMeet := by
  intro p q n s hs h
  obtain ⟨t, hstep, rfl⟩ := platformStep_next hs h
  obtain ⟨hn, -⟩ := List.getElem?_eq_some_iff.mp hs
  refine ⟨?_, List.length_set, fun k hk => List.getElem?_set_ne hk.symm⟩
  rw [List.getElem?_set_self hn, Option.getD_some, hstep]

end Sys2Proof.Machine
end

section
/-! The reset and hazards family (70_reset_and_hazards.md): an answer that no flush waits for is ignored (R121). -/

namespace Sys2Proof.Machine

/-- With no flush waiting, every answer is ignored (R121). -/
theorem sinkAnswer_of_not_waiting {s : State} (hw : s.enc.wait = none) (k : Nat) (a : SinkAnswer) :
    sinkAnswer k a s = .next s := by
  unfold sinkAnswer
  rw [hw]

/-- Settles O43: an answer is stale because no flush waits, as after a hardware reset, or because it names another flush. -/
theorem staleSinkAnswersAreIgnored : Obligations.StaleSinkAnswersAreIgnored := by
  refine fun s k a rest hc hb hi => ⟨fun hstale => ?_, sinkAnswer_of_not_waiting rfl k a⟩
  have hignored : sinkAnswer k a (s.setInputs rest) = .next (s.setInputs rest) := by
    rcases hstale with hw | hk
    · exact sinkAnswer_of_not_waiting (s := s.setInputs rest) hw k a
    · exact sinkAnswer_of_other (s := s.setInputs rest) hk a
  exact step_of_done hc hb hi (congrArg Next.done hignored)

end Sys2Proof.Machine
end

section
/-! Words and their meanings in both directions (R57, R60, R61, R63), what a step runs (R35, R57; log 3), what every step keeps beside
the two blocks (R21, R38; log 8), and the invariant at reset (R38). -/

namespace Sys2Proof.Machine

/-! ## Words and meanings -/

/-- A wire byte decodes to a row of its state's table (R57): the byte is that row's, and no earlier row takes it. -/
theorem decodeWire_meaning (d : DState) (b : Byte) :
    encode (decodeWire d b) = .wire b ∧ (decodeWire d b).wellFormed = true ∧ (decodeWire d b).readIn d = true := by
  cases d with
  | idle =>
    rw [decodeWire_idle]
    split
    case isTrue h => subst h; exact ⟨rfl, rfl, rfl⟩
    case isFalse hend => exact ⟨rfl, bne_iff_ne.mpr hend, rfl⟩
  | inFrame =>
    rw [decodeWire_inFrame]
    split
    case isTrue h => subst h; exact ⟨rfl, rfl, rfl⟩
    case isFalse hend =>
      split
      case isTrue h => subst h; exact ⟨rfl, rfl, rfl⟩
      case isFalse hesc => exact ⟨rfl, by simp [Instr.wellFormed, hend, hesc], rfl⟩
  | inFrameEscaped =>
    rw [decodeWire_inFrameEscaped]
    split
    case isTrue h => subst h; exact ⟨rfl, rfl, rfl⟩
    case isFalse hend =>
      split
      case isTrue h => subst h; exact ⟨rfl, rfl, rfl⟩
      case isFalse hescEnd =>
        split
        case isTrue h => subst h; exact ⟨rfl, rfl, rfl⟩
        case isFalse hescEsc => exact ⟨rfl, by simp [Instr.wellFormed, hend, hescEnd, hescEsc], rfl⟩

theorem wantZeroLen_commandWord_eq_ok {op : Byte} {len : Len} {i j : Instr} :
    wantZeroLen (commandWord op len) i = .ok j ↔ len = 0#24 ∧ i = j := by
  unfold wantZeroLen
  rw [lenField_commandWord]
  split <;> simp [*]

/-- A word written to DEC_CMD decodes to a command of that word (R61): where the command has no LEN, the word's LEN is 0 (R63). -/
theorem decode_decCmd_meaning {d : DState} {w : Word} {i : Instr} (h : decode d (.decCmd w) = .ok i) :
    encode i = .decCmd w ∧ i.wellFormed = true ∧ i.readIn d = true := by
  obtain ⟨op, len, rfl⟩ : ∃ op len, commandWord op len = w := ⟨_, _, commandWord_fields w⟩
  rw [decode_decCmd_commandWord] at h
  split at h
  · next hop =>
    obtain ⟨rfl, rfl⟩ := wantZeroLen_commandWord_eq_ok.mp h
    exact ⟨hop ▸ rfl, rfl, rfl⟩
  split at h
  · next hop =>
    obtain ⟨rfl, rfl⟩ := wantZeroLen_commandWord_eq_ok.mp h
    exact ⟨hop ▸ rfl, rfl, rfl⟩
  split at h
  · next hop =>
    cases h
    exact ⟨hop ▸ rfl, rfl, rfl⟩
  split at h
  · next hop =>
    obtain ⟨rfl, rfl⟩ := wantZeroLen_commandWord_eq_ok.mp h
    exact ⟨hop ▸ rfl, rfl, rfl⟩
  · cases h

/-- A word written to ENC_CMD decodes to the ENCODE of that word (R61). -/
theorem decode_encCmd_meaning {d : DState} {w : Word} {i : Instr} (h : decode d (.encCmd w) = .ok i) :
    encode i = .encCmd w ∧ i.wellFormed = true ∧ i.readIn d = true := by
  obtain ⟨op, len, rfl⟩ : ∃ op len, commandWord op len = w := ⟨_, _, commandWord_fields w⟩
  rw [decode_encCmd_commandWord] at h
  split at h
  case isTrue hop => cases h; exact ⟨hop ▸ rfl, rfl, rfl⟩
  case isFalse => cases h

/-- Settles O2: the three kinds of word, each by its own lemma. -/
theorem everyWordHasOneMeaning : Obligations.EveryWordHasOneMeaning := by
  intro d c i h
  cases c with
  | decCmd w => exact decode_decCmd_meaning h
  | encCmd w => exact decode_encCmd_meaning h
  | wire b =>
    cases h
    exact decodeWire_meaning d b

/-- Settles O1: a command word is put together from the fields that decoding takes apart, and a wire byte is its own row's. -/
theorem decodeEncodeAgree : Obligations.DecodeEncodeAgree := by
  intro i d hwf hread
  cases i with
  | init => exact decode_decCmd_commandWord d 0x01#8 0#24
  | reset => exact decode_decCmd_commandWord d 0x02#8 0#24
  | process len => exact decode_decCmd_commandWord d 0x03#8 len
  | drain => exact decode_decCmd_commandWord d 0x04#8 0#24
  | encode len => exact decode_encCmd_commandWord d 0x10#8 len
  | start =>
    obtain rfl : d = .idle := beq_iff_eq.mp hread
    exact congrArg Except.ok (decodeWire_idle startEnd)
  | skip b =>
    obtain rfl : d = .idle := beq_iff_eq.mp hread
    exact congrArg Except.ok ((decodeWire_idle b).trans (if_neg (bne_iff_ne.mp hwf)))
  | endFrame =>
    cases d with
    | idle => cases hread
    | inFrame => exact congrArg Except.ok (decodeWire_inFrame startEnd)
    | inFrameEscaped => exact congrArg Except.ok (decodeWire_inFrameEscaped startEnd)
  | escEnd =>
    obtain rfl : d = .inFrameEscaped := beq_iff_eq.mp hread
    exact congrArg Except.ok (decodeWire_inFrameEscaped escapedStartEnd)
  | escEsc =>
    obtain rfl : d = .inFrameEscaped := beq_iff_eq.mp hread
    exact congrArg Except.ok (decodeWire_inFrameEscaped escapedEscape)
  | badEsc b =>
    obtain rfl : d = .inFrameEscaped := beq_iff_eq.mp hread
    simp only [Instr.wellFormed, Bool.and_eq_true, bne_iff_ne] at hwf
    obtain ⟨⟨hend, hescEnd⟩, hescEsc⟩ := hwf
    exact congrArg Except.ok (by rw [decodeWire_inFrameEscaped, if_neg hend, if_neg hescEnd, if_neg hescEsc])
  | esc =>
    obtain rfl : d = .inFrame := beq_iff_eq.mp hread
    exact congrArg Except.ok (decodeWire_inFrame escapeByte)
  | data b =>
    obtain rfl : d = .inFrame := beq_iff_eq.mp hread
    simp only [Instr.wellFormed, Bool.and_eq_true, bne_iff_ne] at hwf
    obtain ⟨hend, hesc⟩ := hwf
    exact congrArg Except.ok (by rw [decodeWire_inFrame, if_neg hend, if_neg hesc])

/-! ## What a step keeps beside the two blocks -/

/-- The configuration stays (R21), and the record of outputs only grows (log 8). -/
def KeepsRecord (s t : State) : Prop := t.cfg = s.cfg ∧ s.hostOut <+: t.hostOut ∧ s.sinkOut <+: t.sinkOut

theorem KeepsRecord.of_same {s t : State} (hc : t.cfg = s.cfg) (hh : t.hostOut = s.hostOut) (hk : t.sinkOut = s.sinkOut) :
    KeepsRecord s t :=
  ⟨hc, hh ▸ List.prefix_refl _, hk ▸ List.prefix_refl _⟩

/-- The decoder returns no word to the host and presents no chunk (R6). -/
theorem KeepsRecord.of_decoder_alone {s t : State} (h : t = s.setDec t.dec) : KeepsRecord s t := by
  rw [h]
  exact .of_same rfl rfl rfl

/-- The encoder presents chunks after those presented before (R99). -/
theorem StretchKeeps.keepsRecord {s t : State} (h : StretchKeeps s t) : KeepsRecord s t := by
  obtain ⟨hcfg, -, -, hhost, -⟩ := h.outside
  exact ⟨hcfg, hhost ▸ List.prefix_refl _, h.chunks⟩

theorem exec_keepsRecord {i : Instr} {s t : State} (h : exec i s = .next t) : KeepsRecord s t := by
  by_cases hi : ∃ len, i = .encode len
  · obtain ⟨len, rfl⟩ := hi
    exact (execEncode_keeps h).keepsRecord
  · exact .of_decoder_alone (exec_changes_decoder_alone (not_exists.mp hi) h)

/-- An input that issues no instruction: a host read adds the words it returns, and an answer of the sink may have the next chunk
presented. -/
theorem takeInput_done_keepsRecord {i : Input} {s t : State} (h : takeInput i s = .done (.next t)) : KeepsRecord s t := by
  rcases takeInput_done h with ⟨a, b, hin⟩ | ⟨a, b, hpay⟩ | ⟨ws, rfl⟩ | ⟨x, -, rfl⟩ | ⟨k, a, -, hsink⟩ | ⟨-, rfl⟩
  · obtain ⟨-, -, rfl⟩ := hostWriteIn_cases hin
    exact .of_same rfl rfl rfl
  · obtain ⟨-, -, rfl⟩ := hostWritePay_cases hpay
    exact .of_same rfl rfl rfl
  · exact ⟨rfl, List.prefix_append _ _, List.prefix_refl _⟩
  · exact .of_same rfl rfl rfl
  · exact (sinkAnswer_keeps hsink).keepsRecord
  · exact .of_same rfl rfl rfl

/-- Settles O8: a step waits, runs a turn of the byte loop, runs a command or does an input's own work, and each keeps the record. -/
theorem configurationAndOutputsAreKept : Obligations.ConfigurationAndOutputsAreKept := by
  intro s t h
  obtain ⟨-, ⟨-, -, rfl⟩ | ⟨w, -, hturn⟩ | ⟨i, rest, -, -, ⟨j, u, hrun, hexec⟩ | hdone⟩⟩ := step_cases h
  · exact KeepsRecord.of_same rfl rfl rfl
  · exact KeepsRecord.of_decoder_alone (windowStep_loopKeeps hturn).alone
  · obtain ⟨rfl, -⟩ := takeInput_run hrun
    exact exec_keepsRecord (s := s.setInputs rest) hexec
  · exact takeInput_done_keepsRecord (s := s.setInputs rest) hdone

/-! ## What a step runs -/

theorem writeDecCmd_of_decode {s : State} {w : Word} {i : Instr} (h : decode s.dec.dstate (.decCmd w) = .ok i) :
    writeDecCmd w s = .run i s := by
  rw [writeDecCmd, h]

theorem writeEncCmd_of_decode {s : State} {w : Word} {i : Instr} (h : decode s.dec.dstate (.encCmd w) = .ok i) :
    writeEncCmd w s = .run i s := by
  rw [writeEncCmd, h]

/-- A turn of the loop on a written byte of the window runs that byte's instruction. -/
theorem windowStep_of_byte {s : State} {w : Window} {b : Byte} (hpos : w.pos < w.len) (hin : w.base + w.pos < s.cfg.inMemSize)
    (hbyte : memRead s.dec.inMem (w.base + w.pos) = some b) : windowStep w s = exec (decodeWire s.dec.dstate b) s := by
  have hload : windowByte w s = .ok b := loadByte_ok.mpr ⟨hin, hbyte⟩
  rw [windowStep, if_pos hpos, hload, orFault_ok, exec_decodeWire]

/-- Settles O6: a command write issues what its word decodes to, and an open window what its byte decodes to. -/
theorem stepRunsDecodedInstruction : Obligations.StepRunsDecodedInstruction := by
  intro s i hc
  refine ⟨fun w rest hb hi hdecode => ?_, fun w rest hb hi hdecode => ?_, fun w b hw hpos hin hbyte hdecode => ?_⟩
  · exact step_of_run hc hb hi (writeDecCmd_of_decode (s := s.setInputs rest) hdecode)
  · exact step_of_run hc hb hi (writeEncCmd_of_decode (s := s.setInputs rest) hdecode)
  · cases hdecode
    rw [step_of_window hc hw, windowStep_of_byte hpos hin hbyte]

/-! ## Reset -/

/-- The chosen configuration is in range (R7 to R13; log 1). -/
theorem configValid_standard : configValid Config.standard = true := by decide

/-- Settles O12: each block's reset values meet its part in any configuration, and the chosen one (log 1) is in range. -/
theorem resetMeetsInvariant : Obligations.ResetMeetsInvariant :=
  ⟨configValid_standard, Decoder.reset_inv _, Encoder.reset_inv _⟩

end Sys2Proof.Machine
end
